-- ==== Sys2Proof/Word.lean ====
section
/-! DEFINITION. The words of the machine and the three operand sizes (00_scope R4 to R8). -/

namespace Sys2Proof

/-- A byte: one addressable cell with `AU` = 8, half of one with `AU` = 16 (R7; log 1). -/
abbrev Byte := BitVec 8

/-- One instruction word, `IWORD = 16` (R4). -/
abbrev Half := BitVec 16

/-- The contents of a register, `XLEN = 32` (R5). -/
abbrev Word := BitVec 32

/-- A memory address, `ALEN = 32`; its arithmetic is modulo 2^32 (R6). -/
abbrev Addr := BitVec 32

/-- The operand sizes of field `DD`: `b` 8 bits, `w` 16 bits, `l` 32 bits (R8). -/
inductive Size
  | b | w | l
  deriving DecidableEq, Repr

end Sys2Proof
end

