-- ==== Sys2Proof/Config.lean ====
section
/-! DEFINITION. The choices the spec's named parameters range over (00_scope R9), and the machine's
free values: constants with no body, so that nothing can be proved of their values. The value
each parameter takes stands in Machine/Params.lean. -/

namespace Sys2Proof

/-- `AU`: what one address names, a byte or a 16-bit cell (R7, D1; log 1). -/
inductive AddressUnit
  | byte | half
  deriving DecidableEq, Repr

/-- `ENDIAN` (20_memory R40, D2). -/
inductive Endian
  | little | big
  deriving DecidableEq, Repr

/-- `WORD_ORDER` of a two-word operand (30_encoding R92, D3). -/
inductive WordOrder
  | lowFirst | highFirst
  deriving DecidableEq, Repr

/-- `NARROW_WRITE`: what bits `31:s` of a register hold after an `s`-bit write (10_state R23, D4). -/
inductive NarrowWrite
  | any | preserve | zero
  deriving DecidableEq, Repr

/-- `PC_READ`: what PC presents as an operand (10_state R26, D5). -/
inductive PcRead
  | nextPc | ownPc
  deriving DecidableEq, Repr

/-- `ADDR16_EXT` (30_encoding R94, D8). -/
inductive Extension
  | zero | sign
  deriving DecidableEq, Repr

/-- `MISALIGNED` (20_memory R42, D11). -/
inductive Misaligned
  | refuse | bytewise
  deriving DecidableEq, Repr

/-- The type of `esl_step`, `rlb_step`, `rrb_step`: from size, operand and carry to the new operand
and carry (42_shift R166, R168, R171). -/
abbrev OpenStep := Size → Word → Bool → Word × Bool

namespace Config

/-- A fresh word for each value of the counter `State.draws`: bits `31:s` after a narrow write (R23, U13;
log 4). -/
opaque freeWord : Nat → Word

/-- A fresh bit for each value of `State.draws`: C and V after MOV (R243, U14; log 5). -/
opaque freeBit : Nat → Bool

/-- `esl_step`, where the launch supplies one: any function (R166, U8; log 6). -/
opaque eslStep : OpenStep

/-- `rlb_step`, where the launch supplies one: any function (R168, U8; log 6). -/
opaque rlbStep : OpenStep

/-- `rrb_step`, where the launch supplies one: any function (R171, U8; log 6). -/
opaque rrbStep : OpenStep

end Config

end Sys2Proof
end

