-- ==== Sys2Proof/Machine/Params.lean ====
section
/-! DEFINITION. The value of each named parameter of the spec (00_scope R9): the one place where it
is fixed. RESET_PC, HALT_PC and the three open steps have no value: the launch gives them (`State.pc`,
`State.haltPc`, `State.supplied`). -/

namespace Sys2Proof.Params

/-- `AU` (R7, D1; log 1). -/
@[simp] def au : AddressUnit := .byte

/-- `WS`: addresses per instruction word, 2 bytes or 1 cell (R7; log 1). -/
@[simp] def ws : Nat :=
  match Params.au with
  | .byte => 2
  | .half => 1

/-- `ENDIAN` (R40; log 2). -/
@[simp] def endian : Endian := .little

/-- `WORD_ORDER` (R92; log 2). -/
@[simp] def wordOrder : WordOrder := .lowFirst

/-- `NARROW_WRITE` (R23; log 4). -/
@[simp] def narrowWrite : NarrowWrite := .any

/-- `PC_READ`: of index and base operands; a pushed PC is nextpc whatever it is (R26, D5; logs 2, 7). -/
@[simp] def pcRead : PcRead := .nextPc

/-- `ADDR16_EXT` (R94; log 2). -/
@[simp] def addr16Ext : Extension := .zero

/-- `MISALIGNED` (R42; log 2). -/
@[simp] def misaligned : Misaligned := .refuse

/-- `VEC_ENTRY_BITS` = 16, as an access size (R273; log 2). -/
@[simp] def vecEntrySize : Size := .w

/-- `P_STACK_BITS` = 32, as an access size (R274; log 2). -/
@[simp] def pStackSize : Size := .l

/-- `P_LAYOUT`, the bit of P that holds flag C (R29; log 3, PRESUMED). -/
@[simp] def flagC : Nat := 0

/-- `P_LAYOUT`, flag Z (R29; log 3, PRESUMED). -/
@[simp] def flagZ : Nat := 1

/-- `P_LAYOUT`, flag I (R29; log 3, PRESUMED). -/
@[simp] def flagI : Nat := 2

/-- `P_LAYOUT`, flag D (R29; log 3, PRESUMED). -/
@[simp] def flagD : Nat := 3

/-- `P_LAYOUT`, flag V (R29; log 3, PRESUMED). -/
@[simp] def flagV : Nat := 6

/-- `P_LAYOUT`, flag N (R29; log 3, PRESUMED). -/
@[simp] def flagN : Nat := 7

end Sys2Proof.Params
end

