-- ==== Sys2Proof/Machine/Bits.lean ====
section
/-! DEFINITION. Value primitives on words (00_scope R10, R11) and the byte order of memory
(20_memory R40). An `s`-bit value is held as a `Word` whose bits `31:s` are zero. -/

namespace Sys2Proof

/-- The number of bits of a size (R8). -/
def Size.bits : Size → Nat
  | .b => 8
  | .w => 16
  | .l => 32

/-- The number of bytes, `n = s/8` (R14). -/
def Size.bytes : Size → Nat
  | .b => 1
  | .w => 2
  | .l => 4

/-- The number of addresses an access of a size covers: its bytes, or with `AU` = 16 its cells, of which an
8-bit access uses one half (R7, D1; log 1). -/
def Size.units (sz : Size) : Nat :=
  match Params.au with
  | .byte => sz.bytes
  | .half =>
    match sz with
    | .b => 1
    | .w => 1
    | .l => 2

/-- The word with bits `s-1:0` set. -/
def Size.mask : Size → Word
  | .b => 0xFF
  | .w => 0xFFFF
  | .l => 0xFFFFFFFF

/-- `trunc_s(v)`: bits `s-1:0` of `v` (R11). -/
def trunc (sz : Size) (v : Word) : Word := v &&& sz.mask

/-- The most significant bit of an `s`-bit value, `v[s-1]`. -/
def signBit (sz : Size) (v : Word) : Bool := v.getLsbD (sz.bits - 1)

/-- Bits `31:s` from `hi`, bits `s-1:0` from `v`. -/
def merge (sz : Size) (hi v : Word) : Word := (hi &&& ~~~ sz.mask) ||| trunc sz v

/-- The word with bit `i` alone set: the `mask` of the bit instructions (44_bitops R221). -/
def bitMask (i : Nat) : Word := 1#32 <<< i

/-- `w` with bit `i` made `b`. -/
def setBit (w : Word) (i : Nat) (b : Bool) : Word :=
  if b then w ||| bitMask i else w &&& ~~~ bitMask i

/-- A 16-bit operand widened to 32 bits (30_encoding R94, R98). -/
def widen : Extension → Half → Word
  | .zero, h => h.setWidth 32
  | .sign, h => h.signExtend 32

/-- `{hi, lo}` (R11). -/
def pairHalves (hi lo : Half) : Word := hi ++ lo

/-- The value of bytes given least significant first. -/
def wordOfBytes : List Byte → Word
  | [] => 0
  | b :: bs => b.setWidth 32 ||| (wordOfBytes bs <<< 8)

/-- The `n` low bytes of a word, least significant first. -/
def bytesOfWord : Nat → Word → List Byte
  | 0, _ => []
  | n + 1, v => v.setWidth 8 :: bytesOfWord n (v >>> 8)

/-- The value of the bytes of an access, listed from its lowest address up (R40). -/
def joinBytes (bs : List Byte) : Word :=
  match Params.endian with
  | .little => wordOfBytes bs
  | .big => wordOfBytes bs.reverse

/-- The bytes an `n`-byte access stores, listed from its lowest address up (R40). -/
def splitBytes (n : Nat) (v : Word) : List Byte :=
  match Params.endian with
  | .little => bytesOfWord n v
  | .big => (bytesOfWord n v).reverse

end Sys2Proof
end

