-- ==== Sys2Proof/Syntax.lean ====
section
/-! DEFINITION. The instructions as terms. `Instr` has one constructor for each mnemonic of
spec/opcode_table.json; the rows of a mnemonic are the shapes of its operand, so that a mnemonic
together with its operand term (register, immediate, or memory operand with its addressing form and
index list) names exactly one row (30_encoding R73, R108; log 19). -/

namespace Sys2Proof

/-- The fifteen registers that hold a 32-bit value an operand can name (10_state R20). PC is apart:
it is only ever an index, a base or the operand of PSH and PUL (R21). -/
inductive Reg
  | a0 | a1 | a2 | a3 | x0 | x1 | x2 | x3 | y0 | y1 | y2 | y3 | z | sp | p
  deriving DecidableEq, Repr

/-- An entry of an index, base or stack pointer list: the constant 0 (R22), PC (R26), or a register. -/
inductive Index
  | zero | pc | reg (r : Reg)
  deriving DecidableEq, Repr

/-- The operand of PSH and PUL: a register, or PC (30_encoding R90). -/
inductive Slot
  | pc | reg (r : Reg)
  deriving DecidableEq, Repr

/-- The three index lists of the memory forms (30_encoding R77 to R79). YYY and ZZZ name the same
entries under different codes, so the list is part of the operand. -/
inductive IxList
  | xxx | yyy | zzz
  deriving DecidableEq, Repr

/-- The memory operands (30_encoding R93): `addr16, ri` and `addr32, ri` with the list that codes
`ri`, `(addr16, ri)`, and `(addr16), ri`. -/
inductive MemOp
  | abs16 (list : IxList) (addr : Half) (ri : Index)
  | abs32 (list : IxList) (addr : Word) (ri : Index)
  | pre (addr : Half) (ri : Index)
  | post (addr : Half) (ri : Index)
  deriving DecidableEq, Repr

/-- The operand of ABS, DEC, EXT, INC, NEG, NOT (40_unary R110). -/
inductive UnaryForm
  | reg (rd : Reg)
  | mem (m : MemOp)
  deriving DecidableEq, Repr

/-- The operands of ADC, ADD, AND, BIC, EOR, ORA, SBC, SUB (41_alu R130). An immediate is an `s`-bit
value in a word. -/
inductive AluForm
  | reg (rd rs : Reg)
  | imm (rd : Reg) (v : Word)
  | mem (rd : Reg) (m : MemOp)
  deriving DecidableEq, Repr

/-- The operands of BIT (41_alu R138). -/
inductive TestForm
  | reg (rd rs : Reg)
  | mem (rd : Reg) (m : MemOp)
  deriving DecidableEq, Repr

/-- The operands of the shifts and rotates (42_shift R160): a register by one, by an immediate
count, by a count register; or a memory operand with the amount field `NN`. -/
inductive ShiftForm
  | one (rd : Reg)
  | imm (rd : Reg) (count : Half)
  | reg (rd rs : Reg)
  | mem (m : MemOp) (nn : BitVec 2)
  deriving DecidableEq, Repr

/-- The branch offset, 16 or 32 bits by field `D` (43_control R192). -/
inductive BranchOffset
  | short (v : Half)
  | long (v : Word)
  deriving DecidableEq, Repr

/-- The operands of a branch: offset and base register, the indirect bit and the link bit
(43_control R190). -/
structure BranchForm where
  offset : BranchOffset
  base : Index
  indirect : Bool
  link : Bool
  deriving DecidableEq, Repr

/-- The target of JMP (43_control R200). -/
inductive JumpForm
  | direct (addr : Word)
  | indirect (addr : Word)
  deriving DecidableEq, Repr

/-- The operand of CBT, SBT, TBT, XBT (44_bitops R220). -/
inductive BitForm
  | reg (rd : Reg)
  | mem (addr : Word) (ri : Index)
  deriving DecidableEq, Repr

/-- The operands of LDR (45_move R240). -/
inductive LoadForm
  | imm (rd : Reg) (v : Word)
  | mem (rd : Reg) (m : MemOp)
  deriving DecidableEq, Repr

/-- The six rows of MOV by low byte (45_move R242): rows 2 and 6 reach the same pairs, as do rows 3
and 5, so the row is part of the instruction. -/
inductive MovRow
  | aa | a8 | ba | r8a | r9a | r98
  deriving DecidableEq, Repr

/-- The instructions, one constructor for each mnemonic of the opcode table. -/
inductive Instr
  -- 40_unary: `NN` is the amount field of DEC and INC (R113, R115)
  | abs (sz : Size) (f : UnaryForm)
  | dec (sz : Size) (nn : BitVec 2) (f : UnaryForm)
  | ext (sz : Size) (f : UnaryForm)
  | inc (sz : Size) (nn : BitVec 2) (f : UnaryForm)
  | neg (sz : Size) (f : UnaryForm)
  | not (sz : Size) (f : UnaryForm)
  -- 41_alu
  | adc (sz : Size) (f : AluForm)
  | add (sz : Size) (f : AluForm)
  | and (sz : Size) (f : AluForm)
  | bic (sz : Size) (f : AluForm)
  | bit (sz : Size) (f : TestForm)
  | eor (sz : Size) (f : AluForm)
  | ora (sz : Size) (f : AluForm)
  | sbc (sz : Size) (f : AluForm)
  | sub (sz : Size) (f : AluForm)
  -- 42_shift
  | asl (sz : Size) (f : ShiftForm)
  | asr (sz : Size) (f : ShiftForm)
  | esl (sz : Size) (f : ShiftForm)
  | lsr (sz : Size) (f : ShiftForm)
  | rlb (sz : Size) (f : ShiftForm)
  | rol (sz : Size) (f : ShiftForm)
  | ror (sz : Size) (f : ShiftForm)
  | rrb (sz : Size) (f : ShiftForm)
  -- 43_control
  | bpl (f : BranchForm)
  | bmi (f : BranchForm)
  | bvc (f : BranchForm)
  | bvs (f : BranchForm)
  | bcc (f : BranchForm)
  | bcs (f : BranchForm)
  | bne (f : BranchForm)
  | beq (f : BranchForm)
  | bge (f : BranchForm)
  | blt (f : BranchForm)
  | ble (f : BranchForm)
  | bgt (f : BranchForm)
  | bls (f : BranchForm)
  | bhi (f : BranchForm)
  | bnv (f : BranchForm)
  | bra (f : BranchForm)
  | brk (wait : Bool) (irq : BitVec 3) (vector : BitVec 4)
  | jmp (f : JumpForm)
  | jsr (rs : Index) (addr : Word)
  | nop (n : BitVec 8)
  | rti (rs : Index)
  | rts (rs : Index)
  -- 44_bitops: the bit number 0 to 31
  | cbt (f : BitForm) (b : BitVec 5)
  | sbt (f : BitForm) (b : BitVec 5)
  | tbt (f : BitForm) (b : BitVec 5)
  | xbt (f : BitForm) (b : BitVec 5)
  -- 45_move
  | ldr (sz : Size) (f : LoadForm)
  | mov (sz : Size) (row : MovRow) (rd rs : Reg)
  | psh (sz : Size) (rd : Slot) (rs : Index)
  | pul (sz : Size) (rd : Slot) (rs : Index)
  | str (sz : Size) (rd : Reg) (m : MemOp)
  deriving DecidableEq, Repr

/-! Names for the members of a family, and the instruction each names. -/

/-- The six one-operand instructions; DEC and INC with their amount field. -/
inductive UnaryOp
  | abs | dec (nn : BitVec 2) | ext | inc (nn : BitVec 2) | neg | not
  deriving DecidableEq, Repr

/-- The eight two-operand instructions that write `rd`. -/
inductive AluOp
  | adc | add | and | bic | eor | ora | sbc | sub
  deriving DecidableEq, Repr

/-- The eight shifts and rotates. -/
inductive ShiftOp
  | asl | asr | esl | lsr | rlb | rol | ror | rrb
  deriving DecidableEq, Repr

/-- The sixteen branch conditions (30_encoding R84), in the order of their codes. -/
inductive Cond
  | pl | mi | vc | vs | cc | cs | ne | eq | ge | lt | le | gt | ls | hi | nv | ra
  deriving DecidableEq, Repr

/-- The four bit instructions. -/
inductive BitOp
  | cbt | sbt | tbt | xbt
  deriving DecidableEq, Repr

/-- ABS, DEC, EXT, INC, NEG or NOT. -/
def Instr.unary : UnaryOp → Size → UnaryForm → Instr
  | .abs, sz, f => .abs sz f
  | .dec nn, sz, f => .dec sz nn f
  | .ext, sz, f => .ext sz f
  | .inc nn, sz, f => .inc sz nn f
  | .neg, sz, f => .neg sz f
  | .not, sz, f => .not sz f

/-- ADC, ADD, AND, BIC, EOR, ORA, SBC or SUB. -/
def Instr.alu : AluOp → Size → AluForm → Instr
  | .adc => .adc
  | .add => .add
  | .and => .and
  | .bic => .bic
  | .eor => .eor
  | .ora => .ora
  | .sbc => .sbc
  | .sub => .sub

/-- ASL, ASR, ESL, LSR, RLB, ROL, ROR or RRB. -/
def Instr.shift : ShiftOp → Size → ShiftForm → Instr
  | .asl => .asl
  | .asr => .asr
  | .esl => .esl
  | .lsr => .lsr
  | .rlb => .rlb
  | .rol => .rol
  | .ror => .ror
  | .rrb => .rrb

/-- BPL, BMI, BVC, BVS, BCC, BCS, BNE, BEQ, BGE, BLT, BLE, BGT, BLS, BHI, BNV or BRA. -/
def Instr.branch : Cond → BranchForm → Instr
  | .pl => .bpl
  | .mi => .bmi
  | .vc => .bvc
  | .vs => .bvs
  | .cc => .bcc
  | .cs => .bcs
  | .ne => .bne
  | .eq => .beq
  | .ge => .bge
  | .lt => .blt
  | .le => .ble
  | .gt => .bgt
  | .ls => .bls
  | .hi => .bhi
  | .nv => .bnv
  | .ra => .bra

/-- CBT, SBT, TBT or XBT. -/
def Instr.bitop : BitOp → BitForm → BitVec 5 → Instr
  | .cbt => .cbt
  | .sbt => .sbt
  | .tbt => .tbt
  | .xbt => .xbt

end Sys2Proof
end

