-- ==== Sys2Proof/WellFormed.lean ====
section
/-! DEFINITION. Which instruction terms have an encoding: the registers each position admits and the
pairs of operands that have a row (30_encoding R74 to R90, 41_alu R130 and R138, 42_shift R160,
45_move R240 to R246). It speaks of registers, never of codes; Decode.lean holds the codes. -/

namespace Sys2Proof

/-- Group A (R20). -/
def Reg.isA : Reg → Bool
  | .a0 | .a1 | .a2 | .a3 => true
  | _ => false

/-- Group X (R20). -/
def Reg.isX : Reg → Bool
  | .x0 | .x1 | .x2 | .x3 => true
  | _ => false

/-- Group Y (R20). -/
def Reg.isY : Reg → Bool
  | .y0 | .y1 | .y2 | .y3 => true
  | _ => false

/-- The registers of list AAAA (R74): groups A, X, Y, and Z and SP. -/
def Reg.isGeneral (r : Reg) : Bool := r != .p

/-- The entries of list XXX are groups X and A (R77); those of YYY and ZZZ are group Y, 0, Z, SP and
PC (R78, R79). -/
def IxList.admits : IxList → Index → Bool
  | .xxx, .reg r => r.isX || r.isA
  | .xxx, _ => false
  | _, .zero => true
  | _, .pc => true
  | _, .reg r => r.isY || r == .z || r == .sp

/-- The index of a memory operand is in its list; `(addr16, ri)` uses XXX, `(addr16), ri` YYY. -/
def MemOp.indexWf : MemOp → Bool
  | .abs16 l _ ri => l.admits ri
  | .abs32 l _ ri => l.admits ri
  | .pre _ ri => IxList.xxx.admits ri
  | .post _ ri => IxList.yyy.admits ri

/-- Rows 3 to 6 of the one-operand instructions and 4 to 7 of the shifts: `addr16` and `addr32` by
lists XXX and ZZZ (R110, R160). -/
def MemOp.modifyWf (m : MemOp) : Bool :=
  m.indexWf && match m with
    | .abs16 l _ _ => l != .yyy
    | .abs32 l _ _ => l != .yyy
    | _ => false

/-- Rows 5 to 15 of the two-operand instructions (R130): `addr32` reaches groups A, X and Y by lists
XXX and YYY and group A by ZZZ, every other form group A only. -/
def aluMemWf (rd : Reg) (m : MemOp) : Bool :=
  m.indexWf && match m with
    | .abs16 l _ _ => rd.isA && l != .yyy
    | .abs32 .zzz _ _ => rd.isA
    | .abs32 _ _ _ => rd.isA || rd.isX || rd.isY
    | _ => rd.isA

/-- Rows 2 to 4 of BIT (R138). -/
def testMemWf (rd : Reg) (m : MemOp) : Bool :=
  m.indexWf && rd.isA && match m with
    | .abs16 l _ _ => l == .zzz
    | .abs32 l _ _ => l != .yyy
    | _ => false

/-- Rows 2 to 17 of LDR and STR (R240). -/
def moveMemWf (rd : Reg) (m : MemOp) : Bool :=
  m.indexWf && match m with
    | .abs16 .xxx _ _ => rd.isA || rd.isY
    | .abs16 .yyy _ _ => rd.isX
    | .abs16 .zzz _ _ => rd.isA || rd.isX || rd.isY
    | .abs32 .xxx _ _ => rd.isA || rd.isX || rd.isY
    | .abs32 .yyy _ _ => rd.isA || rd.isX
    | .abs32 .zzz _ _ => rd.isA || rd.isX || rd.isY
    | _ => rd.isA

/-- An immediate has exactly `s` bits (R91). -/
def immWf (sz : Size) (v : Word) : Bool := v == trunc sz v

/-- Forms of the one-operand instructions (R110). -/
def UnaryForm.wf : UnaryForm → Bool
  | .reg rd => rd.isGeneral
  | .mem m => m.modifyWf

/-- Forms of the two-operand instructions (R130): list SSS has groups A and X (R76). -/
def AluForm.wf (sz : Size) : AluForm → Bool
  | .reg rd rs => (rd.isA || rd.isX || rd.isY) && (rs.isA || rs.isX)
  | .imm rd v => rd.isGeneral && immWf sz v
  | .mem rd m => aluMemWf rd m

/-- Forms of BIT (R138). -/
def TestForm.wf : TestForm → Bool
  | .reg rd rs => rd.isA && (rs.isA || rs.isX)
  | .mem rd m => testMemWf rd m

/-- Forms of the shifts and rotates (R160, R96). -/
def ShiftForm.wf : ShiftForm → Bool
  | .one rd => rd.isGeneral
  | .imm rd _ => rd.isGeneral
  | .reg rd rs => rd.isGeneral && rs.isGeneral
  | .mem m _ => m.modifyWf

/-- List Bcc-RRRR names every register but P, and PC (R83). -/
def BranchForm.wf (f : BranchForm) : Bool :=
  match f.base with
  | .zero => false
  | .pc => true
  | .reg r => r.isGeneral

/-- List stack-SSS: SP, PC, 0, Z and group Y (R89). -/
def stackWf : Index → Bool
  | .zero => true
  | .pc => true
  | .reg r => r.isY || r == .z || r == .sp

/-- List bit-RRRR names every register (R85); list bit-XXXX every register but P, and 0 (R86). -/
def BitForm.wf : BitForm → Bool
  | .reg _ => true
  | .mem _ .zero => true
  | .mem _ .pc => false
  | .mem _ (.reg r) => r.isGeneral

/-- Forms of LDR (R240). -/
def LoadForm.wf (sz : Size) : LoadForm → Bool
  | .imm rd v => rd.isGeneral && immWf sz v
  | .mem rd m => moveMemWf rd m

/-- Groups A and Y: lists MOV-AAA and MOV-YYY (R88). -/
def Reg.isAY (r : Reg) : Bool := r.isA || r.isY

/-- Group X, P, Z and SP: lists MOV-XXX and MOV-SSS (R88). -/
def Reg.isXS (r : Reg) : Bool := r.isX || r == .p || r == .z || r == .sp

/-- The register pairs of each MOV row (R242). -/
def MovRow.admits : MovRow → Reg → Reg → Bool
  | .aa, rd, rs => rd.isXS && rs.isAY
  | .a8, rd, rs => rd.isAY && rs.isAY
  | .ba, rd, rs => rd.isXS && rs.isXS
  | .r8a, rd, rs => rd.isAY && rs.isXS
  | .r9a, rd, rs => rd.isXS && rs.isXS
  | .r98, rd, rs => rd.isAY && rs.isAY

/-- PC is pushed and pulled at size `l` only (R245, R246). -/
def slotWf (sz : Size) : Slot → Bool
  | .pc => sz == .l
  | .reg _ => true

/-- The instructions that have an encoding. -/
def Instr.wf : Instr → Bool
  | .abs _ f => f.wf
  | .dec _ _ f => f.wf
  | .ext _ f => f.wf
  | .inc _ _ f => f.wf
  | .neg _ f => f.wf
  | .not _ f => f.wf
  | .adc sz f => f.wf sz
  | .add sz f => f.wf sz
  | .and sz f => f.wf sz
  | .bic sz f => f.wf sz
  | .bit _ f => f.wf
  | .eor sz f => f.wf sz
  | .ora sz f => f.wf sz
  | .sbc sz f => f.wf sz
  | .sub sz f => f.wf sz
  | .asl _ f => f.wf
  | .asr _ f => f.wf
  | .esl _ f => f.wf
  | .lsr _ f => f.wf
  | .rlb _ f => f.wf
  | .rol _ f => f.wf
  | .ror _ f => f.wf
  | .rrb _ f => f.wf
  | .bpl f => f.wf
  | .bmi f => f.wf
  | .bvc f => f.wf
  | .bvs f => f.wf
  | .bcc f => f.wf
  | .bcs f => f.wf
  | .bne f => f.wf
  | .beq f => f.wf
  | .bge f => f.wf
  | .blt f => f.wf
  | .ble f => f.wf
  | .bgt f => f.wf
  | .bls f => f.wf
  | .bhi f => f.wf
  | .bnv f => f.wf
  | .bra f => f.wf
  | .brk _ _ _ => true
  | .jmp _ => true
  | .jsr rs _ => stackWf rs
  | .nop _ => true
  | .rti rs => stackWf rs
  | .rts rs => stackWf rs
  | .cbt f _ => f.wf
  | .sbt f _ => f.wf
  | .tbt f _ => f.wf
  | .xbt f _ => f.wf
  | .ldr sz f => f.wf sz
  | .mov _ row rd rs => row.admits rd rs
  | .psh sz rd rs => slotWf sz rd && stackWf rs
  | .pul sz rd rs => slotWf sz rd && stackWf rs
  | .str _ rd m => moveMemWf rd m

end Sys2Proof
end

