-- ==== Sys2Proof/Decode.lean ====
section
/-! DEFINITION. The encoding (30_encoding): the field lists, the map of low bytes, the lengths, the
decoder, and after it the encoder. Each list and the map of low bytes stand here once; the decoder and
the encoder read the same tables. -/

namespace Sys2Proof

/-! Field lists (30_encoding section 4): entry `k` is what code `k` names, `none` a code printed "-". -/

/-- List AAAA, also RRRR of the shift pages (R74). -/
def listAAAA : List (Option Reg) :=
  [some .a0, some .a1, some .a2, some .a3, some .x0, some .x1, some .x2, some .x3,
   some .y0, some .y1, some .y2, some .y3, none, some .z, some .sp, none]

/-- List AA (R75). -/
def listAA : List (Option Reg) := [some .a0, some .a1, some .a2, some .a3]

/-- Lists BB and XX (R75). -/
def listBB : List (Option Reg) := [some .x0, some .x1, some .x2, some .x3]

/-- Lists CC and YY (R75). -/
def listCC : List (Option Reg) := [some .y0, some .y1, some .y2, some .y3]

/-- List SSS (R76). -/
def listSSS : List (Option Reg) := listAA ++ listBB

/-- List XXX (R77). -/
def listXXX : List (Option Index) :=
  [some (.reg .x0), some (.reg .x1), some (.reg .x2), some (.reg .x3),
   some (.reg .a0), some (.reg .a1), some (.reg .a2), some (.reg .a3)]

/-- List YYY (R78). -/
def listYYY : List (Option Index) :=
  [some (.reg .y0), some (.reg .y1), some (.reg .y2), some (.reg .y3),
   some .zero, some (.reg .z), some (.reg .sp), some .pc]

/-- List ZZZ (R79). -/
def listZZZ : List (Option Index) :=
  [some .zero, some (.reg .z), some (.reg .sp), some .pc,
   some (.reg .y0), some (.reg .y1), some (.reg .y2), some (.reg .y3)]

/-- List unary-AAA (R80). -/
def listUA : List (Option Reg) :=
  [some .x0, some .x1, some .x2, some .x3, some .a0, some .a1, some .a2, some .a3]

/-- List unary-BBB (R81). -/
def listUB : List (Option Reg) :=
  [some .y0, some .y1, some .y2, some .y3, none, some .z, some .sp, none]

/-- List Bcc-RRRR (R83). -/
def listBcc : List (Option Index) :=
  [some .pc, some (.reg .sp), some (.reg .z), none,
   some (.reg .y3), some (.reg .y2), some (.reg .y1), some (.reg .y0),
   some (.reg .x3), some (.reg .x2), some (.reg .x1), some (.reg .x0),
   some (.reg .a3), some (.reg .a2), some (.reg .a1), some (.reg .a0)]

/-- List CCCC (R84). -/
def listCCCC : List (Option Cond) :=
  [some .pl, some .mi, some .vc, some .vs, some .cc, some .cs, some .ne, some .eq,
   some .ge, some .lt, some .le, some .gt, some .ls, some .hi, some .nv, some .ra]

/-- List bit-RRRR (R85). -/
def listBitR : List (Option Reg) :=
  [some .p, some .z, some .sp, none, some .y0, some .y1, some .y2, some .y3,
   some .x0, some .x1, some .x2, some .x3, some .a0, some .a1, some .a2, some .a3]

/-- List bit-XXXX (R86). -/
def listBitX : List (Option Index) :=
  [some (.reg .a0), some (.reg .a1), some (.reg .a2), some (.reg .a3),
   some (.reg .x0), some (.reg .x1), some (.reg .x2), some (.reg .x3),
   some (.reg .y0), some (.reg .y1), some (.reg .y2), some (.reg .y3),
   some .zero, some (.reg .z), some (.reg .sp), none]

/-- List MOV-AAA (R88). -/
def listMovA : List (Option Reg) := listAA ++ listCC

/-- List MOV-XXX (R88). -/
def listMovX : List (Option Reg) := listBB ++ [some .p, some .z, some .sp, none]

/-- List MOV-YYY (R88). -/
def listMovY : List (Option Reg) := listCC ++ listAA

/-- List MOV-SSS (R88). -/
def listMovS : List (Option Reg) :=
  [some .sp, none, some .p, some .z, some .x2, some .x3, some .x0, some .x1]

/-- List stack-SSS (R89). -/
def listStack : List (Option Index) :=
  [some (.reg .sp), some .pc, some .zero, some (.reg .z),
   some (.reg .y2), some (.reg .y3), some (.reg .y0), some (.reg .y1)]

/-- The size field `DD` (R8, R100). -/
def listDD : List (Option Size) := [some .b, some .w, some .l, none]

/-- The four bit-number groups, by the low byte that selects them (R87). -/
inductive BitGroup
  | ga | gb | gc | gd
  deriving DecidableEq, Repr

/-- The bit numbers of a group, in index order (R87). -/
def BitGroup.list : BitGroup → List (Option (BitVec 5))
  | .ga => [some 0, some 7, some 8, some 15, some 16, some 23, some 24, some 31]
  | .gb => [some 2, some 5, some 10, some 13, some 18, some 21, some 26, some 29]
  | .gc => [some 3, some 4, some 11, some 12, some 19, some 20, some 27, some 28]
  | .gd => [some 6, some 1, some 14, some 9, some 22, some 17, some 30, some 25]

/-- What a code of a list names. -/
def nameOf {α : Type} (l : List (Option α)) (code : Nat) : Option α := (l[code]?).join

/-- The code that names `x` in a list. -/
def codeOf {α : Type} [DecidableEq α] (l : List (Option α)) (x : α) : Option Nat :=
  l.findIdx? (fun y => decide (y = some x))

/-! Rows of the encoding tables. -/

/-- The register group of a two-bit destination field (R75). -/
inductive Group
  | a | x | y
  deriving DecidableEq, Repr

/-- The list of a group: AA, BB or XX, CC or YY. -/
def Group.list : Group → List (Option Reg)
  | .a => listAA
  | .x => listBB
  | .y => listCC

/-- The group of a register. -/
def groupOf (r : Reg) : Option Group :=
  if r.isA then some .a else if r.isX then some .x else if r.isY then some .y else none

/-- The addressing form of a memory row and its index list (R93). -/
inductive AddrMode
  | abs16 (l : IxList)
  | abs32 (l : IxList)
  | pre
  | post
  deriving DecidableEq, Repr

/-- The three index lists. -/
def IxList.list : IxList → List (Option Index)
  | .xxx => listXXX
  | .yyy => listYYY
  | .zzz => listZZZ

/-- The index list of an addressing form. -/
def AddrMode.list : AddrMode → List (Option Index)
  | .abs16 l => l.list
  | .abs32 l => l.list
  | .pre => listXXX
  | .post => listYYY

/-- The extension words of an addressing form. -/
def AddrMode.extWords : AddrMode → Nat
  | .abs32 _ => 2
  | _ => 1

/-- The addressing form of a memory operand. -/
def MemOp.mode : MemOp → AddrMode
  | .abs16 l _ _ => .abs16 l
  | .abs32 l _ _ => .abs32 l
  | .pre _ _ => .pre
  | .post _ _ => .post

/-- The index of a memory operand. -/
def MemOp.index : MemOp → Index
  | .abs16 _ _ ri => ri
  | .abs32 _ _ ri => ri
  | .pre _ ri => ri
  | .post _ ri => ri

/-- A row of the table of a two-operand instruction, of BIT, LDR or STR. -/
inductive OpRow
  | reg (g : Group)
  | imm
  | mem (g : Group) (m : AddrMode)
  deriving DecidableEq, Repr

/-- The offset of each row of the two-operand instructions from their base (R73, R130). -/
def aluRows : List (Nat × OpRow) :=
  [(0x1c, .reg .a), (0x03, .reg .x), (0x13, .reg .y), (0x09, .imm),
   (0x15, .mem .a (.abs16 .xxx)), (0x05, .mem .a (.abs16 .zzz)),
   (0x1d, .mem .a (.abs32 .xxx)), (0x0f, .mem .x (.abs32 .xxx)), (0x1f, .mem .y (.abs32 .xxx)),
   (0x19, .mem .a (.abs32 .yyy)), (0x0b, .mem .x (.abs32 .yyy)), (0x1b, .mem .y (.abs32 .yyy)),
   (0x0d, .mem .a (.abs32 .zzz)), (0x01, .mem .a .pre), (0x11, .mem .a .post)]

/-- The low bytes of LDR and STR, those of STR with bit 5 cleared (R240); LDR's row 1 is apart. -/
def loadRows : List (Nat × OpRow) :=
  [(0xb5, .mem .a (.abs16 .xxx)), (0xb4, .mem .y (.abs16 .xxx)), (0xb6, .mem .x (.abs16 .yyy)),
   (0xa5, .mem .a (.abs16 .zzz)), (0xa4, .mem .y (.abs16 .zzz)), (0xa6, .mem .x (.abs16 .zzz)),
   (0xbd, .mem .a (.abs32 .xxx)), (0xaf, .mem .x (.abs32 .xxx)), (0xbc, .mem .y (.abs32 .xxx)),
   (0xb9, .mem .a (.abs32 .yyy)), (0xbe, .mem .x (.abs32 .yyy)),
   (0xae, .mem .x (.abs32 .zzz)), (0xac, .mem .y (.abs32 .zzz)), (0xad, .mem .a (.abs32 .zzz)),
   (0xa1, .mem .a .pre), (0xb1, .mem .a .post)]

/-- Two instructions that share their low bytes; bit 15 tells them apart (R72). -/
inductive AluPair
  | ora | andBic | eor | adcAdd | sbcSub
  deriving DecidableEq, Repr

/-- The base of a pair's low bytes (R73). -/
def AluPair.base : AluPair → Nat
  | .ora => 0x00
  | .andBic => 0x20
  | .eor => 0x40
  | .adcAdd => 0x60
  | .sbcSub => 0xe0

/-- The instructions of a pair for bit 15 = 0 and 1 (R72); ORA and EOR have no partner. -/
def AluPair.list : AluPair → List (Option AluOp)
  | .ora => [some .ora, none]
  | .andBic => [some .and, some .bic]
  | .eor => [some .eor, none]
  | .adcAdd => [some .adc, some .add]
  | .sbcSub => [some .sbc, some .sub]

/-- The pair of a two-operand instruction. -/
def AluOp.pair : AluOp → AluPair
  | .ora => .ora
  | .and => .andBic
  | .bic => .andBic
  | .eor => .eor
  | .adc => .adcAdd
  | .add => .adcAdd
  | .sbc => .sbcSub
  | .sub => .sbcSub

/-- The four pairs of shifts and rotates (R160). -/
inductive ShiftPair
  | aslEsl | rolRlb | lsrAsr | rorRrb
  deriving DecidableEq, Repr

/-- The base of a shift pair's low bytes (R160). -/
def ShiftPair.base : ShiftPair → Nat
  | .aslEsl => 0x00
  | .rolRlb => 0x20
  | .lsrAsr => 0x40
  | .rorRrb => 0x60

/-- The instructions of a shift pair for bit 15 = 0 and 1 (R72). -/
def ShiftPair.list : ShiftPair → List (Option ShiftOp)
  | .aslEsl => [some .asl, some .esl]
  | .rolRlb => [some .rol, some .rlb]
  | .lsrAsr => [some .lsr, some .asr]
  | .rorRrb => [some .ror, some .rrb]

/-- The pair of a shift or rotate. -/
def ShiftOp.pair : ShiftOp → ShiftPair
  | .asl => .aslEsl
  | .esl => .aslEsl
  | .rol => .rolRlb
  | .rlb => .rolRlb
  | .lsr => .lsrAsr
  | .asr => .lsrAsr
  | .ror => .rorRrb
  | .rrb => .rorRrb

/-- A row of the shift tables (R160); rows 2 and 3 share a low byte and differ by `m`. -/
inductive ShiftRow
  | one | count | mem (m : AddrMode)
  deriving DecidableEq, Repr

/-- The offset of each shift row from its base (R160). -/
def shiftRows : List (Nat × ShiftRow) :=
  [(0x0a, .one), (0x02, .count),
   (0x16, .mem (.abs16 .xxx)), (0x06, .mem (.abs16 .zzz)),
   (0x1e, .mem (.abs32 .xxx)), (0x0e, .mem (.abs32 .zzz))]

/-- The two register lists of the one-operand instructions (R80, R81). -/
inductive UnaryList
  | ua | ub
  deriving DecidableEq, Repr

/-- The registers of a unary list. -/
def UnaryList.list : UnaryList → List (Option Reg)
  | .ua => listUA
  | .ub => listUB

/-- A row of the one-operand tables (R110). -/
inductive UnaryRow
  | reg (l : UnaryList)
  | mem (m : AddrMode)
  deriving DecidableEq, Repr

/-- The low bytes of DEC, NEG, ABS, EXT, NOT (R110). -/
def unaryRows : List (Nat × UnaryRow) :=
  [(0xca, .reg .ua), (0x88, .reg .ub), (0xd6, .mem (.abs16 .xxx)), (0xc6, .mem (.abs16 .zzz)),
   (0xde, .mem (.abs32 .xxx)), (0xce, .mem (.abs32 .zzz))]

/-- The low bytes of INC (R110, C1). -/
def incRows : List (Nat × UnaryRow) :=
  [(0xe8, .reg .ua), (0xc8, .reg .ub), (0xf6, .mem (.abs16 .xxx)), (0xe6, .mem (.abs16 .zzz)),
   (0xfe, .mem (.abs32 .xxx)), (0xee, .mem (.abs32 .zzz))]

/-- The instructions of the unary low bytes with bit 15 = 1, by bits 14:13 (R72). -/
def unaryOps : List (Option UnaryOp) := [some .neg, some .abs, some .ext, some .not]

/-- The list that decodes `rd` in a row of PSH or PUL (R244). -/
inductive SlotList
  | aa | xx | yy | pp
  deriving DecidableEq, Repr

/-- The slots of a PSH or PUL row; list PP is R90. -/
def SlotList.list : SlotList → List (Option Slot)
  | .aa => [some (.reg .a0), some (.reg .a1), some (.reg .a2), some (.reg .a3)]
  | .xx => [some (.reg .x0), some (.reg .x1), some (.reg .x2), some (.reg .x3)]
  | .yy => [some (.reg .y0), some (.reg .y1), some (.reg .y2), some (.reg .y3)]
  | .pp => [some (.reg .p), some (.reg .z), some (.reg .sp), some .pc]

/-- The row of PSH or PUL that holds a slot. -/
def Slot.row : Slot → SlotList
  | .pc => .pp
  | .reg r => match groupOf r with
    | some .a => .aa
    | some .x => .xx
    | some .y => .yy
    | none => .pp

/-- The list of `rd` in a MOV row (R242). -/
def MovRow.rdList : MovRow → List (Option Reg)
  | .aa => listMovX
  | .a8 => listMovY
  | .ba => listMovX
  | .r8a => listMovA
  | .r9a => listMovS
  | .r98 => listMovA

/-- The list of `rs` in a MOV row (R242). -/
def MovRow.rsList : MovRow → List (Option Reg)
  | .aa => listMovA
  | .a8 => listMovA
  | .ba => listMovS
  | .r8a => listMovX
  | .r9a => listMovX
  | .r98 => listMovY

/-- The two pairs of bit instructions (R220). -/
inductive BitPair
  | clear | set
  deriving DecidableEq, Repr

/-- The instructions of a bit pair for bit 15 = 0 and 1 (R72, R220). -/
def BitPair.list : BitPair → List (Option BitOp)
  | .clear => [some .cbt, some .tbt]
  | .set => [some .sbt, some .xbt]

/-- The pair of a bit instruction. -/
def BitOp.pair : BitOp → BitPair
  | .cbt => .clear
  | .tbt => .clear
  | .sbt => .set
  | .xbt => .set

/-- What a low byte selects (R73). -/
inductive Shape
  | alu (p : AluPair) (row : OpRow)
  | test (row : OpRow)
  | ldrImm
  | ldr (row : OpRow)
  | str (row : OpRow)
  | unary (row : UnaryRow)
  | inc (row : UnaryRow)
  | shift (p : ShiftPair) (row : ShiftRow)
  | branch (ccc : Nat)
  | brk | jmpDirect | jmpIndirect | jsr | nop | rti | rts
  | bitReg (p : BitPair) (g : BitGroup)
  | bitMem (p : BitPair) (g : BitGroup)
  | mov (row : MovRow)
  | psh (row : SlotList)
  | pul (row : SlotList)
  deriving DecidableEq, Repr

/-- The low bytes of one pair of two-operand instructions (R73). -/
def aluMap (p : AluPair) : List (Nat × Shape) :=
  aluRows.map fun r => (p.base + r.1, .alu p r.2)

/-- The low bytes of one pair of shifts (R160). -/
def shiftMap (p : ShiftPair) : List (Nat × Shape) :=
  shiftRows.map fun r => (p.base + r.1, .shift p r.2)

/-- The low bytes of the bit instructions (R220). -/
def bitMap : List (Nat × Shape) :=
  [(0x18, .bitReg .clear .ga), (0x12, .bitMem .clear .ga), (0x38, .bitReg .set .ga), (0x32, .bitMem .set .ga),
   (0x58, .bitReg .clear .gb), (0x52, .bitMem .clear .gb), (0x78, .bitReg .set .gb), (0x72, .bitMem .set .gb),
   (0xd8, .bitReg .clear .gc), (0xd2, .bitMem .clear .gc), (0xf8, .bitReg .set .gc), (0xf2, .bitMem .set .gc),
   (0xb8, .bitReg .clear .gd), (0x92, .bitMem .clear .gd), (0x9f, .bitReg .set .gd), (0xb2, .bitMem .set .gd)]

/-- The low bytes of the control instructions (R190, R195, R200 to R204). -/
def controlMap : List (Nat × Shape) :=
  [(0x10, .branch 0), (0x30, .branch 1), (0x50, .branch 2), (0x70, .branch 3),
   (0x90, .branch 4), (0xb0, .branch 5), (0xd0, .branch 6), (0xf0, .branch 7),
   (0x00, .brk), (0x4c, .jmpDirect), (0x6c, .jmpIndirect), (0x20, .jsr), (0xea, .nop),
   (0x40, .rti), (0x60, .rts)]

/-- The low bytes of BIT (R138), of LDR's immediate row, of MOV (R242), PSH and PUL (R244). -/
def moveMap : List (Nat × Shape) :=
  [(0x34, .test (.reg .a)), (0x24, .test (.mem .a (.abs16 .zzz))),
   (0x2c, .test (.mem .a (.abs32 .xxx))), (0x3a, .test (.mem .a (.abs32 .zzz))),
   (0xa9, .ldrImm),
   (0xaa, .mov .aa), (0xa8, .mov .a8), (0xba, .mov .ba), (0x8a, .mov .r8a), (0x9a, .mov .r9a),
   (0x98, .mov .r98),
   (0x48, .psh .aa), (0x44, .psh .xx), (0x54, .psh .yy), (0x08, .psh .pp),
   (0x68, .pul .aa), (0x64, .pul .xx), (0x74, .pul .yy), (0x28, .pul .pp)]

/-- The map of low bytes (R73): every documented low byte once. -/
def opcodeMap : List (Nat × Shape) :=
  aluMap .ora ++ aluMap .andBic ++ aluMap .eor ++ aluMap .adcAdd ++ aluMap .sbcSub
    ++ shiftMap .aslEsl ++ shiftMap .rolRlb ++ shiftMap .lsrAsr ++ shiftMap .rorRrb
    ++ unaryRows.map (fun r => (r.1, .unary r.2)) ++ incRows.map (fun r => (r.1, .inc r.2))
    ++ loadRows.map (fun r => (r.1, .ldr r.2)) ++ loadRows.map (fun r => (r.1 - 0x20, .str r.2))
    ++ controlMap ++ bitMap ++ moveMap

/-- What a low byte selects; `none` for an undocumented one (R102). -/
def shapeOf (lo : Nat) : Option Shape := (opcodeMap.find? (fun r => r.1 == lo)).map (·.2)

/-- The low byte of a row; `none` where there is no such row. -/
def lowByteOf (sh : Shape) : Option Nat :=
  (opcodeMap.find? (fun r => decide (r.2 = sh))).map (·.1)

/-! Lengths (30_encoding R60, R61). -/

/-- Bits `hi:lo` of an instruction word (R10). -/
def field (w : Half) (hi lo : Nat) : Nat := w.toNat / 2 ^ lo % 2 ^ (hi + 1 - lo)

/-- The extension words that follow a first word of a given shape: a function of the first word
alone (R61). The words NOP skips are not fetched and not counted (R202). -/
def Shape.extWords (w : Half) : Shape → Nat
  | .alu _ (.reg _) => 0
  | .alu _ .imm => if field w 9 8 = 2 then 2 else 1
  | .alu _ (.mem _ m) => m.extWords
  | .test (.mem _ m) => m.extWords
  | .test _ => 0
  | .ldrImm => if field w 9 8 = 2 then 2 else 1
  | .ldr (.mem _ m) => m.extWords
  | .ldr _ => 0
  | .str (.mem _ m) => m.extWords
  | .str _ => 0
  | .unary (.reg _) => 0
  | .unary (.mem m) => m.extWords
  | .inc (.reg _) => 0
  | .inc (.mem m) => m.extWords
  | .shift _ .one => 0
  | .shift _ .count => 1
  | .shift _ (.mem m) => m.extWords
  | .branch _ => 1 + field w 14 14
  | .brk => 1
  | .jmpDirect => 2
  | .jmpIndirect => 2
  | .jsr => 2
  | .nop => 0
  | .rti => 0
  | .rts => 0
  | .bitReg _ _ => 0
  | .bitMem _ _ => 2
  | .mov _ => 0
  | .psh _ => 0
  | .pul _ => 0

/-- The words of an immediate (R91). -/
def Size.immWords : Size → Nat
  | .l => 2
  | _ => 1

/-- The words of a memory operand. -/
def MemOp.words (m : MemOp) : Nat := m.mode.extWords

/-- `len` of a one-operand instruction (R110). -/
def UnaryForm.words : UnaryForm → Nat
  | .reg _ => 1
  | .mem m => 1 + m.words

/-- `len` of a two-operand instruction (R130). -/
def AluForm.words (sz : Size) : AluForm → Nat
  | .reg _ _ => 1
  | .imm _ _ => 1 + sz.immWords
  | .mem _ m => 1 + m.words

/-- `len` of BIT (R138). -/
def TestForm.words : TestForm → Nat
  | .reg _ _ => 1
  | .mem _ m => 1 + m.words

/-- `len` of a shift or rotate (R160). -/
def ShiftForm.words : ShiftForm → Nat
  | .one _ => 1
  | .imm _ _ => 2
  | .reg _ _ => 2
  | .mem m _ => 1 + m.words

/-- `len` of a branch (R190). -/
def BranchForm.words (f : BranchForm) : Nat :=
  match f.offset with
  | .short _ => 2
  | .long _ => 3

/-- `len` of a bit instruction (R220). -/
def BitForm.words : BitForm → Nat
  | .reg _ => 1
  | .mem _ _ => 3

/-- `len` of LDR (R240). -/
def LoadForm.words (sz : Size) : LoadForm → Nat
  | .imm _ _ => 1 + sz.immWords
  | .mem _ m => 1 + m.words

/-- `len`, the words an instruction steps over (R16): for NOP the skipped words too (R202). -/
def Instr.words : Instr → Nat
  | .abs _ f => f.words
  | .dec _ _ f => f.words
  | .ext _ f => f.words
  | .inc _ _ f => f.words
  | .neg _ f => f.words
  | .not _ f => f.words
  | .adc sz f => f.words sz
  | .add sz f => f.words sz
  | .and sz f => f.words sz
  | .bic sz f => f.words sz
  | .bit _ f => f.words
  | .eor sz f => f.words sz
  | .ora sz f => f.words sz
  | .sbc sz f => f.words sz
  | .sub sz f => f.words sz
  | .asl _ f => f.words
  | .asr _ f => f.words
  | .esl _ f => f.words
  | .lsr _ f => f.words
  | .rlb _ f => f.words
  | .rol _ f => f.words
  | .ror _ f => f.words
  | .rrb _ f => f.words
  | .bpl f => f.words
  | .bmi f => f.words
  | .bvc f => f.words
  | .bvs f => f.words
  | .bcc f => f.words
  | .bcs f => f.words
  | .bne f => f.words
  | .beq f => f.words
  | .bge f => f.words
  | .blt f => f.words
  | .ble f => f.words
  | .bgt f => f.words
  | .bls f => f.words
  | .bhi f => f.words
  | .bnv f => f.words
  | .bra f => f.words
  | .brk _ _ _ => 2
  | .jmp _ => 3
  | .jsr _ _ => 3
  | .nop n => n.toNat + 1
  | .rti _ => 1
  | .rts _ => 1
  | .cbt f _ => f.words
  | .sbt f _ => f.words
  | .tbt f _ => f.words
  | .xbt f _ => f.words
  | .ldr sz f => f.words sz
  | .mov _ _ _ _ => 1
  | .psh _ _ _ => 1
  | .pul _ _ _ => 1
  | .str _ _ m => 1 + m.words

/-! The decoder. -/

/-- Why the decoder gives no instruction. -/
inductive Reject
  /-- No row, a code printed "-", `DD = 11`, or a fixed bit violated (R100 to R102, R118, R143, R172, R206,
  R226, R249). -/
  | reserved
  /-- An 8-bit immediate whose extension word has a nonzero upper byte (R91, D15). -/
  | immediate
  /-- The bytes end before the instruction does; fetch never brings this about. -/
  | truncated
  deriving DecidableEq, Repr

/-- A name that a list must give, else the word is reserved (R101). -/
def must {α : Type} : Option α → Except Reject α
  | some x => .ok x
  | none => .error .reserved

/-- A bit that must be as its row prints it, else the word is reserved (R102). -/
def demand (b : Bool) : Except Reject Unit := if b then .ok () else .error .reserved

/-- One extension word. -/
def takeHalf : List Half → Except Reject (Half × List Half)
  | [] => .error .truncated
  | h :: rest => .ok (h, rest)

/-- The value of a two-word operand from its words in stream order (R92). -/
def wordOfHalves (first second : Half) : Word :=
  match Params.wordOrder with
  | .lowFirst => pairHalves second first
  | .highFirst => pairHalves first second

/-- The words of a two-word operand in stream order (R92). -/
def halvesOfWord (v : Word) : List Half :=
  let lo : Half := v.setWidth 16
  let hi : Half := (v >>> 16).setWidth 16
  match Params.wordOrder with
  | .lowFirst => [lo, hi]
  | .highFirst => [hi, lo]

/-- A two-word operand (R92). -/
def takeWord : List Half → Except Reject (Word × List Half)
  | first :: second :: rest => .ok (wordOfHalves first second, rest)
  | _ => .error .truncated

/-- An immediate of size `s` (R91). -/
def takeImm (sz : Size) (ext : List Half) : Except Reject (Word × List Half) :=
  match sz with
  | .b => do
    let (h, rest) ← takeHalf ext
    if h.toNat / 256 = 0 then .ok (h.setWidth 32, rest) else .error .immediate
  | .w => do
    let (h, rest) ← takeHalf ext
    .ok (h.setWidth 32, rest)
  | .l => takeWord ext

/-- A memory operand, from its form, its index and its extension words (R93). -/
def takeMem (m : AddrMode) (ri : Index) (ext : List Half) : Except Reject (MemOp × List Half) :=
  match m with
  | .abs16 l => do
    let (a, rest) ← takeHalf ext
    .ok (.abs16 l a ri, rest)
  | .abs32 l => do
    let (a, rest) ← takeWord ext
    .ok (.abs32 l a ri, rest)
  | .pre => do
    let (a, rest) ← takeHalf ext
    .ok (.pre a ri, rest)
  | .post => do
    let (a, rest) ← takeHalf ext
    .ok (.post a ri, rest)

/-- The size field `DD`, bits 9:8 of Formats A, B, C and G (R100). -/
def sizeField (w : Half) : Except Reject Size := must (nameOf listDD (field w 9 8))

/-- A memory operand whose index is in bits 12:10 of the first word (Format A). -/
def decodeMem (w : Half) (m : AddrMode) (ext : List Half) : Except Reject (MemOp × List Half) := do
  let ri ← must (nameOf m.list (field w 12 10))
  takeMem m ri ext

/-- The `rd, #imm` row, Format B (R63). -/
def decodeImm (w : Half) (sz : Size) (ext : List Half) : Except Reject (Reg × Word × List Half) := do
  let rd ← must (nameOf listAAAA (field w 14 11))
  demand (field w 10 10 == 0)
  let (v, rest) ← takeImm sz ext
  .ok (rd, v, rest)

/-- A row of ADC, ADD, AND, BIC, EOR, ORA, SBC, SUB (R130). -/
def decodeAlu (w : Half) (p : AluPair) (row : OpRow) (ext : List Half) :
    Except Reject (Instr × List Half) := do
  let op ← must (nameOf p.list (field w 15 15))
  let sz ← sizeField w
  match row with
  | .reg g =>
    let rd ← must (nameOf g.list (field w 14 13))
    let rs ← must (nameOf listSSS (field w 12 10))
    .ok (.alu op sz (.reg rd rs), ext)
  | .imm =>
    let (rd, v, rest) ← decodeImm w sz ext
    .ok (.alu op sz (.imm rd v), rest)
  | .mem g m =>
    let rd ← must (nameOf g.list (field w 14 13))
    let (mo, rest) ← decodeMem w m ext
    .ok (.alu op sz (.mem rd mo), rest)

/-- A row of BIT (R138). -/
def decodeTest (w : Half) (row : OpRow) (ext : List Half) : Except Reject (Instr × List Half) := do
  demand (field w 15 15 == 0)
  let sz ← sizeField w
  match row with
  | .reg g =>
    let rd ← must (nameOf g.list (field w 14 13))
    let rs ← must (nameOf listSSS (field w 12 10))
    .ok (.bit sz (.reg rd rs), ext)
  | .imm => .error .reserved
  | .mem g m =>
    let rd ← must (nameOf g.list (field w 14 13))
    let (mo, rest) ← decodeMem w m ext
    .ok (.bit sz (.mem rd mo), rest)

/-- The register, the size and the memory operand of a row of LDR or STR (R240). -/
def decodeMove (w : Half) (row : OpRow) (ext : List Half) :
    Except Reject (Size × Reg × MemOp × List Half) := do
  demand (field w 15 15 == 0)
  let sz ← sizeField w
  match row with
  | .mem g m =>
    let rd ← must (nameOf g.list (field w 14 13))
    let (mo, rest) ← decodeMem w m ext
    .ok (sz, rd, mo, rest)
  | _ => .error .reserved

/-- The operand of a one-operand row (R110). -/
def decodeUnary (w : Half) (row : UnaryRow) (ext : List Half) :
    Except Reject (UnaryForm × List Half) :=
  match row with
  | .reg l => do
    let rd ← must (nameOf l.list (field w 12 10))
    .ok (.reg rd, ext)
  | .mem m => do
    let (mo, rest) ← decodeMem w m ext
    .ok (.mem mo, rest)

/-- The operand of a shift row (R160, R96). -/
def decodeShift (w : Half) (row : ShiftRow) (ext : List Half) :
    Except Reject (ShiftForm × List Half) :=
  match row with
  | .one => do
    demand (field w 14 14 == 0)
    let rd ← must (nameOf listAAAA (field w 13 10))
    .ok (.one rd, ext)
  | .count => do
    let rd ← must (nameOf listAAAA (field w 13 10))
    let (h, rest) ← takeHalf ext
    if field w 14 14 = 0 then
      .ok (.imm rd h, rest)
    else do
      demand (field h 15 4 == 0)
      let rs ← must (nameOf listAAAA (field h 3 0))
      .ok (.reg rd rs, rest)
  | .mem m => do
    let (mo, rest) ← decodeMem w m ext
    .ok (.mem mo (BitVec.ofNat 2 (field w 14 13)), rest)

/-- The operands of a branch, Format D (R65, R98). -/
def decodeBranch (w : Half) (ext : List Half) : Except Reject (BranchForm × List Half) := do
  let base ← must (nameOf listBcc (field w 11 8))
  let (offset, rest) ←
    if field w 14 14 = 0 then do
      let (h, rest) ← takeHalf ext
      .ok (BranchOffset.short h, rest)
    else do
      let (v, rest) ← takeWord ext
      .ok (BranchOffset.long v, rest)
  .ok (⟨offset, base, field w 13 13 == 1, field w 12 12 == 1⟩, rest)

/-- The stack pointer of JSR, RTI and RTS, Format K: bit 15, 14:13 and 9:8 are zero (R71, D33). -/
def decodeStack (w : Half) : Except Reject Index := do
  demand (field w 15 13 == 0)
  demand (field w 9 8 == 0)
  must (nameOf listStack (field w 12 10))

/-- PSH and PUL (R244); PC only at size `l` (R245, R246). -/
def decodeSlot (w : Half) (row : SlotList) : Except Reject (Size × Slot × Index) := do
  demand (field w 15 15 == 0)
  let sz ← sizeField w
  let rd ← must (nameOf row.list (field w 14 13))
  let rs ← must (nameOf listStack (field w 12 10))
  demand (slotWf sz rd)
  .ok (sz, rd, rs)

/-- The instruction of a first word whose low byte selects `sh`, and the words left over. -/
def decodeShape (w : Half) (sh : Shape) (ext : List Half) : Except Reject (Instr × List Half) :=
  match sh with
  | .alu p row => decodeAlu w p row ext
  | .test row => decodeTest w row ext
  | .ldrImm => do
    demand (field w 15 15 == 0)
    let sz ← sizeField w
    let (rd, v, rest) ← decodeImm w sz ext
    .ok (.ldr sz (.imm rd v), rest)
  | .ldr row => do
    let (sz, rd, mo, rest) ← decodeMove w row ext
    .ok (.ldr sz (.mem rd mo), rest)
  | .str row => do
    let (sz, rd, mo, rest) ← decodeMove w row ext
    .ok (.str sz rd mo, rest)
  | .unary row => do
    let sz ← sizeField w
    let (f, rest) ← decodeUnary w row ext
    if field w 15 15 = 0 then
      .ok (.dec sz (BitVec.ofNat 2 (field w 14 13)) f, rest)
    else do
      let op ← must (nameOf unaryOps (field w 14 13))
      .ok (.unary op sz f, rest)
  | .inc row => do
    demand (field w 15 15 == 0)
    let sz ← sizeField w
    let (f, rest) ← decodeUnary w row ext
    .ok (.inc sz (BitVec.ofNat 2 (field w 14 13)) f, rest)
  | .shift p row => do
    let op ← must (nameOf p.list (field w 15 15))
    let sz ← sizeField w
    let (f, rest) ← decodeShift w row ext
    .ok (.shift op sz f, rest)
  | .branch ccc => do
    let cond ← must (nameOf listCCCC (field w 15 15 * 8 + ccc))
    let (f, rest) ← decodeBranch w ext
    .ok (.branch cond f, rest)
  | .brk => do
    let (_, rest) ← takeHalf ext
    .ok (.brk (field w 15 15 == 1) (BitVec.ofNat 3 (field w 14 12)) (BitVec.ofNat 4 (field w 11 8)), rest)
  | .jmpDirect => do
    demand (field w 15 8 == 0)
    let (a, rest) ← takeWord ext
    .ok (.jmp (.direct a), rest)
  | .jmpIndirect => do
    demand (field w 15 8 == 0)
    let (a, rest) ← takeWord ext
    .ok (.jmp (.indirect a), rest)
  | .jsr => do
    let rs ← decodeStack w
    let (a, rest) ← takeWord ext
    .ok (.jsr rs a, rest)
  | .nop => .ok (.nop (BitVec.ofNat 8 (field w 15 8)), ext)
  | .rti => do
    let rs ← decodeStack w
    .ok (.rti rs, ext)
  | .rts => do
    let rs ← decodeStack w
    .ok (.rts rs, ext)
  | .bitReg p g => do
    let op ← must (nameOf p.list (field w 15 15))
    let b ← must (nameOf g.list (field w 14 12))
    let rd ← must (nameOf listBitR (field w 11 8))
    .ok (.bitop op (.reg rd) b, ext)
  | .bitMem p g => do
    let op ← must (nameOf p.list (field w 15 15))
    let b ← must (nameOf g.list (field w 14 12))
    let ri ← must (nameOf listBitX (field w 11 8))
    let (a, rest) ← takeWord ext
    .ok (.bitop op (.mem a ri) b, rest)
  | .mov row => do
    let sz ← sizeField w
    let rd ← must (nameOf row.rdList (field w 15 13))
    let rs ← must (nameOf row.rsList (field w 12 10))
    .ok (.mov sz row rd rs, ext)
  | .psh row => do
    let (sz, rd, rs) ← decodeSlot w row
    .ok (.psh sz rd rs, ext)
  | .pul row => do
    let (sz, rd, rs) ← decodeSlot w row
    .ok (.pul sz rd rs, ext)

/-- How many extension words follow a first word (R61); a word with an undocumented low byte is
reserved (R102). -/
def extWords (w : Half) : Except Reject Nat := do
  let sh ← must (shapeOf (field w 7 0))
  .ok (sh.extWords w)

/-- How many words after it an instruction steps over without fetching them: the `n` of NOP, whose words are part
of it (R99, 43_control R202). -/
def skippedWords (w : Half) : Nat := if field w 7 0 = 0xEA then field w 15 8 else 0

/-- The instruction at the head of a stream of words, and the words after it. -/
def decode : List Half → Except Reject (Instr × List Half)
  | [] => .error .truncated
  | w :: ext => do
    let sh ← must (shapeOf (field w 7 0))
    decodeShape w sh ext

/-- The words of a stream of bytes; each word has its bytes in memory order (R40). -/
def halvesOfBytes : List Byte → List Half
  | b :: c :: rest => (joinBytes [b, c]).setWidth 16 :: halvesOfBytes rest
  | _ => []

/-- The decoder on bytes in address order. -/
def decodeBytes (bs : List Byte) : Except Reject Instr :=
  (decode (halvesOfBytes bs)).map (·.1)

/-- The first `k` words of the bits `w`, the first word in the lowest bits. -/
def halvesOfBits : Nat → Nat → List Half
  | 0, _ => []
  | k + 1, w => BitVec.ofNat 16 w :: halvesOfBits k (w / 65536)

/-- The bytes of a list of words as memory holds them (R40). -/
def bytesOfHalves (hs : List Half) : List Byte :=
  hs.flatMap fun h => splitBytes 2 (h.setWidth 32)

/-- The words of an instruction given by its bits, bit 0 the lowest of the first word; the bits from
`nbits` up are zero, to the longest instruction that is fetched, three words. -/
def halvesOfTableWord (nbits w : Nat) : List Half := halvesOfBits 3 (w % 2 ^ nbits)

/-- The instruction the decoder reads from a row of the opcode table. -/
def decodeTableWord (nbits w : Nat) : Option Instr :=
  (decodeBytes (bytesOfHalves (halvesOfTableWord nbits w))).toOption

/-! The encoder. -/

/-- A first word from its bits 15, 14:13, 12:10, 9:8 and 7:0 (Formats A and K). -/
def formatA (t f2 f3 dd lo : Nat) : Half :=
  BitVec.ofNat 16 (t * 2 ^ 15 + f2 * 2 ^ 13 + f3 * 2 ^ 10 + dd * 2 ^ 8 + lo)

/-- A first word from its bits 15, 14:11, 9:8 and 7:0, bit 10 zero (Format B). -/
def formatB (t rd dd lo : Nat) : Half :=
  BitVec.ofNat 16 (t * 2 ^ 15 + rd * 2 ^ 11 + dd * 2 ^ 8 + lo)

/-- A first word from its bits 15, 14, 13:10, 9:8 and 7:0 (Format C). -/
def formatC (t m rd dd lo : Nat) : Half :=
  BitVec.ofNat 16 (t * 2 ^ 15 + m * 2 ^ 14 + rd * 2 ^ 10 + dd * 2 ^ 8 + lo)

/-- A first word from its bits 15, 14, 13, 12, 11:8 and 7:0 (Format D). -/
def formatD (c d ind l rs lo : Nat) : Half :=
  BitVec.ofNat 16 (c * 2 ^ 15 + d * 2 ^ 14 + ind * 2 ^ 13 + l * 2 ^ 12 + rs * 2 ^ 8 + lo)

/-- A first word from its bits 15, 14:12, 11:8 and 7:0 (Formats E and F). -/
def formatF (t b3 r4 lo : Nat) : Half :=
  BitVec.ofNat 16 (t * 2 ^ 15 + b3 * 2 ^ 12 + r4 * 2 ^ 8 + lo)

/-- A first word from its bits 15:13, 12:10, 9:8 and 7:0 (Format G). -/
def formatG (rd rs dd lo : Nat) : Half :=
  BitVec.ofNat 16 (rd * 2 ^ 13 + rs * 2 ^ 10 + dd * 2 ^ 8 + lo)

/-- The extension words of an immediate (R91). -/
def encodeImm (sz : Size) (v : Word) : List Half :=
  match sz with
  | .l => halvesOfWord v
  | _ => [v.setWidth 16]

/-- The extension words of a memory operand (R93). -/
def MemOp.ext : MemOp → List Half
  | .abs16 _ a _ => [a]
  | .abs32 _ a _ => halvesOfWord a
  | .pre a _ => [a]
  | .post a _ => [a]

/-- The code of the index of a memory operand in its list. -/
def MemOp.indexCode (m : MemOp) : Option Nat := codeOf m.mode.list m.index

/-- A Format A word for a register of a group, an index or source code, and a row. -/
def encodeA (t : Nat) (g : Group) (rd : Reg) (f3 : Nat) (sz : Size) (sh : Shape) : Option Half := do
  let f2 ← codeOf g.list rd
  let dd ← codeOf listDD sz
  let lo ← lowByteOf sh
  some (formatA t f2 f3 dd lo)

/-- ADC, ADD, AND, BIC, EOR, ORA, SBC, SUB (R130). -/
def encodeAlu (op : AluOp) (sz : Size) (f : AluForm) : Option (List Half) := do
  let t ← codeOf op.pair.list op
  match f with
  | .reg rd rs =>
    let g ← groupOf rd
    let f3 ← codeOf listSSS rs
    let w ← encodeA t g rd f3 sz (.alu op.pair (.reg g))
    some [w]
  | .imm rd v =>
    let r ← codeOf listAAAA rd
    let dd ← codeOf listDD sz
    let lo ← lowByteOf (.alu op.pair .imm)
    some (formatB t r dd lo :: encodeImm sz v)
  | .mem rd m =>
    let g ← groupOf rd
    let f3 ← m.indexCode
    let w ← encodeA t g rd f3 sz (.alu op.pair (.mem g m.mode))
    some (w :: m.ext)

/-- BIT (R138). -/
def encodeTest (sz : Size) : TestForm → Option (List Half)
  | .reg rd rs => do
    let g ← groupOf rd
    let f3 ← codeOf listSSS rs
    let w ← encodeA 0 g rd f3 sz (.test (.reg g))
    some [w]
  | .mem rd m => do
    let g ← groupOf rd
    let f3 ← m.indexCode
    let w ← encodeA 0 g rd f3 sz (.test (.mem g m.mode))
    some (w :: m.ext)

/-- The list that holds a register operand of the one-operand instructions (R80, R81). -/
def unaryListOf (r : Reg) : UnaryList := if r.isX || r.isA then .ua else .ub

/-- ABS, DEC, EXT, INC, NEG, NOT; `row` tells INC's low bytes from the others' (R110). -/
def encodeUnary (t f2 : Nat) (row : UnaryRow → Shape) (sz : Size) (f : UnaryForm) :
    Option (List Half) := do
  let dd ← codeOf listDD sz
  match f with
  | .reg rd =>
    let l := unaryListOf rd
    let f3 ← codeOf l.list rd
    let lo ← lowByteOf (row (.reg l))
    some [formatA t f2 f3 dd lo]
  | .mem m =>
    let f3 ← m.indexCode
    let lo ← lowByteOf (row (.mem m.mode))
    some (formatA t f2 f3 dd lo :: m.ext)

/-- Bits 15 and 14:13 of ABS, EXT, NEG, NOT (R72). -/
def encodeUnaryOp (op : UnaryOp) (sz : Size) (f : UnaryForm) : Option (List Half) := do
  let f2 ← codeOf unaryOps op
  encodeUnary 1 f2 .unary sz f

/-- The shifts and rotates (R160, R96). -/
def encodeShift (op : ShiftOp) (sz : Size) (f : ShiftForm) : Option (List Half) := do
  let t ← codeOf op.pair.list op
  let dd ← codeOf listDD sz
  match f with
  | .one rd =>
    let r ← codeOf listAAAA rd
    let lo ← lowByteOf (.shift op.pair .one)
    some [formatC t 0 r dd lo]
  | .imm rd count =>
    let r ← codeOf listAAAA rd
    let lo ← lowByteOf (.shift op.pair .count)
    some [formatC t 0 r dd lo, count]
  | .reg rd rs =>
    let r ← codeOf listAAAA rd
    let c ← codeOf listAAAA rs
    let lo ← lowByteOf (.shift op.pair .count)
    some [formatC t 1 r dd lo, BitVec.ofNat 16 c]
  | .mem m nn =>
    let f3 ← m.indexCode
    let lo ← lowByteOf (.shift op.pair (.mem m.mode))
    some (formatA t nn.toNat f3 dd lo :: m.ext)

/-- The branches (R65, R190). -/
def encodeBranch (c : Cond) (f : BranchForm) : Option (List Half) := do
  let cccc ← codeOf listCCCC c
  let rs ← codeOf listBcc f.base
  let lo ← lowByteOf (.branch (cccc % 8))
  let d := match f.offset with
    | .short _ => 0
    | .long _ => 1
  let ext := match f.offset with
    | .short h => [h]
    | .long v => halvesOfWord v
  some (formatD (cccc / 8) d f.indirect.toNat f.link.toNat rs lo :: ext)

/-- JSR, RTI, RTS (R71). -/
def encodeStack (sh : Shape) (rs : Index) (ext : List Half) : Option (List Half) := do
  let f3 ← codeOf listStack rs
  let lo ← lowByteOf sh
  some (formatA 0 0 f3 0 lo :: ext)

/-- The group that holds a bit number (R87). -/
def bitGroupOf (b : BitVec 5) : BitGroup :=
  if (codeOf BitGroup.ga.list b).isSome then .ga
  else if (codeOf BitGroup.gb.list b).isSome then .gb
  else if (codeOf BitGroup.gc.list b).isSome then .gc
  else .gd

/-- CBT, SBT, TBT, XBT (R220). -/
def encodeBit (op : BitOp) (f : BitForm) (b : BitVec 5) : Option (List Half) := do
  let t ← codeOf op.pair.list op
  let g := bitGroupOf b
  let b3 ← codeOf g.list b
  match f with
  | .reg rd =>
    let r ← codeOf listBitR rd
    let lo ← lowByteOf (.bitReg op.pair g)
    some [formatF t b3 r lo]
  | .mem a ri =>
    let r ← codeOf listBitX ri
    let lo ← lowByteOf (.bitMem op.pair g)
    some (formatF t b3 r lo :: halvesOfWord a)

/-- LDR (R240). -/
def encodeLoad (sz : Size) : LoadForm → Option (List Half)
  | .imm rd v => do
    let r ← codeOf listAAAA rd
    let dd ← codeOf listDD sz
    let lo ← lowByteOf .ldrImm
    some (formatB 0 r dd lo :: encodeImm sz v)
  | .mem rd m => do
    let g ← groupOf rd
    let f3 ← m.indexCode
    let w ← encodeA 0 g rd f3 sz (.ldr (.mem g m.mode))
    some (w :: m.ext)

/-- PSH and PUL (R244). -/
def encodeSlot (row : SlotList → Shape) (sz : Size) (rd : Slot) (rs : Index) : Option (List Half) := do
  let f2 ← codeOf rd.row.list rd
  let f3 ← codeOf listStack rs
  let dd ← codeOf listDD sz
  let lo ← lowByteOf (row rd.row)
  some [formatA 0 f2 f3 dd lo]

/-- The words of a well-formed instruction, in stream order. The second word of BRK, whose content
is not used, is written as 0 (R195); the words NOP skips are no part of its encoding (R202). -/
def encode : Instr → Option (List Half)
  | .abs sz f => encodeUnaryOp .abs sz f
  | .dec sz nn f => encodeUnary 0 nn.toNat .unary sz f
  | .ext sz f => encodeUnaryOp .ext sz f
  | .inc sz nn f => encodeUnary 0 nn.toNat .inc sz f
  | .neg sz f => encodeUnaryOp .neg sz f
  | .not sz f => encodeUnaryOp .not sz f
  | .adc sz f => encodeAlu .adc sz f
  | .add sz f => encodeAlu .add sz f
  | .and sz f => encodeAlu .and sz f
  | .bic sz f => encodeAlu .bic sz f
  | .bit sz f => encodeTest sz f
  | .eor sz f => encodeAlu .eor sz f
  | .ora sz f => encodeAlu .ora sz f
  | .sbc sz f => encodeAlu .sbc sz f
  | .sub sz f => encodeAlu .sub sz f
  | .asl sz f => encodeShift .asl sz f
  | .asr sz f => encodeShift .asr sz f
  | .esl sz f => encodeShift .esl sz f
  | .lsr sz f => encodeShift .lsr sz f
  | .rlb sz f => encodeShift .rlb sz f
  | .rol sz f => encodeShift .rol sz f
  | .ror sz f => encodeShift .ror sz f
  | .rrb sz f => encodeShift .rrb sz f
  | .bpl f => encodeBranch .pl f
  | .bmi f => encodeBranch .mi f
  | .bvc f => encodeBranch .vc f
  | .bvs f => encodeBranch .vs f
  | .bcc f => encodeBranch .cc f
  | .bcs f => encodeBranch .cs f
  | .bne f => encodeBranch .ne f
  | .beq f => encodeBranch .eq f
  | .bge f => encodeBranch .ge f
  | .blt f => encodeBranch .lt f
  | .ble f => encodeBranch .le f
  | .bgt f => encodeBranch .gt f
  | .bls f => encodeBranch .ls f
  | .bhi f => encodeBranch .hi f
  | .bnv f => encodeBranch .nv f
  | .bra f => encodeBranch .ra f
  | .brk wait irq v => (lowByteOf .brk).map fun lo => [formatF wait.toNat irq.toNat v.toNat lo, 0]
  | .jmp (.direct a) => (lowByteOf .jmpDirect).map fun lo => BitVec.ofNat 16 lo :: halvesOfWord a
  | .jmp (.indirect a) => (lowByteOf .jmpIndirect).map fun lo => BitVec.ofNat 16 lo :: halvesOfWord a
  | .jsr rs a => encodeStack .jsr rs (halvesOfWord a)
  | .nop n => (lowByteOf .nop).map fun lo => [BitVec.ofNat 16 (n.toNat * 2 ^ 8 + lo)]
  | .rti rs => encodeStack .rti rs []
  | .rts rs => encodeStack .rts rs []
  | .cbt f b => encodeBit .cbt f b
  | .sbt f b => encodeBit .sbt f b
  | .tbt f b => encodeBit .tbt f b
  | .xbt f b => encodeBit .xbt f b
  | .ldr sz f => encodeLoad sz f
  | .mov sz row rd rs => do
    let d ← codeOf row.rdList rd
    let r ← codeOf row.rsList rs
    let dd ← codeOf listDD sz
    let lo ← lowByteOf (.mov row)
    some [formatG d r dd lo]
  | .psh sz rd rs => encodeSlot .psh sz rd rs
  | .pul sz rd rs => encodeSlot .pul sz rd rs
  | .str sz rd m => do
    let g ← groupOf rd
    let f3 ← m.indexCode
    let w ← encodeA 0 g rd f3 sz (.str (.mem g m.mode))
    some (w :: m.ext)

end Sys2Proof
end

