-- ==== Sys2Proof/Machine/State.lean ====
section
/-! DEFINITION. The state of the machine, plain data, and the state after reset (10_state, 70_reset). -/

namespace Sys2Proof.Machine

/-- The bytes that differ from what an unlisted one reads as (`Memory.blank`), at strictly rising addresses
(10_state R34; log 11). With `AU` = 16 the cell at `a` is the bytes at `2*a` and `2*a + 1` (log 1). -/
abbrev Memory := List Host.Cell

/-- `count` addresses from `first` on: a piece of the launch memory or of the program text (20_memory
R47, R53). -/
structure Region where
  first : Nat
  count : Nat
  deriving DecidableEq, Repr

/-- The registers other than PC (10_state R20). The flags are bits of `p` (R29). -/
structure Regs where
  a0 : Word
  a1 : Word
  a2 : Word
  a3 : Word
  x0 : Word
  x1 : Word
  x2 : Word
  x3 : Word
  y0 : Word
  y1 : Word
  y2 : Word
  y3 : Word
  z : Word
  sp : Word
  p : Word
  deriving DecidableEq, Repr

/-- Which of the open steps the launch supplies; the spec's value of each is none (00_scope R9). -/
structure Supplied where
  /-- A value of `esl_step` (00_scope R9, 42_shift R166, U8; log 6). -/
  esl : Bool
  /-- A value of `rlb_step` (42_shift R168; log 6). -/
  rlb : Bool
  /-- A value of `rrb_step` (42_shift R171; log 6). -/
  rrb : Bool
  deriving DecidableEq, Repr

structure State where
  /-- A0 to A3, X0 to X3, Y0 to Y3, Z, SP, P (10_state R20). -/
  regs : Regs
  /-- The address of the next instruction (10_state R25). -/
  pc : Addr
  /-- The contents of memory (10_state R34). -/
  mem : Memory
  /-- The addresses that exist: the launch memory (20_memory R47). -/
  mapped : List Region
  /-- The program text, which no store may touch (20_memory R53). -/
  text : List Region
  /-- `HALT_PC`, where the launch names one (70_reset R304). -/
  haltPc : Option Addr
  /-- Which of the open steps the launch supplies (00_scope R9, 42_shift R166, R168, R171; log 6). -/
  supplied : Supplied
  /-- The MODEL's own: how many free values have been drawn (logs 4, 5, 21). -/
  draws : Nat
  deriving DecidableEq, Repr

/-- The one way the machine stops that is no refusal. -/
inductive Fault
  /-- Raised by `step` when pc is HALT_PC: the end of the run, with the state as it stands (70_reset
  R304). Safe: the spec says that nothing is fetched there. -/
  | halted
  deriving DecidableEq, Repr

/-- Why the machine gives a situation no meaning (00_scope R17, 60_exceptions R271). A refusal has no
effect (R277). Each is safe: it makes claims about what follows unprovable. -/
inductive Refusal
  /-- Raised by an arm of `exec` for an instruction that has no meaning yet. -/
  | notModelled (mnemonic : String)
  /-- Raised by the fetch for a word that is no instruction (30_encoding R100 to R102, 45_move R245). -/
  | reservedEncoding
  /-- Raised by the fetch for an 8-bit immediate whose word has a nonzero upper byte (30_encoding R91). -/
  | immediate
  /-- Raised by the fetch if an instruction's words ran out; the fetch reads all of them, so no step
  ends so. -/
  | truncated
  /-- Raised by a register shift whose count is outside `1 .. s-1` (42_shift R161, D16). -/
  | shiftCount
  /-- Raised by ESL where the launch supplies no `esl_step` (42_shift R166, D30; log 6). -/
  | eslNotSpecified
  /-- Raised by RLB where the launch supplies no `rlb_step` (42_shift R168, D30; log 6). -/
  | rlbNotSpecified
  /-- Raised by RRB where the launch supplies no `rrb_step` (42_shift R171, D30; log 6). -/
  | rrbNotSpecified
  /-- Raised by BRK with `W` = 1 (43_control R195, 60_exceptions R286; log 17). -/
  | brkWait
  /-- Raised by PSH, PUL, JSR, RTI, RTS whose stack pointer is PC or 0 (30_encoding R89, D24). -/
  | stackPointer
  /-- Raised by a data access that is not naturally aligned (20_memory R42). -/
  | misaligned
  /-- Raised by a fetch from an odd pc, or of an instruction that straddles the top of memory (20_memory R43,
  10_state R27, D11). -/
  | misalignedFetch
  /-- Raised by an access with a byte outside the launch memory (20_memory R47). -/
  | unmapped
  /-- Raised by a store with a byte in the program text (20_memory R53). -/
  | writeToText
  deriving DecidableEq, Repr

/-- The registers after reset: the spec gives no value (10_state R36, 70_reset R301); zero, and for SP
the end of the stack area of R302's example (log 9, DESIGN CHOICE, unsafe). -/
def Regs.reset : Regs :=
  { a0 := 0, a1 := 0, a2 := 0, a3 := 0, x0 := 0, x1 := 0, x2 := 0, x3 := 0
    y0 := 0, y1 := 0, y2 := 0, y3 := 0, z := 0, sp := 0x00000DFF, p := 0 }

/-- The machine right after reset. The spec documents no reset (70_reset R300): pc stands for RESET_PC
(log 10), the whole address space exists (log 11), no text range and no HALT_PC is named (log 12), and
no open step is supplied (R9, D30; log 6). -/
def State.reset : State :=
  { regs := Regs.reset
    pc := 0x00001000
    mem := []
    mapped := [⟨0, 4294967296⟩]
    text := []
    haltPc := none
    supplied := ⟨false, false, false⟩
    draws := 0 }

end Sys2Proof.Machine
end

