-- ==== Sys2Proof/Machine/Ops.lean ====
section
/-! DEFINITION. The named operations over registers, memory and stacks (00_scope R12 to R15, 20_memory),
and the trap with its return (60_exceptions R272, R278). An operation that a rule refuses answers
`.error`; the state it was given is then dropped, so a refused instruction has no effect (R277). -/

namespace Sys2Proof.Machine

/-! Registers. -/

/-- The value held in a register. -/
def Regs.get (rs : Regs) : Reg → Word
  | .a0 => rs.a0
  | .a1 => rs.a1
  | .a2 => rs.a2
  | .a3 => rs.a3
  | .x0 => rs.x0
  | .x1 => rs.x1
  | .x2 => rs.x2
  | .x3 => rs.x3
  | .y0 => rs.y0
  | .y1 => rs.y1
  | .y2 => rs.y2
  | .y3 => rs.y3
  | .z => rs.z
  | .sp => rs.sp
  | .p => rs.p

/-- The registers with one of them replaced. -/
def Regs.set (rs : Regs) (r : Reg) (v : Word) : Regs :=
  match r with
  | .a0 => { rs with a0 := v }
  | .a1 => { rs with a1 := v }
  | .a2 => { rs with a2 := v }
  | .a3 => { rs with a3 := v }
  | .x0 => { rs with x0 := v }
  | .x1 => { rs with x1 := v }
  | .x2 => { rs with x2 := v }
  | .x3 => { rs with x3 := v }
  | .y0 => { rs with y0 := v }
  | .y1 => { rs with y1 := v }
  | .y2 => { rs with y2 := v }
  | .y3 => { rs with y3 := v }
  | .z => { rs with z := v }
  | .sp => { rs with sp := v }
  | .p => { rs with p := v }

/-- `x[r]` (R12). -/
def State.reg (s : State) (r : Reg) : Word := s.regs.get r

/-- `x[r] <- v` (R12). -/
def State.setReg (s : State) (r : Reg) (v : Word) : State := { s with regs := s.regs.set r v }

/-- `pc <- t` (R12). -/
def State.setPc (s : State) (t : Addr) : State := { s with pc := t }

/-- Count one free value as drawn. -/
def State.draw (s : State) : State := { s with draws := s.draws + 1 }

/-- `rdS(r, s)` (R12). -/
def State.readReg (s : State) (r : Reg) (sz : Size) : Word := trunc sz (s.reg r)

/-- A write of size 8 or 16: bits `31:s` by `NARROW_WRITE`, for `any` a fresh free value (10_state R23;
log 4). -/
def State.writeNarrow (s : State) (r : Reg) (sz : Size) (v : Word) : State :=
  match Params.narrowWrite with
  | .any => (s.setReg r (merge sz (Config.freeWord s.draws) v)).draw
  | .preserve => s.setReg r (merge sz (s.reg r) v)
  | .zero => s.setReg r (trunc sz v)

/-- `wrS(r, s, v)` (R12). -/
def State.writeReg (s : State) (r : Reg) (sz : Size) (v : Word) : State :=
  match sz with
  | .l => s.setReg r v
  | .b => s.writeNarrow r .b v
  | .w => s.writeNarrow r .w v

/-- `pc + len*WS` (R16). -/
def State.nextPc (s : State) (len : Nat) : Addr := s.pc + BitVec.ofNat 32 (len * Params.ws)

/-! Memory. -/

/-- What an address that is not listed reads as (log 11, DESIGN CHOICE, unsafe). -/
def Memory.blank : Byte := 0

/-- The byte at an address. -/
def Memory.read : Memory → Nat → Byte
  | [], _ => Memory.blank
  | (k, v) :: rest, a => if k = a then v else Memory.read rest a

/-- Put a byte in front of a memory whose addresses are higher, unless it is blank. -/
def Memory.cons (a : Nat) (v : Byte) (m : Memory) : Memory :=
  if v = Memory.blank then m else (a, v) :: m

/-- Store a byte, keeping the canonical form. -/
def Memory.write : Memory → Nat → Byte → Memory
  | [], a, v => Memory.cons a v []
  | (k, w) :: rest, a, v =>
    if a < k then Memory.cons a v ((k, w) :: rest)
    else if a = k then Memory.cons a v rest
    else (k, w) :: Memory.write rest a v

/-- The number of bytes of memory: 2^32, or the two of each of 2^32 cells (R6, R7). -/
def Memory.limit : Nat :=
  match Params.au with
  | .byte => 2 ^ 32
  | .half => 2 ^ 33

/-- Every address is above `lo` and below the limit, they rise strictly, and no byte is blank. -/
def Memory.wfFrom : Nat → Memory → Bool
  | _, [] => true
  | lo, (k, v) :: rest => decide (lo ≤ k) && decide (k < Memory.limit) && decide (v ≠ Memory.blank)
      && Memory.wfFrom (k + 1) rest

/-- The canonical form of a memory. -/
def Memory.wf (m : Memory) : Bool := Memory.wfFrom 0 m

/-- The bytes at `a, a+1, ...` (mod 2^32), lowest address first. -/
def Memory.readBytes (m : Memory) (a : Addr) : Nat → List Byte
  | 0 => []
  | n + 1 => m.read a.toNat :: Memory.readBytes m (a + 1) n

/-- Store bytes at `a, a+1, ...` (mod 2^32). -/
def Memory.writeBytes (m : Memory) (a : Addr) : List Byte → Memory
  | [] => m
  | b :: bs => Memory.writeBytes (m.write a.toNat b) (a + 1) bs

/-- The 16-bit cell at an address, with `AU` = 16 (D1; log 1). -/
def Memory.readCell (m : Memory) (a : Addr) : Half := m.read (2 * a.toNat + 1) ++ m.read (2 * a.toNat)

/-- Store a 16-bit cell. -/
def Memory.writeCell (m : Memory) (a : Addr) (h : Half) : Memory :=
  (m.write (2 * a.toNat) (h.setWidth 8)).write (2 * a.toNat + 1) ((h >>> 8).setWidth 8)

/-- The value of an access, with `AU` = 16: the low half of a cell, a cell, or two in the order `ENDIAN` says
(D1; which half is log 1, DESIGN CHOICE). -/
def Memory.readUnits (m : Memory) (a : Addr) : Size → Word
  | .b => (m.read (2 * a.toNat)).setWidth 32
  | .w => (m.readCell a).setWidth 32
  | .l =>
    match Params.endian with
    | .little => pairHalves (m.readCell (a + 1)) (m.readCell a)
    | .big => pairHalves (m.readCell a) (m.readCell (a + 1))

/-- Store a value, with `AU` = 16; an 8-bit store keeps the other half of its cell. -/
def Memory.writeUnits (m : Memory) (a : Addr) (sz : Size) (v : Word) : Memory :=
  let lo : Half := v.setWidth 16
  let hi : Half := (v >>> 16).setWidth 16
  match sz with
  | .b => m.write (2 * a.toNat) (v.setWidth 8)
  | .w => m.writeCell a lo
  | .l =>
    match Params.endian with
    | .little => (m.writeCell a lo).writeCell (a + 1) hi
    | .big => (m.writeCell a hi).writeCell (a + 1) lo

/-- Whether an address is in a region. -/
def Region.has (r : Region) (a : Nat) : Bool := decide (r.first ≤ a) && decide (a < r.first + r.count)

/-- Whether an address is in one of several regions. -/
def inRegions (rs : List Region) (a : Addr) : Bool := rs.any fun r => r.has a.toNat

/-- Whether all `n` addresses from `a` on are in the regions. -/
def allIn (rs : List Region) (a : Addr) : Nat → Bool
  | 0 => true
  | n + 1 => inRegions rs a && allIn rs (a + 1) n

/-- Whether one of the `n` addresses from `a` on is in the regions. -/
def anyIn (rs : List Region) (a : Addr) : Nat → Bool
  | 0 => false
  | n + 1 => inRegions rs a || anyIn rs (a + 1) n

/-- The byte of memory at an address, with `AU` = 8. -/
def State.byte (s : State) (a : Addr) : Byte := s.mem.read a.toNat

/-- Natural alignment (R42). -/
def aligned (a : Addr) (sz : Size) : Bool := a.toNat % sz.units == 0

/-- The checks an access makes: alignment by `MISALIGNED` (R42), then the launch memory (R47). -/
def State.access (s : State) (a : Addr) (sz : Size) : Except Refusal Unit :=
  if !aligned a sz && Params.misaligned == .refuse then .error .misaligned
  else if allIn s.mapped a sz.units then .ok ()
  else .error .unmapped

/-- The value of an access (R40). -/
def State.peek (s : State) (a : Addr) (sz : Size) : Word :=
  match Params.au with
  | .byte => joinBytes (s.mem.readBytes a sz.bytes)
  | .half => s.mem.readUnits a sz

/-- Memory with the value of an access stored (R40). -/
def Memory.poke (m : Memory) (a : Addr) (sz : Size) (v : Word) : Memory :=
  match Params.au with
  | .byte => m.writeBytes a (splitBytes sz.bytes v)
  | .half => m.writeUnits a sz v

/-- The state with the value of an access stored. -/
def State.poke (s : State) (a : Addr) (sz : Size) (v : Word) : State := { s with mem := s.mem.poke a sz v }

/-- `MemRead(a, n)` (R14). -/
def State.load (s : State) (a : Addr) (sz : Size) : Except Refusal Word := do
  s.access a sz
  .ok (s.peek a sz)

/-- `MemWrite(a, n, v)` (R14); a store into the text is refused (R53). -/
def State.store (s : State) (a : Addr) (sz : Size) (v : Word) : Except Refusal State := do
  s.access a sz
  if anyIn s.text a sz.units then .error .writeToText else .ok (s.poke a sz v)

/-! Stacks. -/

/-- The register a stack pointer operand names; PC and 0 are refused (30_encoding R89, D24). -/
def stackReg : Index → Except Refusal Reg
  | .reg r => .ok r
  | .pc => .error .stackPointer
  | .zero => .error .stackPointer

/-- Where a push of `n` bytes stores: `t - n + 1` (R44). -/
def pushAddr (t : Word) (sz : Size) : Addr := t - BitVec.ofNat 32 sz.units + 1

/-- `Push(r, n, v)` (R44). -/
def State.push (s : State) (r : Reg) (sz : Size) (v : Word) : Except Refusal State := do
  let t := s.reg r
  let s ← s.store (pushAddr t sz) sz v
  .ok (s.setReg r (t - BitVec.ofNat 32 sz.units))

/-- `Pull(r, n)`: the value and the state with the pointer raised (R45). -/
def State.pull (s : State) (r : Reg) (sz : Size) : Except Refusal (Word × State) := do
  let t := s.reg r
  let v ← s.load (t + 1) sz
  .ok (v, s.setReg r (t + BitVec.ofNat 32 sz.units))

/-! The trap and the return from it. -/

/-- The address of an entry of the vector table, `0xFFE - 2*v` (20_memory R55, 60_exceptions R275). -/
def vectorAddr (v : BitVec 4) : Addr := 0xFFE - 2 * v.setWidth 32

/-- `Trap(v)`: push the return address, push P, load pc from the vector table (60_exceptions R272). P
itself is unchanged. -/
def State.trap (s : State) (v : BitVec 4) (next : Addr) : Except Refusal State := do
  let s ← s.push .sp .l next
  let s ← s.push .sp Params.pStackSize (s.readReg .p Params.pStackSize)
  let target ← s.load (vectorAddr v) Params.vecEntrySize
  .ok (s.setPc target)

/-- The return from a trap: pull P, then pc (60_exceptions R278, 43_control R203). -/
def State.trapReturn (s : State) (r : Reg) : Except Refusal State := do
  let (flags, s) ← s.pull r Params.pStackSize
  let s := s.writeReg .p Params.pStackSize flags
  let (target, s) ← s.pull r .l
  .ok (s.setPc target)

/-! Outcomes. -/

/-- What a step answers with. -/
abbrev Result := Host.Outcome State Fault Refusal

/-- A computation that may refuse, as an outcome (R17). -/
def outcome : Except Refusal State → Result
  | .ok s => .next s
  | .error r => .refused r

end Sys2Proof.Machine
end

