-- ==== Sys2Proof/Machine/Flags.lean ====
section
/-! DEFINITION. The flags of P, the flag functions of addition and subtraction, the branch conditions,
and the one-bit steps of the shifts (00_scope R13, 10_state R28, R29, 41_alu R132, R133,
30_encoding R84, 42_shift R162). -/

namespace Sys2Proof.Machine

/-- The flag of P at a bit of `P_LAYOUT` (10_state R29). -/
def State.flag (s : State) (bit : Nat) : Bool := (s.reg .p).getLsbD bit

/-- One flag written; every other bit of P stays (10_state R29). -/
def State.setFlag (s : State) (bit : Nat) (b : Bool) : State := s.setReg .p (setBit (s.reg .p) bit b)

/-- `setNZ(v, s)` (R13; G1, log 25). -/
def State.setNZ (s : State) (v : Word) (sz : Size) : State :=
  (s.setFlag Params.flagN (signBit sz v)).setFlag Params.flagZ (trunc sz v == 0)

/-- C and V written. -/
def State.setCV (s : State) (c v : Bool) : State :=
  (s.setFlag Params.flagC c).setFlag Params.flagV v

/-- The value of an addition, its carry and its signed overflow. -/
structure AddResult where
  r : Word
  c : Bool
  v : Bool
  deriving DecidableEq, Repr

/-- `AddFlags(a, b, cin, s)` on `s`-bit operands (41_alu R132). -/
def addFlags (sz : Size) (a b : Word) (cin : Bool) : AddResult :=
  let full := a.toNat + b.toNat + cin.toNat
  let r := BitVec.ofNat 32 (full % 2 ^ sz.bits)
  { r := r
    c := full / 2 ^ sz.bits != 0
    v := signBit sz a == signBit sz b && signBit sz r != signBit sz a }

/-- `SubFlags(a, b, cin, s)`: `AddFlags` with the `s`-bit complement of `b` (41_alu R133). -/
def subFlags (sz : Size) (a b : Word) (cin : Bool) : AddResult := addFlags sz a (trunc sz (~~~ b)) cin

/-- A branch condition on N, Z, C and V, as the source writes it (30_encoding R84, 43_control R191). -/
def condHolds (cond : Cond) (n z c v : Bool) : Bool :=
  match cond with
  | .pl => !n
  | .mi => n
  | .vc => !v
  | .vs => v
  | .cc => !c
  | .cs => c
  | .ne => !z
  | .eq => z
  | .ge => (n && v) || (!n && !v)
  | .lt => (n && !v) || (!n && v)
  | .le => z || ((n && !v) || (!n && v))
  | .gt => !z && ((n && v) || (!n && !v))
  | .ls => c || z
  | .hi => !c && !z
  | .nv => false
  | .ra => true

/-- Whether a condition holds of the flags of a state (43_control R191). -/
def State.cond (s : State) (cond : Cond) : Bool :=
  condHolds cond (s.flag Params.flagN) (s.flag Params.flagZ) (s.flag Params.flagC) (s.flag Params.flagV)

/-! The one-bit steps on an `s`-bit value and the carry (42_shift R162; the steps are general
knowledge, G4, log 8). -/

/-- `asl_step`. -/
def aslStep : OpenStep := fun sz v _ => (trunc sz (v <<< 1), signBit sz v)

/-- `lsr_step`. -/
def lsrStep : OpenStep := fun _ v _ => (v >>> 1, v.getLsbD 0)

/-- `asr_step`. -/
def asrStep : OpenStep := fun sz v _ => (setBit (v >>> 1) (sz.bits - 1) (signBit sz v), v.getLsbD 0)

/-- `rol_step`. -/
def rolStep : OpenStep := fun sz v c => (setBit (trunc sz (v <<< 1)) 0 c, signBit sz v)

/-- `ror_step`. -/
def rorStep : OpenStep := fun sz v c => (setBit (v >>> 1) (sz.bits - 1) c, v.getLsbD 0)

/-- `k` repetitions of a step, the value kept to `s` bits (42_shift R162). -/
def repeatStep (step : OpenStep) (sz : Size) : Nat → Word × Bool → Word × Bool
  | 0, vc => vc
  | k + 1, vc =>
    let next := step sz vc.1 vc.2
    repeatStep step sz k (trunc sz next.1, next.2)

end Sys2Proof.Machine
end

