-- ==== Sys2Proof/Machine/Operands.lean ====
section
/-! DEFINITION. The operands of the instructions: index and base values, effective addresses, second
operands, shift counts, branch offsets (30_encoding R91 to R98). -/

namespace Sys2Proof.Machine

/-- What PC presents as an operand, by `PC_READ` (10_state R26). -/
def State.pcOperand (s : State) (next : Addr) : Addr :=
  match Params.pcRead with
  | .nextPc => next
  | .ownPc => s.pc

/-- `x[ri]` of an index or base, read in full: 0 for "0" (10_state R22, R23, R26). -/
def State.indexValue (s : State) (next : Addr) : Index → Word
  | .zero => 0
  | .pc => s.pcOperand next
  | .reg r => s.reg r

/-- The effective address of a memory operand (30_encoding R93 to R95); the indirect forms read a
32-bit pointer. -/
def State.effAddr (s : State) (next : Addr) : MemOp → Except Refusal Addr
  | .abs16 _ a ri => .ok (widen Params.addr16Ext a + s.indexValue next ri)
  | .abs32 _ a ri => .ok (a + s.indexValue next ri)
  | .pre a ri => s.load (widen Params.addr16Ext a + s.indexValue next ri) .l
  | .post a ri => do
    let ptr ← s.load (widen Params.addr16Ext a) .l
    .ok (ptr + s.indexValue next ri)

/-- The value of a memory operand. -/
def State.readMem (s : State) (next : Addr) (m : MemOp) (sz : Size) : Except Refusal Word := do
  let ea ← s.effAddr next m
  s.load ea sz

/-- The second operand of a two-operand instruction (41_alu R131). -/
def State.aluSource (s : State) (next : Addr) (sz : Size) : AluForm → Except Refusal Word
  | .reg _ rs => .ok (s.readReg rs sz)
  | .imm _ v => .ok (trunc sz v)
  | .mem _ m => s.readMem next m sz

/-- The destination of a two-operand instruction. -/
def aluDest : AluForm → Reg
  | .reg rd _ => rd
  | .imm rd _ => rd
  | .mem rd _ => rd

/-- The second operand of BIT (41_alu R131, R138). -/
def State.testSource (s : State) (next : Addr) (sz : Size) : TestForm → Except Refusal Word
  | .reg _ rs => .ok (s.readReg rs sz)
  | .mem _ m => s.readMem next m sz

/-- The test register of BIT. -/
def testDest : TestForm → Reg
  | .reg rd _ => rd
  | .mem rd _ => rd

/-- The value LDR loads (45_move R241). -/
def State.loadSource (s : State) (next : Addr) (sz : Size) : LoadForm → Except Refusal Word
  | .imm _ v => .ok (trunc sz v)
  | .mem _ m => s.readMem next m sz

/-- The register LDR loads. -/
def loadDest : LoadForm → Reg
  | .imm rd _ => rd
  | .mem rd _ => rd

/-- The value PSH pushes. A pushed PC is the address of the next instruction (45_move R245), whatever `PC_READ`
is: 10_state R26 lists PSH under that parameter, but D5 holds the pushes to nextpc (log 7, DEDUCED). -/
def State.slotValue (s : State) (next : Addr) (sz : Size) : Slot → Word
  | .pc => trunc sz next
  | .reg r => s.readReg r sz

/-- The amount of field `NN`: 1 to 4 (30_encoding R82). -/
def amount (nn : BitVec 2) : Nat := nn.toNat + 1

/-- The offset of a branch; 16 bits are sign-extended (30_encoding R98, D9). -/
def offsetValue : BranchOffset → Word
  | .short h => widen .sign h
  | .long v => v

/-- The address of a bit instruction's operand (44_bitops R221). -/
def State.bitAddr (s : State) (next : Addr) (a : Word) (ri : Index) : Addr := a + s.indexValue next ri

end Sys2Proof.Machine
end

