-- ==== Sys2Proof/Machine/Alu.lean ====
section
/-! DEFINITION. ADC, ADD, AND, BIC, BIT, EOR, ORA, SBC, SUB (41_alu). -/

namespace Sys2Proof.Machine

/-- The result of a two-operand instruction: its value, and C and V where it writes them. -/
structure AluResult where
  value : Word
  cv : Option (Bool × Bool)
  deriving DecidableEq, Repr

/-- An addition or subtraction as a result. -/
def AddResult.result (m : AddResult) : AluResult := ⟨m.r, some (m.c, m.v)⟩

/-- A two-operand function of the size, `a`, `b` and the incoming C. -/
abbrev AluFn := Size → Word → Word → Bool → AluResult

/-- ADC (R134). -/
def adcFn : AluFn := fun sz a b c => (addFlags sz a b c).result

/-- ADD (R135). -/
def addFn : AluFn := fun sz a b _ => (addFlags sz a b false).result

/-- AND (R136). -/
def andFn : AluFn := fun _ a b _ => ⟨a &&& b, none⟩

/-- BIC (R137). -/
def bicFn : AluFn := fun _ a b _ => ⟨a &&& ~~~ b, none⟩

/-- EOR (R139). -/
def eorFn : AluFn := fun _ a b _ => ⟨a ^^^ b, none⟩

/-- ORA (R140). -/
def oraFn : AluFn := fun _ a b _ => ⟨a ||| b, none⟩

/-- SBC (R141). -/
def sbcFn : AluFn := fun sz a b c => (subFlags sz a b c).result

/-- SUB (R142). -/
def subFn : AluFn := fun sz a b _ => (subFlags sz a b true).result

/-- C and V where a result has them. -/
def State.putCV (s : State) : Option (Bool × Bool) → State
  | some (c, v) => s.setCV c v
  | none => s

/-- `rd <- rd op <operand>`: all reads, then `rd`, then the flags (R131). -/
def aluMeaning (fn : AluFn) (sz : Size) (f : AluForm) (s : State) : Result :=
  let next := s.nextPc (f.words sz)
  let rd := aluDest f
  outcome do
    let b ← s.aluSource next sz f
    let out := fn sz (s.readReg rd sz) b (s.flag Params.flagC)
    .ok ((((s.writeReg rd sz out.value).putCV out.cv).setNZ out.value sz).setPc next)

/-- ADC (R134). -/
def execAdc (sz : Size) (f : AluForm) (s : State) : Result := aluMeaning adcFn sz f s

/-- ADD (R135). -/
def execAdd (sz : Size) (f : AluForm) (s : State) : Result := aluMeaning addFn sz f s

/-- AND (R136). -/
def execAnd (sz : Size) (f : AluForm) (s : State) : Result := aluMeaning andFn sz f s

/-- BIC (R137). -/
def execBic (sz : Size) (f : AluForm) (s : State) : Result := aluMeaning bicFn sz f s

/-- BIT: N and V from bits `s-1` and `s-2` of the operand, Z from the and; `rd` is not written (R138). -/
def execBit (sz : Size) (f : TestForm) (s : State) : Result :=
  let next := s.nextPc f.words
  outcome do
    let b ← s.testSource next sz f
    let a := s.readReg (testDest f) sz
    let s := s.setFlag Params.flagN (signBit sz b)
    let s := s.setFlag Params.flagV (b.getLsbD (sz.bits - 2))
    let s := s.setFlag Params.flagZ (b &&& a == 0)
    .ok (s.setPc next)

/-- EOR (R139). -/
def execEor (sz : Size) (f : AluForm) (s : State) : Result := aluMeaning eorFn sz f s

/-- ORA (R140). -/
def execOra (sz : Size) (f : AluForm) (s : State) : Result := aluMeaning oraFn sz f s

/-- SBC (R141). -/
def execSbc (sz : Size) (f : AluForm) (s : State) : Result := aluMeaning sbcFn sz f s

/-- SUB (R142). -/
def execSub (sz : Size) (f : AluForm) (s : State) : Result := aluMeaning subFn sz f s

end Sys2Proof.Machine
end

