-- ==== Sys2Proof/Machine/BitOps.lean ====
section
/-! DEFINITION. CBT, SBT, TBT, XBT (44_bitops): one bit of a register or of a 32-bit memory word. -/

namespace Sys2Proof.Machine

/-- An operand replaced by a function of itself and the mask of the bit; no flag is written, also where
the register is P (R221, 10_state R31). -/
def bitMeaning (fn : Word → Word → Word) (f : BitForm) (b : BitVec 5) (s : State) : Result :=
  let next := s.nextPc f.words
  let mask := bitMask b.toNat
  outcome <| match f with
    | .reg rd => .ok ((s.setReg rd (fn (s.reg rd) mask)).setPc next)
    | .mem a ri => do
      let ea := s.bitAddr next a ri
      let v ← s.load ea .l
      let s ← s.store ea .l (fn v mask)
      .ok (s.setPc next)

/-- CBT: the bit cleared (R222). -/
def execCbt (f : BitForm) (b : BitVec 5) (s : State) : Result :=
  bitMeaning (fun v mask => v &&& ~~~ mask) f b s

/-- SBT: the bit set (R223). -/
def execSbt (f : BitForm) (b : BitVec 5) (s : State) : Result :=
  bitMeaning (fun v mask => v ||| mask) f b s

/-- The operand of TBT (R221). -/
def State.bitOperand (s : State) (next : Addr) : BitForm → Except Refusal Word
  | .reg rd => .ok (s.reg rd)
  | .mem a ri => s.load (s.bitAddr next a ri) .l

/-- TBT: Z tells whether the bit is 0; P as an operand is read before Z is written (R224). -/
def execTbt (f : BitForm) (b : BitVec 5) (s : State) : Result :=
  let next := s.nextPc f.words
  outcome do
    let v ← s.bitOperand next f
    .ok ((s.setFlag Params.flagZ (v &&& bitMask b.toNat == 0)).setPc next)

/-- XBT: the bit inverted (R225). -/
def execXbt (f : BitForm) (b : BitVec 5) (s : State) : Result :=
  bitMeaning (fun v mask => v ^^^ mask) f b s

end Sys2Proof.Machine
end

