-- ==== Sys2Proof/Machine/Control.lean ====
section
/-! DEFINITION. The branches, BRK, JMP, JSR, NOP, RTI, RTS (43_control). -/

namespace Sys2Proof.Machine

/-- The link of a branch: nextpc pushed on SP where the link bit is set (R192). -/
def State.link (s : State) (link : Bool) (next : Addr) : Except Refusal State :=
  if link then s.push .sp .l next else .ok s

/-- The target of a taken branch: `rs + offset`, or what memory holds there (R192). -/
def State.branchTarget (s : State) (f : BranchForm) (next : Addr) : Except Refusal Addr :=
  let addr := s.indexValue next f.base + offsetValue f.offset
  if f.indirect then s.load addr .l else .ok addr

/-- A branch on a condition, in the order the source prints: the base is read after the link push
(R192). -/
def branchMeaning (cond : Cond) (f : BranchForm) (s : State) : Result :=
  let next := s.nextPc f.words
  outcome do
    if s.cond cond then
      let s ← s.link f.link next
      let target ← s.branchTarget f next
      .ok (s.setPc target)
    else .ok (s.setPc next)

/-- BPL: not N (R191, R192). -/
def execBpl (f : BranchForm) (s : State) : Result := branchMeaning .pl f s

/-- BMI: N (R191, R192). -/
def execBmi (f : BranchForm) (s : State) : Result := branchMeaning .mi f s

/-- BVC: not V (R191, R192). -/
def execBvc (f : BranchForm) (s : State) : Result := branchMeaning .vc f s

/-- BVS: V (R191, R192). -/
def execBvs (f : BranchForm) (s : State) : Result := branchMeaning .vs f s

/-- BCC: not C (R191, R192). -/
def execBcc (f : BranchForm) (s : State) : Result := branchMeaning .cc f s

/-- BCS: C (R191, R192). -/
def execBcs (f : BranchForm) (s : State) : Result := branchMeaning .cs f s

/-- BNE: not Z (R191, R192). -/
def execBne (f : BranchForm) (s : State) : Result := branchMeaning .ne f s

/-- BEQ: Z (R191, R192). -/
def execBeq (f : BranchForm) (s : State) : Result := branchMeaning .eq f s

/-- BGE: N == V (R191, R192). -/
def execBge (f : BranchForm) (s : State) : Result := branchMeaning .ge f s

/-- BLT: N != V (R191, R192). -/
def execBlt (f : BranchForm) (s : State) : Result := branchMeaning .lt f s

/-- BLE: Z or N != V (R191, R192). -/
def execBle (f : BranchForm) (s : State) : Result := branchMeaning .le f s

/-- BGT: not Z and N == V (R191, R192). -/
def execBgt (f : BranchForm) (s : State) : Result := branchMeaning .gt f s

/-- BLS: C or Z (R191, R192). -/
def execBls (f : BranchForm) (s : State) : Result := branchMeaning .ls f s

/-- BHI: not C and not Z (R191, R192). -/
def execBhi (f : BranchForm) (s : State) : Result := branchMeaning .hi f s

/-- BNV: never (R191, R192). -/
def execBnv (f : BranchForm) (s : State) : Result := branchMeaning .nv f s

/-- BRA: always (R191, R192). -/
def execBra (f : BranchForm) (s : State) : Result := branchMeaning .ra f s

/-- BRK: the trap through vector `v` for `W` = 0; the interrupt number is not used, and `W` = 1 is refused
(R195, 60_exceptions R286; log 17). -/
def execBrk (wait : Bool) (_irq : BitVec 3) (vector : BitVec 4) (s : State) : Result :=
  if wait then .refused .brkWait else outcome (s.trap vector (s.nextPc 2))

/-- JMP (R200). -/
def execJmp (f : JumpForm) (s : State) : Result :=
  outcome <| match f with
    | .direct a => .ok (s.setPc a)
    | .indirect a => do
      let target ← s.load a .l
      .ok (s.setPc target)

/-- JSR: push nextpc on the named stack, then jump (R201, D23). -/
def execJsr (rs : Index) (a : Word) (s : State) : Result :=
  outcome do
    let r ← stackReg rs
    let s' ← s.push r .l (s.nextPc 3)
    .ok (s'.setPc a)

/-- NOP: step over itself and `n` words, which are not examined (R202). -/
def execNop (n : BitVec 8) (s : State) : Result := .next (s.setPc (s.nextPc (n.toNat + 1)))

/-- RTI: the return from a trap on the named stack (R203). -/
def execRti (rs : Index) (s : State) : Result :=
  outcome do
    let r ← stackReg rs
    s.trapReturn r

/-- RTS: pull pc from the named stack (R204). -/
def execRts (rs : Index) (s : State) : Result :=
  outcome do
    let r ← stackReg rs
    let (target, s) ← s.pull r .l
    .ok (s.setPc target)

end Sys2Proof.Machine
end

