-- ==== Sys2Proof/Machine/Move.lean ====
section
/-! DEFINITION. LDR, MOV, PSH, PUL, STR (45_move). -/

namespace Sys2Proof.Machine

/-- LDR (R241). -/
def execLdr (sz : Size) (f : LoadForm) (s : State) : Result :=
  let next := s.nextPc (f.words sz)
  outcome do
    let v ← s.loadSource next sz f
    .ok (((s.writeReg (loadDest f) sz v).setNZ v sz).setPc next)

/-- The flags of MOV: N and Z from the value moved, C and V free values (R243, D20; log 5). -/
def State.movFlags (s : State) (v : Word) (sz : Size) : State :=
  ((s.setNZ v sz).setCV (Config.freeBit s.draws) (Config.freeBit (s.draws + 1))).draw.draw

/-- MOV: where `rd` is P the value moved is all that P receives (R243, 10_state R31). -/
def execMov (sz : Size) (_row : MovRow) (rd rs : Reg) (s : State) : Result :=
  let v := s.readReg rs sz
  let s' := s.writeReg rd sz v
  .next ((if rd = .p then s' else s'.movFlags v sz).setPc (s.nextPc 1))

/-- PSH: the value is read before the pointer moves; N and Z from it (R245). -/
def execPsh (sz : Size) (rd : Slot) (rs : Index) (s : State) : Result :=
  let next := s.nextPc 1
  let v := s.slotValue next sz rd
  outcome do
    let r ← stackReg rs
    let s ← s.push r sz v
    .ok ((s.setNZ v sz).setPc next)

/-- PUL: the pointer moves before the destination is written; no flag update on top where the
destination is P (R246). -/
def execPul (sz : Size) (rd : Slot) (rs : Index) (s : State) : Result :=
  let next := s.nextPc 1
  outcome do
    let r ← stackReg rs
    let (v, s) ← s.pull r sz
    match rd with
    | .pc => .ok ((s.setNZ v sz).setPc v)
    | .reg .p => .ok ((s.writeReg .p sz v).setPc next)
    | .reg r' => .ok (((s.writeReg r' sz v).setNZ v sz).setPc next)

/-- STR: N and Z from the value stored (R248). -/
def execStr (sz : Size) (rd : Reg) (m : MemOp) (s : State) : Result :=
  let next := s.nextPc (1 + m.words)
  let v := s.readReg rd sz
  outcome do
    let ea ← s.effAddr next m
    let s ← s.store ea sz v
    .ok ((s.setNZ v sz).setPc next)

end Sys2Proof.Machine
end

