-- ==== Sys2Proof/Machine/Shift.lean ====
section
/-! DEFINITION. ASL, ASR, ESL, LSR, RLB, ROL, ROR, RRB (42_shift). -/

namespace Sys2Proof.Machine

/-- The result of a shift by `k` and the carry out of it; any count outside `1 <= k <= s-1` is refused (R161,
D16). -/
def State.shiftValue (s : State) (step : OpenStep) (sz : Size) (k : Nat) (v : Word) :
    Except Refusal (Word × Bool) :=
  if 1 ≤ k ∧ k ≤ sz.bits - 1 then .ok (repeatStep step sz k (v, s.flag Params.flagC)) else .error .shiftCount

/-- The flags of a shift: C, then N and Z from the result (R161). -/
def State.shiftFlags (s : State) (r : Word) (c : Bool) (sz : Size) : State :=
  (s.setFlag Params.flagC c).setNZ r sz

/-- A register shifted by `k` (R161). -/
def State.shiftReg (s : State) (step : OpenStep) (sz : Size) (rd : Reg) (k : Nat) (next : Addr) :
    Except Refusal State := do
  let (r, c) ← s.shiftValue step sz k (s.readReg rd sz)
  .ok (((s.writeReg rd sz r).shiftFlags r c sz).setPc next)

/-- An operand shifted by the count its form gives (R160, R161, 30_encoding R96). -/
def shiftMeaning (step : OpenStep) (sz : Size) (f : ShiftForm) (s : State) : Result :=
  let next := s.nextPc f.words
  outcome <| match f with
    | .one rd => s.shiftReg step sz rd 1 next
    | .imm rd count => s.shiftReg step sz rd count.toNat next
    | .reg rd rs => s.shiftReg step sz rd (s.reg rs).toNat next
    | .mem m nn => do
      let ea ← s.effAddr next m
      let v ← s.load ea sz
      let (r, c) ← s.shiftValue step sz (amount nn) v
      let s ← s.store ea sz r
      .ok ((s.shiftFlags r c sz).setPc next)

/-- A shift whose step is an open parameter: refused by name until one is supplied (U8, D30; log 6). -/
def openMeaning (supplied : Bool) (absent : Refusal) (step : OpenStep) (sz : Size) (f : ShiftForm) (s : State) :
    Result :=
  if supplied then shiftMeaning step sz f s else .refused absent

/-- ASL (R163). -/
def execAsl (sz : Size) (f : ShiftForm) (s : State) : Result := shiftMeaning aslStep sz f s

/-- ASR (R164). -/
def execAsr (sz : Size) (f : ShiftForm) (s : State) : Result := shiftMeaning asrStep sz f s

/-- ESL, with the open function `esl_step` (R166; log 6). -/
def execEsl (sz : Size) (f : ShiftForm) (s : State) : Result :=
  openMeaning s.supplied.esl .eslNotSpecified Config.eslStep sz f s

/-- LSR (R167). -/
def execLsr (sz : Size) (f : ShiftForm) (s : State) : Result := shiftMeaning lsrStep sz f s

/-- RLB, with the open function `rlb_step` (R168; log 6). -/
def execRlb (sz : Size) (f : ShiftForm) (s : State) : Result :=
  openMeaning s.supplied.rlb .rlbNotSpecified Config.rlbStep sz f s

/-- ROL (R169). -/
def execRol (sz : Size) (f : ShiftForm) (s : State) : Result := shiftMeaning rolStep sz f s

/-- ROR (R170). -/
def execRor (sz : Size) (f : ShiftForm) (s : State) : Result := shiftMeaning rorStep sz f s

/-- RRB, with the open function `rrb_step` (R171; log 6). -/
def execRrb (sz : Size) (f : ShiftForm) (s : State) : Result :=
  openMeaning s.supplied.rrb .rrbNotSpecified Config.rrbStep sz f s

end Sys2Proof.Machine
end

