-- ==== Sys2Proof/Machine/Unary.lean ====
section
/-! DEFINITION. ABS, DEC, EXT, INC, NEG, NOT (40_unary). -/

namespace Sys2Proof.Machine

/-- ABS: the magnitude; the most negative value wraps (R112, D38). -/
def absValue (sz : Size) (v : Word) : Word := if signBit sz v then trunc sz (0 - v) else v

/-- DEC by `N` (R113). -/
def decValue (nn : BitVec 2) (sz : Size) (v : Word) : Word := trunc sz (v - BitVec.ofNat 32 (amount nn))

/-- EXT: the sign extension of 1, 8 or 16 bits to 8, 16 or 32 (R114, D18, D37). -/
def extValue (sz : Size) (v : Word) : Word :=
  match sz with
  | .b => trunc .b ((v.setWidth 1).signExtend 32)
  | .w => trunc .w ((v.setWidth 8).signExtend 32)
  | .l => (v.setWidth 16).signExtend 32

/-- INC by `N` (R115). -/
def incValue (nn : BitVec 2) (sz : Size) (v : Word) : Word := trunc sz (v + BitVec.ofNat 32 (amount nn))

/-- NEG (R116, D38). -/
def negValue (sz : Size) (v : Word) : Word := trunc sz (0 - v)

/-- NOT (R117). -/
def notValue (sz : Size) (v : Word) : Word := trunc sz (~~~ v)

/-- An operand replaced by a function of itself; N and Z from the result (R111). -/
def unaryMeaning (fn : Size → Word → Word) (sz : Size) (f : UnaryForm) (s : State) : Result :=
  let next := s.nextPc f.words
  outcome <| match f with
    | .reg rd =>
      let r := fn sz (s.readReg rd sz)
      .ok (((s.writeReg rd sz r).setNZ r sz).setPc next)
    | .mem m => do
      let ea ← s.effAddr next m
      let v ← s.load ea sz
      let r := fn sz v
      let s ← s.store ea sz r
      .ok ((s.setNZ r sz).setPc next)

/-- ABS (R112). -/
def execAbs (sz : Size) (f : UnaryForm) (s : State) : Result := unaryMeaning absValue sz f s

/-- DEC (R113). -/
def execDec (sz : Size) (nn : BitVec 2) (f : UnaryForm) (s : State) : Result :=
  unaryMeaning (decValue nn) sz f s

/-- EXT (R114). -/
def execExt (sz : Size) (f : UnaryForm) (s : State) : Result := unaryMeaning extValue sz f s

/-- INC (R115). -/
def execInc (sz : Size) (nn : BitVec 2) (f : UnaryForm) (s : State) : Result :=
  unaryMeaning (incValue nn) sz f s

/-- NEG (R116). -/
def execNeg (sz : Size) (f : UnaryForm) (s : State) : Result := unaryMeaning negValue sz f s

/-- NOT (R117). -/
def execNot (sz : Size) (f : UnaryForm) (s : State) : Result := unaryMeaning notValue sz f s

end Sys2Proof.Machine
end

