-- ==== Sys2Proof/Machine/Dispatch.lean ====
section
/-! DEFINITION. The meaning of each instruction: one arm for each constructor of `Instr`. -/

namespace Sys2Proof.Machine

def exec (i : Instr) (s : State) : Host.Outcome State Fault Refusal :=
  match i with
  -- 40_unary
  | .abs sz f => Sys2Proof.Machine.execAbs sz f s
  | .dec sz nn f => Sys2Proof.Machine.execDec sz nn f s
  | .ext sz f => Sys2Proof.Machine.execExt sz f s
  | .inc sz nn f => Sys2Proof.Machine.execInc sz nn f s
  | .neg sz f => Sys2Proof.Machine.execNeg sz f s
  | .not sz f => Sys2Proof.Machine.execNot sz f s
  -- 41_alu
  | .adc sz f => Sys2Proof.Machine.execAdc sz f s
  | .add sz f => Sys2Proof.Machine.execAdd sz f s
  | .and sz f => Sys2Proof.Machine.execAnd sz f s
  | .bic sz f => Sys2Proof.Machine.execBic sz f s
  | .bit sz f => Sys2Proof.Machine.execBit sz f s
  | .eor sz f => Sys2Proof.Machine.execEor sz f s
  | .ora sz f => Sys2Proof.Machine.execOra sz f s
  | .sbc sz f => Sys2Proof.Machine.execSbc sz f s
  | .sub sz f => Sys2Proof.Machine.execSub sz f s
  -- 42_shift
  | .asl sz f => Sys2Proof.Machine.execAsl sz f s
  | .asr sz f => Sys2Proof.Machine.execAsr sz f s
  | .esl sz f => Sys2Proof.Machine.execEsl sz f s
  | .lsr sz f => Sys2Proof.Machine.execLsr sz f s
  | .rlb sz f => Sys2Proof.Machine.execRlb sz f s
  | .rol sz f => Sys2Proof.Machine.execRol sz f s
  | .ror sz f => Sys2Proof.Machine.execRor sz f s
  | .rrb sz f => Sys2Proof.Machine.execRrb sz f s
  -- 43_control
  | .bpl f => Sys2Proof.Machine.execBpl f s
  | .bmi f => Sys2Proof.Machine.execBmi f s
  | .bvc f => Sys2Proof.Machine.execBvc f s
  | .bvs f => Sys2Proof.Machine.execBvs f s
  | .bcc f => Sys2Proof.Machine.execBcc f s
  | .bcs f => Sys2Proof.Machine.execBcs f s
  | .bne f => Sys2Proof.Machine.execBne f s
  | .beq f => Sys2Proof.Machine.execBeq f s
  | .bge f => Sys2Proof.Machine.execBge f s
  | .blt f => Sys2Proof.Machine.execBlt f s
  | .ble f => Sys2Proof.Machine.execBle f s
  | .bgt f => Sys2Proof.Machine.execBgt f s
  | .bls f => Sys2Proof.Machine.execBls f s
  | .bhi f => Sys2Proof.Machine.execBhi f s
  | .bnv f => Sys2Proof.Machine.execBnv f s
  | .bra f => Sys2Proof.Machine.execBra f s
  | .brk wait irq vector => Sys2Proof.Machine.execBrk wait irq vector s
  | .jmp f => Sys2Proof.Machine.execJmp f s
  | .jsr rs addr => Sys2Proof.Machine.execJsr rs addr s
  | .nop n => Sys2Proof.Machine.execNop n s
  | .rti rs => Sys2Proof.Machine.execRti rs s
  | .rts rs => Sys2Proof.Machine.execRts rs s
  -- 44_bitops
  | .cbt f b => Sys2Proof.Machine.execCbt f b s
  | .sbt f b => Sys2Proof.Machine.execSbt f b s
  | .tbt f b => Sys2Proof.Machine.execTbt f b s
  | .xbt f b => Sys2Proof.Machine.execXbt f b s
  -- 45_move
  | .ldr sz f => Sys2Proof.Machine.execLdr sz f s
  | .mov sz row rd rs => Sys2Proof.Machine.execMov sz row rd rs s
  | .psh sz rd rs => Sys2Proof.Machine.execPsh sz rd rs s
  | .pul sz rd rs => Sys2Proof.Machine.execPul sz rd rs s
  | .str sz rd m => Sys2Proof.Machine.execStr sz rd m s

end Sys2Proof.Machine
end

