-- ==== Sys2Proof/Machine/Fetch.lean ====
section
/-! DEFINITION. Fetching the words of an instruction (00_scope R16, 20_memory R43, 10_state R27), and
placing one where the fetch reads. -/

namespace Sys2Proof.Machine

/-- A rejected word as a refusal (60_exceptions R271). -/
def refusalOf : Reject → Refusal
  | .reserved => .reservedEncoding
  | .immediate => .immediate
  | .truncated => .truncated

/-- An answer of the decoder as one of the machine. -/
def orRefuse {α : Type} : Except Reject α → Except Refusal α
  | .ok x => .ok x
  | .error r => .error (refusalOf r)

/-- One instruction word at an address (R43). -/
def State.fetchHalf (s : State) (a : Addr) : Except Refusal Half :=
  if allIn s.mapped a Params.ws then
    match Params.au with
    | .byte => .ok ((joinBytes (s.mem.readBytes a 2)).setWidth 16)
    | .half => .ok (s.mem.readCell a)
  else .error .unmapped

/-- `n` instruction words from an address on. -/
def State.fetchHalves (s : State) (a : Addr) : Nat → Except Refusal (List Half)
  | 0 => .ok []
  | n + 1 => do
    let h ← s.fetchHalf a
    let rest ← s.fetchHalves (a + BitVec.ofNat 32 Params.ws) n
    .ok (h :: rest)

/-- The words of the instruction at pc: an odd pc is refused, where a word takes two addresses, and so is an
instruction that straddles the top of the address space, with the words that NOP skips, which are part of it but
are not fetched (R27, R43, D11; log 15). -/
def State.fetch (s : State) : Except Refusal (List Half) :=
  if s.pc.toNat % Params.ws ≠ 0 then .error .misalignedFetch
  else do
    let w ← s.fetchHalf s.pc
    let n ← orRefuse (extWords w)
    if 2 ^ 32 < s.pc.toNat + (1 + n + skippedWords w) * Params.ws then .error .misalignedFetch
    else do
      let ext ← s.fetchHalves (s.pc + BitVec.ofNat 32 Params.ws) n
      .ok (w :: ext)

/-- The instruction at pc. -/
def State.nextInstr (s : State) : Except Refusal Instr := do
  let ws ← s.fetch
  let (i, _) ← orRefuse (decode ws)
  .ok i

/-- Store instruction words from an address on (R43). -/
def Memory.placeHalves (m : Memory) (a : Addr) : List Half → Memory
  | [] => m
  | h :: hs => (m.poke a .w (h.setWidth 32)).placeHalves (a + BitVec.ofNat 32 Params.ws) hs

/-- `s` with instruction words placed at pc from outside the machine, where the launch loads a program (70_reset
R300; log 13): the addresses exist, and pc is no longer HALT_PC. -/
def State.placeAtPc (s : State) (hs : List Half) : State :=
  let n := hs.length * Params.ws
  { s with
    mem := s.mem.placeHalves s.pc hs
    mapped := if allIn s.mapped s.pc n then s.mapped else ⟨s.pc.toNat, n⟩ :: s.mapped
    haltPc := if s.haltPc = some s.pc then none else s.haltPc }

end Sys2Proof.Machine
end

