-- ==== Sys2Proof/Machine/Step.lean ====
section
/-! DEFINITION. One step of the machine (00_scope R16, 70_reset R304, R305). -/

namespace Sys2Proof.Machine

/-- One step: the end of the run at HALT_PC, else the instruction at pc. Every meaning sets pc itself. -/
def step (s : State) : Host.Outcome State Fault Refusal :=
  if s.haltPc = some s.pc then .fault .halted
  else match s.nextInstr with
    | .ok i => exec i s
    | .error r => .refused r

/-- `s` with an instruction given by its bits placed where the next step fetches; the bits from `nbits`
up are zero, to three words. -/
def State.withFetchWord (s : State) (nbits w : Nat) : State := s.placeAtPc (halvesOfTableWord nbits w)

end Sys2Proof.Machine
end

