-- ==== Sys2Proof/Machine/Timing.lean ====
section
/-! DEFINITION. The Cycles column with its footnotes applied (70_reset R306). No step reads it: the
machine has no cycle counter (60_exceptions R282; log 22). -/

namespace Sys2Proof.Machine

/-- `base` cycles, `more` for the 32-bit size: the footnotes of the tables. -/
def cyclesBySize (sz : Size) (base more : Nat) : Nat :=
  match sz with
  | .l => base + more
  | _ => base

/-- Read-modify-write operands: the one-operand instructions and the memory rows of the shifts. -/
def modifyCycles (sz : Size) (m : MemOp) : Nat :=
  match m with
  | .abs32 _ _ _ => cyclesBySize sz 5 2
  | _ => cyclesBySize sz 4 2

/-- Memory operands that are read or stored, `short` cycles for `addr16, ri`. -/
def accessCycles (sz : Size) (m : MemOp) (short : Nat) : Nat :=
  match m with
  | .abs16 _ _ _ => cyclesBySize sz short 1
  | .abs32 _ _ _ => cyclesBySize sz 4 1
  | _ => cyclesBySize sz 5 1

/-- The one-operand instructions (R110). -/
def unaryCycles (sz : Size) : UnaryForm → Nat
  | .reg _ => 1
  | .mem m => modifyCycles sz m

/-- The two-operand instructions (R130); `short` is 3, for SBC and SUB 2 (C18). -/
def aluCycles (sz : Size) (short : Nat) : AluForm → Nat
  | .reg _ _ => 1
  | .imm _ _ => cyclesBySize sz 2 1
  | .mem _ m => accessCycles sz m short

/-- The shifts and rotates (R160). -/
def shiftCycles (sz : Size) : ShiftForm → Nat
  | .one _ => 1
  | .imm _ _ => 2
  | .reg _ _ => 2
  | .mem m _ => modifyCycles sz m

/-- The branches (R190). -/
def branchCycles (f : BranchForm) : Nat := (if f.indirect then 4 else 2) + (if f.link then 2 else 0)

/-- The bit instructions (R220). -/
def bitCycles : BitForm → Nat
  | .reg _ => 1
  | .mem _ _ => 5

/-- The cycles of an instruction (R306). -/
def cycles : Instr → Nat
  | .abs sz f => unaryCycles sz f
  | .dec sz _ f => unaryCycles sz f
  | .ext sz f => unaryCycles sz f
  | .inc sz _ f => unaryCycles sz f
  | .neg sz f => unaryCycles sz f
  | .not sz f => unaryCycles sz f
  | .adc sz f => aluCycles sz 3 f
  | .add sz f => aluCycles sz 3 f
  | .and sz f => aluCycles sz 3 f
  | .bic sz f => aluCycles sz 3 f
  | .bit _ (.reg _ _) => 1
  | .bit sz (.mem _ m) => accessCycles sz m 3
  | .eor sz f => aluCycles sz 3 f
  | .ora sz f => aluCycles sz 3 f
  | .sbc sz f => aluCycles sz 2 f
  | .sub sz f => aluCycles sz 2 f
  | .asl sz f => shiftCycles sz f
  | .asr sz f => shiftCycles sz f
  | .esl sz f => shiftCycles sz f
  | .lsr sz f => shiftCycles sz f
  | .rlb sz f => shiftCycles sz f
  | .rol sz f => shiftCycles sz f
  | .ror sz f => shiftCycles sz f
  | .rrb sz f => shiftCycles sz f
  | .bpl f => branchCycles f
  | .bmi f => branchCycles f
  | .bvc f => branchCycles f
  | .bvs f => branchCycles f
  | .bcc f => branchCycles f
  | .bcs f => branchCycles f
  | .bne f => branchCycles f
  | .beq f => branchCycles f
  | .bge f => branchCycles f
  | .blt f => branchCycles f
  | .ble f => branchCycles f
  | .bgt f => branchCycles f
  | .bls f => branchCycles f
  | .bhi f => branchCycles f
  | .bnv f => branchCycles f
  | .bra f => branchCycles f
  | .brk _ _ _ => 5
  | .jmp (.direct _) => 3
  | .jmp (.indirect _) => 5
  | .jsr _ _ => 5
  | .nop _ => 1
  | .rti _ => 4
  | .rts _ => 4
  | .cbt f _ => bitCycles f
  | .sbt f _ => bitCycles f
  | .tbt f _ => bitCycles f
  | .xbt f _ => bitCycles f
  | .ldr sz (.imm _ _) => cyclesBySize sz 2 1
  | .ldr sz (.mem _ m) => accessCycles sz m 3
  | .mov _ _ _ _ => 1
  | .psh sz _ _ => cyclesBySize sz 2 1
  | .pul sz _ _ => cyclesBySize sz 2 1
  | .str sz _ m => accessCycles sz m 3

end Sys2Proof.Machine
end

