-- ==== Sys2Proof/Safety.lean ====
section
/-! DEFINITION. What claims call a safe state and a safe run, and the terms they speak in: accesses, frames,
and the results of the instructions as arithmetic on numbers. Accesses and frames are said in bytes, as `AU` = 8
has them (00_scope R7; log 1). -/

namespace Sys2Proof.Machine

/-- What every state the machine is meant to be in satisfies: memory is in its canonical form. -/
abbrev State.Inv (s : State) : Prop := s.mem.wf = true

/-- A step that the machine takes: it answers a next state. -/
def Steps (s t : State) : Prop := step s = .next t

/-- `t` is reached from `s` by `n` steps. -/
def Reaches : Nat → State → State → Prop
  | 0, s, t => s = t
  | n + 1, s, t => ∃ u, Steps s u ∧ Reaches n u t

/-- The run from `s` ends at HALT_PC after `n` steps, in the state `t` (70_reset R304). -/
def EndsIn (n : Nat) (s t : State) : Prop := Reaches n s t ∧ step t = .fault .halted

/-- The run from `s` meets no refusal: wherever it comes, it goes on or it ends at HALT_PC. -/
def Safe (s : State) : Prop := ∀ n t, Reaches n s t → ∀ r, step t ≠ .refused r

/-! Accesses. -/

/-- A data access of a size may read at `a`: `a` is a multiple of `n`, and all `n` bytes exist (20_memory
R42, R47). -/
abbrev Readable (s : State) (a : Addr) (sz : Size) : Prop :=
  a.toNat % sz.bytes = 0 ∧ ∀ k < sz.bytes, inRegions s.mapped (a + BitVec.ofNat 32 k) = true

/-- A data access of a size may write at `a`: it may read there, and none of the bytes is program text
(20_memory R53). -/
abbrev Writable (s : State) (a : Addr) (sz : Size) : Prop :=
  Readable s a sz ∧ ∀ k < sz.bytes, inRegions s.text (a + BitVec.ofNat 32 k) = false

/-- `x` is one of the `n` bytes from `a` on. -/
abbrev InBytes (a : Addr) (n : Nat) (x : Addr) : Prop := (x - a).toNat < n

/-! Frames. -/

/-- Every register but those listed is unchanged. -/
def RegsExcept (l : List Reg) (s t : State) : Prop := ∀ r, r ∉ l → t.reg r = s.reg r

/-- Every bit of P but those listed is unchanged. -/
def PBitsExcept (l : List Nat) (s t : State) : Prop :=
  ∀ i < 32, i ∉ l → (t.reg .p).getLsbD i = (s.reg .p).getLsbD i

/-- Every byte of memory is unchanged. -/
def MemSame (s t : State) : Prop := ∀ x : Addr, t.byte x = s.byte x

/-- Every byte of memory outside the `n` bytes from `a` on is unchanged. -/
def MemExcept (a : Addr) (n : Nat) (s t : State) : Prop := ∀ x : Addr, ¬ InBytes a n x → t.byte x = s.byte x

/-- What the launch fixed is unchanged: the launch memory, the text, HALT_PC, and what it supplies. -/
def SameLaunch (s t : State) : Prop :=
  t.mapped = s.mapped ∧ t.text = s.text ∧ t.haltPc = s.haltPc ∧ t.supplied = s.supplied

/-- N and Z are those of an `s`-bit number (00_scope R13). -/
def FlagsNZ (t : State) (sz : Size) (r : Nat) : Prop :=
  t.flag Params.flagN = decide (2 ^ (sz.bits - 1) ≤ r) ∧ t.flag Params.flagZ = decide (r = 0)

/-! Results, on the numbers `0 .. 2^s - 1`. -/

/-- The two's complement reading of an `s`-bit number (00_scope R11). -/
def signedOf (sz : Size) (a : Nat) : Int := if a < 2 ^ (sz.bits - 1) then a else (a : Int) - 2 ^ sz.bits

/-- The number whose low `h` bits are those of `v` and whose higher bits, to `s`, are copies of bit
`h - 1`. -/
def extendedFrom (h : Nat) (sz : Size) (v : Nat) : Nat :=
  if v.testBit (h - 1) then 2 ^ sz.bits - 2 ^ h + v % 2 ^ h else v % 2 ^ h

/-- The results of the one-operand instructions (40_unary R112 to R117). -/
def unaryResult (op : UnaryOp) (sz : Size) (v : Nat) : Nat :=
  match op with
  | .abs => if v < 2 ^ (sz.bits - 1) then v else 2 ^ sz.bits - v
  | .dec nn => (v + 2 ^ sz.bits - (nn.toNat + 1)) % 2 ^ sz.bits
  | .inc nn => (v + (nn.toNat + 1)) % 2 ^ sz.bits
  | .neg => (2 ^ sz.bits - v) % 2 ^ sz.bits
  | .not => 2 ^ sz.bits - 1 - v
  | .ext =>
    match sz with
    | .b => extendedFrom 1 .b v
    | .w => extendedFrom 8 .w v
    | .l => extendedFrom 16 .l v

/-- The result of a two-operand instruction on `a`, `b` and the incoming carry `c`, 0 or 1 (41_alu R134 to
R142). -/
def aluResult (op : AluOp) (sz : Size) (a b c : Nat) : Nat :=
  match op with
  | .adc => (a + b + c) % 2 ^ sz.bits
  | .add => (a + b) % 2 ^ sz.bits
  | .sbc => (a + 2 ^ sz.bits - b - (1 - c)) % 2 ^ sz.bits
  | .sub => (a + 2 ^ sz.bits - b) % 2 ^ sz.bits
  | .and => a &&& b
  | .bic => a &&& (2 ^ sz.bits - 1 - b)
  | .eor => a ^^^ b
  | .ora => a ||| b

/-- An integer does not fit in `s` bits as a two's complement number. -/
def overflows (sz : Size) (n : Int) : Bool := decide (n < -(2 ^ (sz.bits - 1)) ∨ (2 ^ (sz.bits - 1) : Int) ≤ n)

/-- C and V after a two-operand instruction; `none` where it writes neither (41_alu R132, R133). -/
def aluCarryOverflow (op : AluOp) (sz : Size) (a b c : Nat) : Option (Bool × Bool) :=
  match op with
  | .adc => some (decide (2 ^ sz.bits ≤ a + b + c), overflows sz (signedOf sz a + signedOf sz b + c))
  | .add => some (decide (2 ^ sz.bits ≤ a + b), overflows sz (signedOf sz a + signedOf sz b))
  | .sbc => some (decide (b + (1 - c) ≤ a), overflows sz (signedOf sz a - signedOf sz b - (1 - (c : Int))))
  | .sub => some (decide (b ≤ a), overflows sz (signedOf sz a - signedOf sz b))
  | _ => none

/-- The result and C of a shift or rotate of `v` by `k`, `1 <= k < s`, with incoming carry `c`, 0 or 1, in
closed form: the rotates turn the `s+1` bits of carry and operand (42_shift R162 to R170). `none` for the three
whose result is an open function. -/
def shiftResult (op : ShiftOp) (sz : Size) (k v c : Nat) : Option (Nat × Bool) :=
  let n := sz.bits
  match op with
  | .asl => some (v * 2 ^ k % 2 ^ n, v.testBit (n - k))
  | .lsr => some (v / 2 ^ k, v.testBit (k - 1))
  | .asr => some ((signedOf sz v / 2 ^ k % 2 ^ n).toNat, v.testBit (k - 1))
  | .rol =>
    let x := c * 2 ^ n + v
    let y := x * 2 ^ k % 2 ^ (n + 1) + x / 2 ^ (n + 1 - k)
    some (y % 2 ^ n, y.testBit n)
  | .ror =>
    let x := c * 2 ^ n + v
    let y := x / 2 ^ k + x % 2 ^ k * 2 ^ (n + 1 - k)
    some (y % 2 ^ n, y.testBit n)
  | .esl => none
  | .rlb => none
  | .rrb => none

/-- The open step of ESL, RLB and RRB (42_shift R166, R168, R171; log 6). -/
def openStepOf : ShiftOp → Option OpenStep
  | .esl => some Config.eslStep
  | .rlb => some Config.rlbStep
  | .rrb => some Config.rrbStep
  | _ => none

/-- The refusal of a shift or rotate whose open step the launch does not supply (42_shift R166, R168, R171;
log 6); `none` for the five whose step the spec gives, and where the step is supplied. -/
def stepMissing (s : State) : ShiftOp → Option Refusal
  | .esl => if s.supplied.esl then none else some .eslNotSpecified
  | .rlb => if s.supplied.rlb then none else some .rlbNotSpecified
  | .rrb => if s.supplied.rrb then none else some .rrbNotSpecified
  | _ => none

/-- A step applied `k` times, the value kept to `s` bits (42_shift R162). -/
def iterateStep (f : OpenStep) (sz : Size) (k : Nat) (v : Word) (c : Bool) : Word × Bool :=
  (fun x : Word × Bool => (trunc sz (f sz x.1 x.2).1, (f sz x.1 x.2).2))^[k] (v, c)

/-- The register a shift or rotate writes, in its register forms (42_shift R160). -/
def shiftDest : ShiftForm → Option Reg
  | .one rd => some rd
  | .imm rd _ => some rd
  | .reg rd _ => some rd
  | .mem _ _ => none

/-- The count of a shift or rotate (42_shift R160, 30_encoding R96). -/
def shiftCount (s : State) : ShiftForm → Nat
  | .one _ => 1
  | .imm _ count => count.toNat
  | .reg _ rs => (s.reg rs).toNat
  | .mem _ nn => nn.toNat + 1

/-! What each instruction may write, as the lists of the spec give it. -/

/-- The stack pointer register of an operand, where it names one. -/
def stackRegs : Index → List Reg
  | .reg r => [r]
  | _ => []

/-- The registers written as numbers: destinations, stack pointers, and P where it is a destination
(10_state R21, R31). -/
def regsWritten : Instr → List Reg
  | .abs _ (.reg rd) | .dec _ _ (.reg rd) | .ext _ (.reg rd) | .inc _ _ (.reg rd) | .neg _ (.reg rd)
  | .not _ (.reg rd) => [rd]
  | .adc _ f | .add _ f | .and _ f | .bic _ f | .eor _ f | .ora _ f | .sbc _ f | .sub _ f => [aluDest f]
  | .asl _ f | .asr _ f | .esl _ f | .lsr _ f | .rlb _ f | .rol _ f | .ror _ f | .rrb _ f =>
    (shiftDest f).toList
  | .bpl f | .bmi f | .bvc f | .bvs f | .bcc f | .bcs f | .bne f | .beq f | .bge f | .blt f | .ble f | .bgt f
  | .bls f | .bhi f | .bnv f | .bra f => if f.link then [.sp] else []
  | .brk _ _ _ => [.sp]
  | .jsr rs _ => stackRegs rs
  | .rti rs => .p :: stackRegs rs
  | .rts rs => stackRegs rs
  | .cbt (.reg rd) _ | .sbt (.reg rd) _ | .xbt (.reg rd) _ => [rd]
  | .ldr _ f => [loadDest f]
  | .mov _ _ rd _ => [rd]
  | .psh _ _ rs => stackRegs rs
  | .pul _ (.reg rd) rs => rd :: stackRegs rs
  | .pul _ .pc rs => stackRegs rs
  | _ => []

/-- The bits of P an instruction writes as flags (10_state R30). -/
def flagsWritten : Instr → List Nat
  | .abs _ _ | .dec _ _ _ | .ext _ _ | .inc _ _ _ | .neg _ _ | .not _ _ => [Params.flagN, Params.flagZ]
  | .and _ _ | .bic _ _ | .eor _ _ | .ora _ _ => [Params.flagN, Params.flagZ]
  | .adc _ _ | .add _ _ | .sbc _ _ | .sub _ _ => [Params.flagN, Params.flagZ, Params.flagC, Params.flagV]
  | .bit _ _ => [Params.flagN, Params.flagZ, Params.flagV]
  | .asl _ _ | .asr _ _ | .esl _ _ | .lsr _ _ | .rlb _ _ | .rol _ _ | .ror _ _ | .rrb _ _ =>
    [Params.flagN, Params.flagZ, Params.flagC]
  | .tbt _ _ => [Params.flagZ]
  | .ldr _ _ | .psh _ _ _ | .pul _ _ _ | .str _ _ _ => [Params.flagN, Params.flagZ]
  | .mov _ _ _ _ => [Params.flagN, Params.flagZ, Params.flagC, Params.flagV]
  | _ => []

/-- The bytes at the address of a memory operand: where it starts, and how many. -/
def bytesAt (ea : Except Refusal Addr) (sz : Size) : List (Addr × Nat) :=
  match ea with
  | .ok a => [(a, sz.bytes)]
  | .error _ => []

/-- The bytes a push stores. -/
def pushBytes (s : State) (sz : Size) : Index → List (Addr × Nat)
  | .reg r => [(pushAddr (s.reg r) sz, sz.bytes)]
  | _ => []

/-- The bytes a branch stores: its link, where it is taken (43_control R192). -/
def linkBytes (s : State) (c : Cond) (f : BranchForm) : List (Addr × Nat) :=
  if s.cond c && f.link then pushBytes s .l (.reg .sp) else []

/-- The bytes a one-operand instruction stores. -/
def unaryBytes (s : State) (sz : Size) : UnaryForm → List (Addr × Nat)
  | .reg _ => []
  | .mem m => bytesAt (s.effAddr (s.nextPc (1 + m.words)) m) sz

/-- The bytes a shift or rotate stores. -/
def shiftBytes (s : State) (sz : Size) : ShiftForm → List (Addr × Nat)
  | .mem m _ => bytesAt (s.effAddr (s.nextPc (1 + m.words)) m) sz
  | _ => []

/-- The bytes CBT, SBT and XBT store. -/
def bitBytes (s : State) : BitForm → List (Addr × Nat)
  | .reg _ => []
  | .mem a ri => [(s.bitAddr (s.nextPc 3) a ri, 4)]

/-- The bytes an instruction stores to (20_memory R46, R48): where each piece starts, and how many. -/
def storedBytes (s : State) : Instr → List (Addr × Nat)
  | .abs sz f | .dec sz _ f | .ext sz f | .inc sz _ f | .neg sz f | .not sz f => unaryBytes s sz f
  | .asl sz f | .asr sz f | .esl sz f | .lsr sz f | .rlb sz f | .rol sz f | .ror sz f | .rrb sz f =>
    shiftBytes s sz f
  | .bpl f => linkBytes s .pl f
  | .bmi f => linkBytes s .mi f
  | .bvc f => linkBytes s .vc f
  | .bvs f => linkBytes s .vs f
  | .bcc f => linkBytes s .cc f
  | .bcs f => linkBytes s .cs f
  | .bne f => linkBytes s .ne f
  | .beq f => linkBytes s .eq f
  | .bge f => linkBytes s .ge f
  | .blt f => linkBytes s .lt f
  | .ble f => linkBytes s .le f
  | .bgt f => linkBytes s .gt f
  | .bls f => linkBytes s .ls f
  | .bhi f => linkBytes s .hi f
  | .bnv f => linkBytes s .nv f
  | .bra f => linkBytes s .ra f
  | .brk _ _ _ => [(s.reg .sp - 7, 8)]
  | .jsr rs _ => pushBytes s .l rs
  | .cbt f _ | .sbt f _ | .xbt f _ => bitBytes s f
  | .psh sz _ rs => pushBytes s sz rs
  | .str sz _ m => bytesAt (s.effAddr (s.nextPc (1 + m.words)) m) sz
  | _ => []

/-- Whether an instruction reads or writes P as a number: its operand or its destination is P, or it pushes
or pulls P (10_state R21, R31). -/
def namesP : Instr → Bool
  | .brk _ _ _ => true
  | .rti _ => true
  | .cbt (.reg .p) _ | .sbt (.reg .p) _ | .tbt (.reg .p) _ | .xbt (.reg .p) _ => true
  | .mov _ _ rd rs => rd == .p || rs == .p
  | .psh _ (.reg .p) _ => true
  | .pul _ (.reg .p) _ => true
  | _ => false

/-- `s` with some bits of P inverted. -/
def State.flipP (s : State) (bits : Word) : State := s.setReg .p (s.reg .p ^^^ bits)

/-- A result, with a change of state carried into its next state. -/
def Result.mapNext (g : State → State) : Result → Result
  | .next t => .next (g t)
  | .fault f => .fault f
  | .refused r => .refused r

end Sys2Proof.Machine
end

