-- ==== Sys2Proof/Certificates/Slice0/Obligations.lean ====
section
/-! DEFINITION. The statements about the machine. `RegsExcept`, `PBitsExcept`, `MemSame`, `MemExcept` and
`SameLaunch` say what an instruction leaves unchanged. Where a statement rests on a value the spec decides or
the model chooses, its docstring names the decision (Dn) or the log entry. The flags stand at the bits of
P_LAYOUT (10_state R29, log 3, PRESUMED), and N and Z are those of the spec's general formula wherever a page marks
them, `FlagsNZ` (00_scope R13, G1; log 25, PRESUMED). -/

open Sys2Proof Sys2Proof.Machine

/-! Encoding. -/

/-- Every well-formed instruction has words, and the decoder reads it back from them, whatever follows. -/
def Obligations.DecodeOfEncode : Prop :=
  ∀ (i : Instr) (rest : List Half), i.wf = true →
    ∃ ws, encode i = some ws ∧ decode (ws ++ rest) = .ok (i, rest)

/-- Whatever the decoder reads is well formed, and the words it read are the ones the encoder writes: no two
words mean the same, but for the second word of BRK, which is not used (43_control R195). -/
def Obligations.EncodeOfDecode : Prop :=
  ∀ (ws : List Half) (i : Instr) (rest : List Half), decode ws = .ok (i, rest) →
    i.wf = true ∧ ∃ e, encode i = some e ∧ ws.take 1 = e.take 1 ∧ ws.drop e.length = rest ∧
      ((∀ w q v, i ≠ .brk w q v) → ws = e ++ rest)

/-- The length of an instruction is a function of its first word alone: the low byte fixes one, two or three
words, and the footnotes make it depend on `DD` for an immediate, on `D` for a branch offset, and on the
count for NOP, the only instruction that can be longer (30_encoding R60, R61). -/
def Obligations.LengthFromFirstWord : Prop :=
  ∃ form : Nat → Nat, (∀ lo, form lo ≤ 2) ∧
    ∀ (w : Half) (ext : List Half) (i : Instr) (rest : List Half), decode (w :: ext) = .ok (i, rest) →
      let lo := w.toNat % 256
      i.words = 1 +
        (if lo = 0xEA then w.toNat / 256
         else if lo ∈ [0x09, 0x29, 0x49, 0x69, 0xA9, 0xE9] then (if w.toNat / 256 % 4 = 2 then 2 else 1)
         else if lo % 32 = 0x10 then (if w.getLsbD 14 then 2 else 1)
         else form lo)
      ∧ (lo ≠ 0xEA → rest = ext.drop (i.words - 1) ∧ i.words - 1 ≤ ext.length)
      ∧ (lo = 0xEA → rest = ext)

/-- `DD` = `11` is reserved in every format that has a size field (30_encoding R100). The low bytes without
one are those of the branches, BRK, JMP, JSR, NOP, RTI, RTS and the bit instructions. -/
def Obligations.ReservedSize : Prop :=
  ∀ (w : Half) (ext : List Half),
    w.toNat % 32 ≠ 0x10 →
    w.toNat % 256 ∉ [0x00, 0x4C, 0x6C, 0x20, 0xEA, 0x40, 0x60,
      0x18, 0x12, 0x38, 0x32, 0x58, 0x52, 0x78, 0x72, 0xD8, 0xD2, 0xF8, 0xF2, 0xB8, 0x92, 0x9F, 0xB2] →
    w.toNat / 256 % 4 = 3 →
    decode (w :: ext) = .error .reserved

/-- A register code that its list prints as "-" is reserved, in the first word and in the extension word of
the shift form `rd, rs` (30_encoding R101). -/
def Obligations.ReservedRegisterCodes : Prop :=
  ∀ (w : Half) (ext : List Half),
    let lo := w.toNat % 256
    -- list AAAA of the immediate forms, and of the register forms of the shifts
    (lo ∈ [0x09, 0x29, 0x49, 0x69, 0xA9, 0xE9] → w.toNat / 2 ^ 11 % 16 ∈ [12, 15] →
      decode (w :: ext) = .error .reserved) ∧
    (lo ∈ [0x0A, 0x2A, 0x4A, 0x6A, 0x02, 0x22, 0x42, 0x62] → w.toNat / 2 ^ 10 % 16 ∈ [12, 15] →
      decode (w :: ext) = .error .reserved) ∧
    (lo ∈ [0x02, 0x22, 0x42, 0x62] → w.toNat / 2 ^ 14 % 2 = 1 →
      ∀ h : Half, h.toNat % 16 ∈ [12, 15] → decode (w :: h :: ext) = .error .reserved) ∧
    -- list unary-BBB
    (lo ∈ [0x88, 0xC8] → w.toNat / 2 ^ 10 % 8 ∈ [4, 7] → decode (w :: ext) = .error .reserved) ∧
    -- list Bcc-RRRR
    (lo % 32 = 0x10 → w.toNat / 2 ^ 8 % 16 = 3 → decode (w :: ext) = .error .reserved) ∧
    -- lists bit-RRRR and bit-XXXX
    (lo ∈ [0x18, 0x38, 0x58, 0x78, 0xD8, 0xF8, 0xB8, 0x9F] → w.toNat / 2 ^ 8 % 16 = 3 →
      decode (w :: ext) = .error .reserved) ∧
    (lo ∈ [0x12, 0x32, 0x52, 0x72, 0xD2, 0xF2, 0x92, 0xB2] → w.toNat / 2 ^ 8 % 16 = 15 →
      decode (w :: ext) = .error .reserved) ∧
    -- lists MOV-XXX and MOV-SSS, each as `rd` and as `rs`
    (lo ∈ [0xAA, 0xBA] → w.toNat / 2 ^ 13 = 7 → decode (w :: ext) = .error .reserved) ∧
    (lo ∈ [0x8A, 0x9A] → w.toNat / 2 ^ 10 % 8 = 7 → decode (w :: ext) = .error .reserved) ∧
    (lo = 0xBA → w.toNat / 2 ^ 10 % 8 = 1 → decode (w :: ext) = .error .reserved) ∧
    (lo = 0x9A → w.toNat / 2 ^ 13 = 1 → decode (w :: ext) = .error .reserved)

/-- The other reserved words: an undocumented low byte, a fixed bit that is not as printed, bit 15 where no
page documents it; a nonzero bit 15:4 in the extension word of the shift form `rd, rs` (D16); PSH and PUL of PC
at a size other than 32 (D36). An 8-bit immediate with a nonzero upper byte is no instruction either (D15), and is
rejected as such where nothing else is wrong with the word. -/
def Obligations.ReservedFixedBits : Prop :=
  ∀ (w : Half) (ext : List Half),
    let lo := w.toNat % 256
    -- undocumented low bytes
    (lo ∈ [0x04, 0x07, 0x0C, 0x14, 0x17, 0x1A, 0x27, 0x37, 0x47, 0x57, 0x5A, 0x67, 0x77, 0x7A, 0x80, 0x82, 0x83,
      0x87, 0x89, 0x8B, 0x93, 0x97, 0x9B, 0xA0, 0xA2, 0xA3, 0xA7, 0xAB, 0xB3, 0xB7, 0xBB, 0xBF, 0xC0, 0xC1, 0xC2,
      0xC3, 0xC4, 0xC5, 0xC7, 0xC9, 0xCB, 0xCC, 0xCD, 0xCF, 0xD1, 0xD3, 0xD4, 0xD5, 0xD7, 0xD9, 0xDA, 0xDB, 0xDC,
      0xDD, 0xDF, 0xE0, 0xE2, 0xE4, 0xE7, 0xEC, 0xF4, 0xF7, 0xFA] → decode (w :: ext) = .error .reserved) ∧
    -- bit 10 of an immediate form; `m` of a shift by one
    (lo ∈ [0x09, 0x29, 0x49, 0x69, 0xA9, 0xE9] → w.toNat / 2 ^ 10 % 2 = 1 → decode (w :: ext) = .error .reserved) ∧
    (lo ∈ [0x0A, 0x2A, 0x4A, 0x6A] → w.toNat / 2 ^ 14 % 2 = 1 → decode (w :: ext) = .error .reserved) ∧
    -- JMP; JSR, RTI, RTS
    (lo ∈ [0x4C, 0x6C] → w.toNat / 256 ≠ 0 → decode (w :: ext) = .error .reserved) ∧
    (lo ∈ [0x20, 0x40, 0x60] → w.toNat / 2 ^ 13 ≠ 0 ∨ w.toNat / 256 % 4 ≠ 0 →
      decode (w :: ext) = .error .reserved) ∧
    -- bit 15 of ORA, EOR, BIT, LDR, STR, INC, PSH, PUL
    (lo ∈ [0x01, 0x03, 0x05, 0x09, 0x0B, 0x0D, 0x0F, 0x11, 0x13, 0x15, 0x19, 0x1B, 0x1C, 0x1D, 0x1F,
      0x41, 0x43, 0x45, 0x49, 0x4B, 0x4D, 0x4F, 0x51, 0x53, 0x55, 0x59, 0x5B, 0x5C, 0x5D, 0x5F,
      0x34, 0x24, 0x2C, 0x3A,
      0xA9, 0xB5, 0xB4, 0xB6, 0xA5, 0xA4, 0xA6, 0xBD, 0xAF, 0xBC, 0xB9, 0xBE, 0xAE, 0xAC, 0xAD, 0xA1, 0xB1,
      0x95, 0x94, 0x96, 0x85, 0x84, 0x86, 0x9D, 0x8F, 0x9C, 0x99, 0x9E, 0x8E, 0x8C, 0x8D, 0x81, 0x91,
      0xE8, 0xC8, 0xF6, 0xE6, 0xFE, 0xEE, 0x48, 0x44, 0x54, 0x08, 0x68, 0x64, 0x74, 0x28] →
      w.toNat / 2 ^ 15 = 1 → decode (w :: ext) = .error .reserved) ∧
    -- the extension word of `rd, rs`; PSH and PUL of PC at sizes b and w
    (lo ∈ [0x02, 0x22, 0x42, 0x62] → w.toNat / 2 ^ 14 % 2 = 1 →
      ∀ h : Half, h.toNat / 16 ≠ 0 → decode (w :: h :: ext) = .error .reserved) ∧
    (lo ∈ [0x08, 0x28] → w.toNat / 2 ^ 13 % 4 = 3 → w.toNat / 256 % 4 ≠ 2 → decode (w :: ext) = .error .reserved) ∧
    -- an 8-bit immediate with a nonzero upper byte is no instruction either
    (lo ∈ [0x09, 0x29, 0x49, 0x69, 0xA9, 0xE9] → w.toNat / 256 % 4 = 0 →
      ∀ h : Half, h.toNat / 256 ≠ 0 → (∀ x, decode (w :: h :: ext) ≠ .ok x) ∧
        ∀ (h' : Half) (x : Instr × List Half), decode (w :: h' :: ext) = .ok x →
          decode (w :: h :: ext) = .error .immediate)

/-- The four groups of bit numbers, at the codes `000` to `111` of each, and that together they hold each of
the bit numbers 0 to 31 exactly once (30_encoding R87). The operands of the words are P, and `0, A0`. -/
def Obligations.BitNumberGroups : Prop :=
  let groups : List (List Nat × Nat × Nat × Nat × Nat) :=
    [([0, 7, 8, 15, 16, 23, 24, 31], 0x18, 0x12, 0x38, 0x32), ([2, 5, 10, 13, 18, 21, 26, 29], 0x58, 0x52, 0x78, 0x72),
     ([3, 4, 11, 12, 19, 20, 27, 28], 0xD8, 0xD2, 0xF8, 0xF2), ([6, 1, 14, 9, 22, 17, 30, 25], 0xB8, 0x92, 0x9F, 0xB2)]
  (∀ g ∈ groups, ∀ code < 8,
    let b := BitVec.ofNat 5 (g.1.getD code 0)
    let word := fun (t lo : Nat) => BitVec.ofNat 16 (t * 2 ^ 15 + code * 2 ^ 12 + lo)
    decode [word 0 g.2.1] = .ok (.cbt (.reg .p) b, []) ∧
    decode [word 1 g.2.1] = .ok (.tbt (.reg .p) b, []) ∧
    decode [word 0 g.2.2.1, 0, 0] = .ok (.cbt (.mem 0 (.reg .a0)) b, []) ∧
    decode [word 1 g.2.2.1, 0, 0] = .ok (.tbt (.mem 0 (.reg .a0)) b, []) ∧
    decode [word 0 g.2.2.2.1] = .ok (.sbt (.reg .p) b, []) ∧
    decode [word 1 g.2.2.2.1] = .ok (.xbt (.reg .p) b, []) ∧
    decode [word 0 g.2.2.2.2, 0, 0] = .ok (.sbt (.mem 0 (.reg .a0)) b, []) ∧
    decode [word 1 g.2.2.2.2, 0, 0] = .ok (.xbt (.mem 0 (.reg .a0)) b, [])) ∧
  ∀ b < 32, (groups.flatMap (·.1)).count b = 1

/-- Words the spec writes out, one or more of each family, in its vectors or in the worked examples of 45_move R241,
R243, R245 and R248, decode to the instructions they stand for. The low byte 9a of 0x029A is PRESUMED (G3, log
14). -/
def Obligations.WrittenWords : Prop :=
  decode [0xB5CA] = .ok (.abs .w (.reg .a1), []) ∧
  decode [0x047C] = .ok (.adc .b (.reg .a0 .a1), []) ∧
  decode [0xC671, 0x2000] = .ok (.add .l (.mem .a2 (.post 0x2000 (.reg .y1))), []) ∧
  decode [0x4524, 0x2000] = .ok (.bit .w (.mem .a2 (.abs16 .zzz 0x2000 (.reg .z))), []) ∧
  decode [0x4102, 0x0008] = .ok (.asl .w (.reg .a0 .y0), []) ∧
  decode [0x4666, 0x2000] = .ok (.ror .l (.mem (.abs16 .zzz 0x2000 (.reg .z)) 2), []) ∧
  decode [0xC0F0, 0x0000, 0x0002] = .ok (.bra ⟨.long 0x00020000, .pc, false, false⟩, []) ∧
  decode [0x1820, 0x0300, 0x0000] = .ok (.jsr (.reg .y0) 0x00000300, []) ∧
  decode [0x9D72, 0x2000, 0x0000] = .ok (.xbt (.mem 0x2000 (.reg .z)) 5, []) ∧
  decode [0x02A9, 0x5678, 0x1234] = .ok (.ldr .l (.imm .a0 0x12345678), []) ∧
  decode [0x029A] = .ok (.mov .l .r9a .sp .x0, []) ∧
  decode [0x7954] = .ok (.psh .w (.reg .y3) (.reg .y0), []) ∧
  decode [0x2096, 0x2000] = .ok (.str .b .x1 (.abs16 .yyy 0x2000 (.reg .y0)), [])

/-! A step. -/

/-- A step runs the instruction that the words at pc decode to: it is exec of that instruction on the same
state, with nothing added (00_scope R16). -/
def Obligations.StepRunsDecoded : Prop :=
  ∀ (s : State) (ws : List Half) (i : Instr) (rest : List Half),
    s.haltPc ≠ some s.pc → s.fetch = .ok ws → decode ws = .ok (i, rest) → step s = exec i s

/-- A step at the bytes of a well-formed instruction is exec of it: the words stand at pc and up, each with
its low byte at the lower address (D2), pc is even, and the words of the instruction, those that NOP skips among
them, end at or below the top of memory (10_state R27, D11; log 15). -/
def Obligations.StepRunsEncoded : Prop :=
  ∀ (s : State) (i : Instr) (ws : List Half),
    i.wf = true → encode i = some ws →
    s.haltPc ≠ some s.pc → s.pc.toNat % 2 = 0 → s.pc.toNat + 2 * i.words ≤ 2 ^ 32 →
    (∀ (k : Nat) (h : k < ws.length),
      let a := s.pc + BitVec.ofNat 32 (2 * k)
      inRegions s.mapped a = true ∧ inRegions s.mapped (a + 1) = true ∧
      s.byte a = ws[k].setWidth 8 ∧ s.byte (a + 1) = (ws[k] >>> 8).setWidth 8) →
    step s = exec i s

/-- The machine stops with a fault at HALT_PC and nowhere else (D34). -/
def Obligations.HaltStops : Prop :=
  ∀ (s : State) (f : Fault), step s = .fault f ↔ s.haltPc = some s.pc

/-- A fetch that has no meaning is refused: from an odd pc, where a byte of one of the words of the instruction is
not in the launch memory, and of an instruction that straddles the top of the address space (10_state R27, D11).
`extWords` of the first word is how many words follow it and are fetched; `skippedWords` how many more NOP steps
over, which are part of it (43_control R202; log 15). -/
def Obligations.FetchRefusals : Prop :=
  ∀ s : State, s.haltPc ≠ some s.pc →
    (s.pc.toNat % 2 = 1 → step s = .refused .misalignedFetch) ∧
    (s.pc.toNat % 2 = 0 → inRegions s.mapped s.pc = false ∨ inRegions s.mapped (s.pc + 1) = false →
      step s = .refused .unmapped) ∧
    (s.pc.toNat % 2 = 0 → inRegions s.mapped s.pc = true → inRegions s.mapped (s.pc + 1) = true →
      ∀ n, extWords (s.byte (s.pc + 1) ++ s.byte s.pc) = .ok n →
        let len := 1 + n + skippedWords (s.byte (s.pc + 1) ++ s.byte s.pc)
        (2 ^ 32 < s.pc.toNat + 2 * len → step s = .refused .misalignedFetch) ∧
        (s.pc.toNat + 2 * len ≤ 2 ^ 32 →
          (∃ k < 2 * (n + 1), inRegions s.mapped (s.pc + BitVec.ofNat 32 k) = false) → step s = .refused .unmapped))

/-- Words that are no instruction are never executed and never trap: the step is refused, and for the reason the
decoder gives, a reserved encoding (in the first word or in an extension word, D14, D16) or a malformed immediate
(D15). A first word that no extension word can mend is refused whether or not its extension words can be fetched,
and one with an undocumented low byte, which has none, as a reserved encoding. -/
def Obligations.ReservedWordRefused : Prop :=
  ∀ s : State, s.haltPc ≠ some s.pc →
    (∀ ws, s.fetch = .ok ws →
      (decode ws = .error .reserved → step s = .refused .reservedEncoding) ∧
      (decode ws = .error .immediate → step s = .refused .immediate)) ∧
    (s.pc.toNat % 2 = 0 → inRegions s.mapped s.pc = true → inRegions s.mapped (s.pc + 1) = true →
      extWords (s.byte (s.pc + 1) ++ s.byte s.pc) = .error .reserved → step s = .refused .reservedEncoding) ∧
    ((∀ ext, decode ((s.byte (s.pc + 1) ++ s.byte s.pc) :: ext) = .error .reserved) → ∃ r, step s = .refused r)

/-- The reasons a well-formed instruction can be refused for, and of which: BRK with `W` = 1 and nothing else
waits; PC or 0 as a stack pointer; a register shift by 0 or by `s` and more; ESL, RLB, RRB where their step is not
supplied; an access that is misaligned, unmapped, or a store into the text (D11, D13, D14, D16, D22, D24, D30). -/
def Obligations.RefusalReasons : Prop :=
  ∀ (i : Instr) (s : State) (r : Refusal), exec i s = .refused r →
    (r = .brkWait ∧ ∃ q v, i = .brk true q v) ∨
    (r = .stackPointer ∧ ∃ rs, (rs = .pc ∨ rs = .zero) ∧
      ((∃ a, i = .jsr rs a) ∨ i = .rti rs ∨ i = .rts rs ∨ (∃ sz rd, i = .psh sz rd rs) ∨ ∃ sz rd, i = .pul sz rd rs)) ∨
    (r = .shiftCount ∧ ∃ op sz f, i = Instr.shift op sz f ∧ shiftDest f ≠ none ∧
      (shiftCount s f = 0 ∨ sz.bits ≤ shiftCount s f)) ∨
    (∃ op sz f, i = Instr.shift op sz f ∧ stepMissing s op = some r) ∨
    r = .misaligned ∨ r = .unmapped ∨ (r = .writeToText ∧ ∃ b ∈ storedBytes s i, 0 < b.2)

/-! Memory and the stack primitives. -/

/-- A load puts the byte at the lowest address in the lowest bits (D2), and answers for every readable
access. -/
def Obligations.LoadBytes : Prop :=
  ∀ (s : State) (a : Addr),
    (Readable s a .b → ∃ v, s.load a .b = .ok v ∧ v = (s.byte a).setWidth 32) ∧
    (Readable s a .w → ∃ v, s.load a .w = .ok v ∧ v = (s.byte (a + 1) ++ s.byte a).setWidth 32) ∧
    (Readable s a .l → ∃ v, s.load a .l = .ok v ∧ v = s.byte (a + 3) ++ s.byte (a + 2) ++ s.byte (a + 1) ++ s.byte a)

/-- A store puts bits `8k+7:8k` at `a + k` for each of its bytes (D2), and changes nothing else. -/
def Obligations.StoreBytes : Prop :=
  ∀ (s : State) (a : Addr) (sz : Size) (v : Word), s.Inv → Writable s a sz →
    ∃ t, s.store a sz v = .ok t ∧
      (∀ k < sz.bytes, t.byte (a + BitVec.ofNat 32 k) = (v >>> (8 * k)).setWidth 8) ∧
      MemExcept a sz.bytes s t ∧ RegsExcept [] s t ∧ SameLaunch s t ∧ t.pc = s.pc

/-- An access of one width sees what a store of another width left, byte for byte (20_memory R41, which the
spec derives). -/
def Obligations.MixedWidths : Prop :=
  ∀ (s : State) (a : Addr) (v : Word), s.Inv → Writable s a .l →
    ∃ t, s.store a .l v = .ok t ∧
      t.load (a + 1) .b = .ok ((v >>> 8) &&& 0xFF) ∧ t.load (a + 2) .w = .ok (v >>> 16)

/-- Which data accesses are refused, and with which reason: the alignment is asked first, then whether every
byte exists, then, for a store, whether a byte is program text (D11, D13; the order is log 16). -/
def Obligations.AccessRefusals : Prop :=
  ∀ (s : State) (a : Addr) (sz : Size) (v : Word),
    (a.toNat % sz.bytes ≠ 0 → s.load a sz = .error .misaligned ∧ s.store a sz v = .error .misaligned) ∧
    (a.toNat % sz.bytes = 0 → ¬ Readable s a sz →
      s.load a sz = .error .unmapped ∧ s.store a sz v = .error .unmapped) ∧
    (Readable s a sz → ¬ Writable s a sz → s.store a sz v = .error .writeToText)

/-- A push stores the bytes that end at the pointer and lowers it; a pull gives them back and restores the
pointer (20_memory R44 and R45, decision D6). -/
def Obligations.PushThenPull : Prop :=
  ∀ (s : State) (r : Reg) (sz : Size) (v : Word), s.Inv →
    Writable s (s.reg r - BitVec.ofNat 32 sz.bytes + 1) sz →
    ∃ t, s.push r sz v = .ok t ∧ t.reg r = s.reg r - BitVec.ofNat 32 sz.bytes ∧ RegsExcept [r] s t ∧
      (∀ k < sz.bytes,
        t.byte (s.reg r - BitVec.ofNat 32 sz.bytes + 1 + BitVec.ofNat 32 k) = (v >>> (8 * k)).setWidth 8) ∧
      MemExcept (s.reg r - BitVec.ofNat 32 sz.bytes + 1) sz.bytes s t ∧ t.pc = s.pc ∧
      ∃ u, t.pull r sz = .ok (trunc sz v, u) ∧ u.reg r = s.reg r ∧ RegsExcept [] s u ∧ MemSame t u

/-! Invariants and frames of the whole machine. -/

/-- Every step keeps the canonical form of memory. -/
def Obligations.StepKeepsMemoryForm : Prop :=
  ∀ s t : State, s.Inv → step s = .next t → t.Inv

/-- The machine right after reset has a memory of canonical form; that memory lists nothing is the model's
choice (log 11). -/
def Obligations.ResetMemoryForm : Prop := State.reset.Inv

/-- No step changes what the launch fixed, a byte of the program text, or a byte outside the launch memory
(20_memory R47, R53: decisions D11, D13). -/
def Obligations.StepKeepsText : Prop :=
  ∀ s t : State, step s = .next t →
    SameLaunch s t ∧
    ∀ x : Addr, inRegions s.text x = true ∨ inRegions s.mapped x = false → t.byte x = s.byte x

/-- No instruction writes a register other than its destination and the stack pointer it uses; P is dealt
with by the next statement (10_state R21). -/
def Obligations.RegisterFrame : Prop :=
  ∀ (i : Instr) (s t : State), exec i s = .next t → RegsExcept (.p :: regsWritten i) s t

/-- An instruction whose destination is not P writes no bit of P but the flags listed for it: I, D and the
bits without a meaning never (10_state R28 to R30; that P as a destination is apart is D21, that CBT and SBT
write no flag is D29). -/
def Obligations.FlagFrame : Prop :=
  ∀ (i : Instr) (s t : State), exec i s = .next t → .p ∉ regsWritten i → PBitsExcept (flagsWritten i) s t

/-- An instruction stores to no byte but those of its memory destination or of its pushes (20_memory R46,
R48). -/
def Obligations.MemoryFrame : Prop :=
  ∀ (i : Instr) (s t : State) (x : Addr), exec i s = .next t →
    (∀ b ∈ storedBytes s i, ¬ InBytes b.1 b.2 x) → t.byte x = s.byte x

/-- The bits of P other than C, Z, V and N have no effect on any instruction that does not name P: it does
the same with them inverted, and leaves them inverted (10_state R29, R32: decisions D10, D25, D32). The two runs
draw the same free values (bits `31:s` after a narrow write, C and V after MOV): that they are equal is the model's choice (log 23), and of two runs of the hardware the spec says
nothing there. -/
def Obligations.OtherBitsOfPHaveNoEffect : Prop :=
  ∀ (i : Instr) (s : State) (bits : Word), i.wf = true → namesP i = false →
    (∀ k ∈ [Params.flagC, Params.flagZ, Params.flagV, Params.flagN], bits.getLsbD k = false) →
    exec i (s.flipP bits) = Result.mapNext (fun t => t.flipP bits) (exec i s)

/-! The one-operand instructions: ABS, DEC, EXT, INC, NEG, NOT. -/

/-- The register forms: the result in the low `s` bits, N and Z from it. That ABS and NEG wrap is D38, that
EXT extends by sign is D18 and D37. What bits `31:s` hold after a narrow write is not said (log 4). -/
def Obligations.UnaryOnRegister : Prop :=
  ∀ (op : UnaryOp) (sz : Size) (rd : Reg) (s : State), rd ≠ .p →
    let r := unaryResult op sz (s.readReg rd sz).toNat
    ∃ t, exec (Instr.unary op sz (.reg rd)) s = .next t ∧
      (t.readReg rd sz).toNat = r ∧ FlagsNZ t sz r ∧
      RegsExcept [rd, .p] s t ∧ PBitsExcept [Params.flagN, Params.flagZ] s t ∧ MemSame s t ∧ SameLaunch s t ∧
      t.pc = s.pc + 2

/-- The memory forms: one read and one write of the same address and width (D35). -/
def Obligations.UnaryOnMemory : Prop :=
  ∀ (op : UnaryOp) (sz : Size) (m : MemOp) (s : State) (ea : Addr), s.Inv →
    s.effAddr (s.nextPc (1 + m.words)) m = .ok ea → Writable s ea sz →
    let r := unaryResult op sz (s.peek ea sz).toNat
    ∃ t, exec (Instr.unary op sz (.mem m)) s = .next t ∧
      (t.peek ea sz).toNat = r ∧ FlagsNZ t sz r ∧
      RegsExcept [.p] s t ∧ PBitsExcept [Params.flagN, Params.flagZ] s t ∧ MemExcept ea sz.bytes s t ∧
      SameLaunch s t ∧ t.pc = s.nextPc (1 + m.words)

/-! The two-operand instructions: ADC, ADD, AND, BIC, EOR, ORA, SBC, SUB, and BIT. -/

/-- The second operand: the low `s` bits of a register, the immediate, or the memory operand. -/
def Obligations.SecondOperand : Prop :=
  ∀ (s : State) (next : Addr) (sz : Size) (rd : Reg),
    (∀ rs, s.aluSource next sz (.reg rd rs) = .ok (s.readReg rs sz) ∧
      s.testSource next sz (.reg rd rs) = .ok (s.readReg rs sz)) ∧
    (∀ v, immWf sz v = true →
      s.aluSource next sz (.imm rd v) = .ok v ∧ s.loadSource next sz (.imm rd v) = .ok v) ∧
    (∀ m ea, s.effAddr next m = .ok ea → Readable s ea sz →
      s.aluSource next sz (.mem rd m) = .ok (s.peek ea sz) ∧
      s.testSource next sz (.mem rd m) = .ok (s.peek ea sz) ∧
      s.loadSource next sz (.mem rd m) = .ok (s.peek ea sz))

/-- The effective address of the four memory forms: the address plus the index, read in full; 0 for the index
"0" and nextpc for PC; the indirect forms through a pointer of four bytes (30_encoding R93 to R95: derived by
the spec, decisions D5, D7, D8). -/
def Obligations.EffectiveAddress : Prop :=
  ∀ (s : State) (next : Addr) (l : IxList) (a16 : Half) (a32 : Word) (ri : Index),
    let x := match ri with
      | .zero => 0
      | .pc => next
      | .reg r => s.reg r
    let z : Addr := a16.setWidth 32
    s.effAddr next (.abs16 l a16 ri) = .ok (z + x) ∧
    s.effAddr next (.abs32 l a32 ri) = .ok (a32 + x) ∧
    (Readable s (z + x) .l → s.effAddr next (.pre a16 ri) = .ok (s.peek (z + x) .l)) ∧
    (¬ Readable s (z + x) .l → ∃ r, s.effAddr next (.pre a16 ri) = .error r) ∧
    (Readable s z .l → s.effAddr next (.post a16 ri) = .ok (s.peek z .l + x)) ∧
    (¬ Readable s z .l → ∃ r, s.effAddr next (.post a16 ri) = .error r)

/-- Every form of the eight: the result in the low `s` bits of `rd`, N and Z from it; C and V of the additions
and subtractions, and for the others C and V unchanged. C as the bit above the result and not borrow, and V as signed
overflow, are D19; that all reads come before the write, so that `rd` may also be the source or the index, is
D31. -/
def Obligations.AluOperations : Prop :=
  ∀ (op : AluOp) (sz : Size) (f : AluForm) (s : State) (b : Word), aluDest f ≠ .p →
    s.aluSource (s.nextPc (f.words sz)) sz f = .ok b →
    let rd := aluDest f
    let a := (s.readReg rd sz).toNat
    let c := (s.flag Params.flagC).toNat
    let r := aluResult op sz a b.toNat c
    ∃ t, exec (Instr.alu op sz f) s = .next t ∧
      (t.readReg rd sz).toNat = r ∧ FlagsNZ t sz r ∧
      (match aluCarryOverflow op sz a b.toNat c with
        | some (cy, ov) => t.flag Params.flagC = cy ∧ t.flag Params.flagV = ov ∧
            PBitsExcept [Params.flagN, Params.flagZ, Params.flagC, Params.flagV] s t
        | none => PBitsExcept [Params.flagN, Params.flagZ] s t) ∧
      RegsExcept [rd, .p] s t ∧ MemSame s t ∧ SameLaunch s t ∧ t.pc = s.nextPc (f.words sz)

/-- BIT: N and V are bits `s-1` and `s-2` of the second operand, Z tells whether its and with the test
register is 0; no register but P is written (41_alu R138). -/
def Obligations.BitTest : Prop :=
  ∀ (sz : Size) (f : TestForm) (s : State) (b : Word),
    s.testSource (s.nextPc f.words) sz f = .ok b →
    ∃ t, exec (.bit sz f) s = .next t ∧
      t.flag Params.flagN = b.getLsbD (sz.bits - 1) ∧ t.flag Params.flagV = b.getLsbD (sz.bits - 2) ∧
      t.flag Params.flagZ = decide (b &&& s.readReg (testDest f) sz = 0) ∧
      RegsExcept [.p] s t ∧ PBitsExcept [Params.flagN, Params.flagV, Params.flagZ] s t ∧
      MemSame s t ∧ SameLaunch s t ∧ t.pc = s.nextPc f.words

/-! The shifts and rotates. -/

/-- ASL, ASR, LSR, ROL, ROR on a register, by one, by an immediate or by a register, for the counts the spec gives
a meaning, `1 <= k <= s-1`: the result and the last bit moved out, in closed form. The steps are the spec's
general knowledge (log 8) and the rotates through C are D30; the count from a register is read before `rd` is
written (D31). -/
def Obligations.ShiftOnRegister : Prop :=
  ∀ (op : ShiftOp) (sz : Size) (f : ShiftForm) (rd : Reg) (s : State) (r : Nat) (cy : Bool),
    shiftDest f = some rd → rd ≠ .p → 1 ≤ shiftCount s f → shiftCount s f < sz.bits →
    shiftResult op sz (shiftCount s f) (s.readReg rd sz).toNat (s.flag Params.flagC).toNat = some (r, cy) →
    ∃ t, exec (Instr.shift op sz f) s = .next t ∧
      (t.readReg rd sz).toNat = r ∧ FlagsNZ t sz r ∧ t.flag Params.flagC = cy ∧
      RegsExcept [rd, .p] s t ∧ PBitsExcept [Params.flagN, Params.flagZ, Params.flagC] s t ∧
      MemSame s t ∧ SameLaunch s t ∧ t.pc = s.nextPc f.words

/-- ASL, ASR, LSR, ROL, ROR of a memory operand, by 1 to 4. The steps are the spec's general knowledge (log 8) and
the rotates through C are D30. -/
def Obligations.ShiftOnMemory : Prop :=
  ∀ (op : ShiftOp) (sz : Size) (m : MemOp) (nn : BitVec 2) (s : State) (ea : Addr) (r : Nat) (cy : Bool), s.Inv →
    s.effAddr (s.nextPc (1 + m.words)) m = .ok ea → Writable s ea sz →
    shiftResult op sz (nn.toNat + 1) (s.peek ea sz).toNat (s.flag Params.flagC).toNat = some (r, cy) →
    ∃ t, exec (Instr.shift op sz (.mem m nn)) s = .next t ∧
      (t.peek ea sz).toNat = r ∧ FlagsNZ t sz r ∧ t.flag Params.flagC = cy ∧
      RegsExcept [.p] s t ∧ PBitsExcept [Params.flagN, Params.flagZ, Params.flagC] s t ∧
      MemExcept ea sz.bytes s t ∧ SameLaunch s t ∧ t.pc = s.nextPc (1 + m.words)

/-- ESL, RLB and RRB: every form is refused, by name, until the launch supplies the open step (42_shift R166, R168,
R171, D30; U8). Where it does, they run with that step applied once per position: whatever it is, it gives the
result and C, and N and Z come from the result. That a supplied step is one function of size, operand and carry
is the spec's, and that the model leaves it without a value is log 6. -/
def Obligations.OpenShifts : Prop :=
  ∀ (op : ShiftOp) (g : OpenStep) (sz : Size) (s : State), openStepOf op = some g →
    (∀ (f : ShiftForm) (r : Refusal), stepMissing s op = some r → exec (Instr.shift op sz f) s = .refused r) ∧
    (∀ (f : ShiftForm) (rd : Reg), stepMissing s op = none → shiftDest f = some rd → rd ≠ .p →
      1 ≤ shiftCount s f → shiftCount s f < sz.bits →
      let x := iterateStep g sz (shiftCount s f) (s.readReg rd sz) (s.flag Params.flagC)
      ∃ t, exec (Instr.shift op sz f) s = .next t ∧
        t.readReg rd sz = x.1 ∧ FlagsNZ t sz x.1.toNat ∧ t.flag Params.flagC = x.2 ∧
        RegsExcept [rd, .p] s t ∧ PBitsExcept [Params.flagN, Params.flagZ, Params.flagC] s t ∧
        MemSame s t ∧ SameLaunch s t ∧ t.pc = s.nextPc f.words) ∧
    (∀ (m : MemOp) (nn : BitVec 2) (ea : Addr), stepMissing s op = none → s.Inv →
      s.effAddr (s.nextPc (1 + m.words)) m = .ok ea → Writable s ea sz →
      let x := iterateStep g sz (nn.toNat + 1) (s.peek ea sz) (s.flag Params.flagC)
      ∃ t, exec (Instr.shift op sz (.mem m nn)) s = .next t ∧
        t.peek ea sz = x.1 ∧ FlagsNZ t sz x.1.toNat ∧ t.flag Params.flagC = x.2 ∧
        RegsExcept [.p] s t ∧ PBitsExcept [Params.flagN, Params.flagZ, Params.flagC] s t ∧
        MemExcept ea sz.bytes s t ∧ SameLaunch s t ∧ t.pc = s.nextPc (1 + m.words))

/-- A shift or rotate is refused for its count exactly where it is of a register and the count is 0 or `s` and more
(42_shift R161, D16); of ESL, RLB and RRB, where their step is supplied. The count of a memory form is 1 to 4 and is
never refused. -/
def Obligations.ShiftByOtherCounts : Prop :=
  ∀ (op : ShiftOp) (sz : Size) (f : ShiftForm) (s : State), stepMissing s op = none →
    (exec (Instr.shift op sz f) s = .refused .shiftCount ↔
      shiftDest f ≠ none ∧ (shiftCount s f = 0 ∨ sz.bits ≤ shiftCount s f))

/-! Control transfer. -/

/-- The sixteen conditions at their codes, each a function of N, Z, C and V alone, and what those on a subtraction
say of its operands: after `a - b` on `s` bits, BEQ is taken iff they are equal, BGE, BLT, BLE, BGT are the signed
comparisons, BCS iff `a >= b` unsigned, BHI iff `a < b` and BLS iff `a >= b` (43_control R191). The place of the
condition code in the word is 30_encoding R65, which the spec derives from R84; C as not borrow after SUB is
41_alu R133 (D19; log 26); the places of the flags are log 3. `s.cond c` is what the branch on `c` asks: see
BranchNotTaken, BranchTaken and BranchWithLink. -/
def Obligations.Conditions : Prop :=
  (∀ (code : Nat) (c : Cond), [Cond.pl, .mi, .vc, .vs, .cc, .cs, .ne, .eq, .ge, .lt, .le, .gt, .ls, .hi, .nv, .ra][code]? = some c →
    decode [BitVec.ofNat 16 (code / 8 * 2 ^ 15 + code % 8 * 2 ^ 5 + 0x10), 0] =
      .ok (Instr.branch c ⟨.short 0, .pc, false, false⟩, [])) ∧
  (∀ s : State,
    let n := s.flag Params.flagN
    let z := s.flag Params.flagZ
    let c := s.flag Params.flagC
    let v := s.flag Params.flagV
    s.cond .pl = !n ∧ s.cond .mi = n ∧ s.cond .vc = !v ∧ s.cond .vs = v ∧
    s.cond .cc = !c ∧ s.cond .cs = c ∧ s.cond .ne = !z ∧ s.cond .eq = z ∧
    s.cond .ge = decide (n = v) ∧ s.cond .lt = decide (n ≠ v) ∧
    s.cond .le = decide (z = true ∨ n ≠ v) ∧ s.cond .gt = decide (z = false ∧ n = v) ∧
    s.cond .ls = decide (c = true ∨ z = true) ∧ s.cond .hi = decide (c = false ∧ z = false) ∧
    s.cond .nv = false ∧ s.cond .ra = true) ∧
  ∀ (sz : Size) (f : AluForm) (s t : State) (y : Word), aluDest f ≠ .p →
    s.aluSource (s.nextPc (f.words sz)) sz f = .ok y → exec (.sub sz f) s = .next t →
    let a := (s.readReg (aluDest f) sz).toNat
    let b := y.toNat
    (t.cond .eq = decide (a = b)) ∧
    (t.cond .ge = decide (signedOf sz b ≤ signedOf sz a)) ∧ (t.cond .lt = decide (signedOf sz a < signedOf sz b)) ∧
    (t.cond .le = decide (signedOf sz a ≤ signedOf sz b)) ∧ (t.cond .gt = decide (signedOf sz b < signedOf sz a)) ∧
    (t.cond .cs = decide (b ≤ a)) ∧ (t.cond .hi = decide (a < b)) ∧ (t.cond .ls = decide (b ≤ a))

/-- A branch whose condition does not hold goes on with the next instruction and changes nothing else:
nothing is pushed and no memory is read (43_control R192). -/
def Obligations.BranchNotTaken : Prop :=
  ∀ (c : Cond) (f : BranchForm) (s : State), s.cond c = false →
    exec (Instr.branch c f) s = .next (s.setPc (s.nextPc f.words))

/-- A branch that is taken, without link: pc becomes base plus offset, or, for the indirect form, the four
bytes there; nothing else changes. With base PC the base is nextpc (D5), and a 16-bit offset is sign-extended (D9). -/
def Obligations.BranchTaken : Prop :=
  ∀ (c : Cond) (f : BranchForm) (s : State), s.cond c = true → f.link = false →
    let base := match f.base with
      | .zero => 0
      | .pc => s.nextPc f.words
      | .reg r => s.reg r
    let offset := match f.offset with
      | .short h => h.signExtend 32
      | .long v => v
    (f.indirect = false → exec (Instr.branch c f) s = .next (s.setPc (base + offset))) ∧
    (f.indirect = true → Readable s (base + offset) .l →
      exec (Instr.branch c f) s = .next (s.setPc (s.peek (base + offset) .l)))

/-- A branch that is taken, with link: nextpc is pushed on SP, four bytes, before the base is read, so that
with base SP the base is the lowered pointer, and an indirect target is read after the push. -/
def Obligations.BranchWithLink : Prop :=
  ∀ (c : Cond) (f : BranchForm) (s : State), s.Inv → s.cond c = true → f.link = true →
    Writable s (s.reg .sp - 3) .l →
    let base := match f.base with
      | .zero => 0
      | .pc => s.nextPc f.words
      | .reg r => if r = .sp then s.reg .sp - 4 else s.reg r
    let offset := match f.offset with
      | .short h => h.signExtend 32
      | .long v => v
    (f.indirect = true → Readable s (base + offset) .l) →
    ∃ t, exec (Instr.branch c f) s = .next t ∧
      t.reg .sp = s.reg .sp - 4 ∧ t.peek (s.reg .sp - 3) .l = s.nextPc f.words ∧
      t.pc = (if f.indirect then t.peek (base + offset) .l else base + offset) ∧
      RegsExcept [.sp] s t ∧ MemExcept (s.reg .sp - 3) 4 s t ∧ SameLaunch s t

/-- BRK with `W` = 0 takes the trap: nextpc in the four bytes that end at SP, P in the four below, SP lowered by
8, pc from the 16-bit vector entry at `0xFFE - 2*v`; P and every other register unchanged (60_exceptions
R272, R275, R279: decision D22). The entry is read after the pushes. -/
def Obligations.BrkTraps : Prop :=
  ∀ (q : BitVec 3) (v : BitVec 4) (s : State), s.Inv →
    Writable s (s.reg .sp - 3) .l → Writable s (s.reg .sp - 7) .l →
    Readable s (BitVec.ofNat 32 (0xFFE - 2 * v.toNat)) .w →
    ∃ t, exec (.brk false q v) s = .next t ∧
      t.peek (s.reg .sp - 3) .l = s.pc + 4 ∧ t.peek (s.reg .sp - 7) .l = s.reg .p ∧ t.reg .sp = s.reg .sp - 8 ∧
      t.pc = t.peek (BitVec.ofNat 32 (0xFFE - 2 * v.toNat)) .w ∧
      RegsExcept [.sp] s t ∧ MemExcept (s.reg .sp - 7) 8 s t ∧ SameLaunch s t

/-- BRK with `W` = 1 is refused: what it waits for is not stated (43_control R195, 60_exceptions R286, D22). -/
def Obligations.BrkWaitRefused : Prop :=
  ∀ (q : BitVec 3) (v : BitVec 4) (s : State), exec (.brk true q v) s = .refused .brkWait

/-- RTI right after BRK undoes it: every register, P and so every flag included, is as before the BRK, and pc
is the address after BRK's second word (60_exceptions R278, 43_control R203). -/
def Obligations.RtiUndoesBrk : Prop :=
  ∀ (q : BitVec 3) (v : BitVec 4) (s : State), s.Inv →
    Writable s (s.reg .sp - 3) .l → Writable s (s.reg .sp - 7) .l →
    Readable s (BitVec.ofNat 32 (0xFFE - 2 * v.toNat)) .w →
    ∃ t u, exec (.brk false q v) s = .next t ∧ exec (.rti (.reg .sp)) t = .next u ∧
      RegsExcept [] s u ∧ u.pc = s.pc + 4 ∧ MemExcept (s.reg .sp - 7) 8 s u ∧ SameLaunch s u

/-- JMP sets pc to its address, or to the four bytes there (D7), and changes nothing else. -/
def Obligations.Jumps : Prop :=
  ∀ (a : Word) (s : State),
    exec (.jmp (.direct a)) s = .next (s.setPc a) ∧
    (Readable s a .l → exec (.jmp (.indirect a)) s = .next (s.setPc (s.peek a .l)))

/-- JSR pushes the address after its third word on the named stack and jumps; RTS on that stack comes back to
it, with every register as before (43_control R201, R204: decision D23). -/
def Obligations.JsrThenRts : Prop :=
  ∀ (r : Reg) (a : Word) (s : State), s.Inv → Writable s (s.reg r - 3) .l →
    ∃ t, exec (.jsr (.reg r) a) s = .next t ∧
      t.pc = a ∧ t.reg r = s.reg r - 4 ∧ t.peek (s.reg r - 3) .l = s.pc + 6 ∧
      RegsExcept [r] s t ∧ MemExcept (s.reg r - 3) 4 s t ∧ SameLaunch s t ∧
      ∃ u, exec (.rts (.reg r)) t = .next u ∧ u.pc = s.pc + 6 ∧ RegsExcept [] s u ∧ MemSame t u

/-- RTS pulls pc from the named stack and adds nothing to it. -/
def Obligations.RtsReturns : Prop :=
  ∀ (r : Reg) (s : State), Readable s (s.reg r + 1) .l →
    ∃ t, exec (.rts (.reg r)) s = .next t ∧
      t.pc = s.peek (s.reg r + 1) .l ∧ t.reg r = s.reg r + 4 ∧ RegsExcept [r] s t ∧ MemSame s t ∧ SameLaunch s t

/-- RTI pulls P, all of it, and then pc from the named stack (60_exceptions R274, R278: decision D22). -/
def Obligations.RtiReturns : Prop :=
  ∀ (r : Reg) (s : State), r ≠ .p → Readable s (s.reg r + 1) .l → Readable s (s.reg r + 5) .l →
    ∃ t, exec (.rti (.reg r)) s = .next t ∧
      t.reg .p = s.peek (s.reg r + 1) .l ∧ t.pc = s.peek (s.reg r + 5) .l ∧ t.reg r = s.reg r + 8 ∧
      RegsExcept [r, .p] s t ∧ MemSame s t ∧ SameLaunch s t

/-- NOP is the word `n << 8 | 0xEA`, of one cycle; it steps over itself and `n` words, which are neither fetched nor
decoded nor checked, and changes nothing else. A step at that word does so, whatever stands in the words
after it, mapped or not (43_control R202, 30_encoding R69, R99), but for a NOP whose words straddle the top of memory,
which is refused as any instruction there (10_state R27, D11, U19; that its skipped words count is DEDUCED, log 15).
The fields of `s.setPc` other than pc are those of `s`. -/
def Obligations.NopSkips : Prop :=
  ∀ (n : BitVec 8) (s : State),
    (∀ ext, decode (BitVec.ofNat 16 (n.toNat * 256 + 0xEA) :: ext) = .ok (.nop n, ext)) ∧ (Instr.nop n).words = n.toNat + 1 ∧
    cycles (.nop n) = 1 ∧
    exec (.nop n) s = .next (s.setPc (s.pc + BitVec.ofNat 32 ((n.toNat + 1) * 2))) ∧
    (s.haltPc ≠ some s.pc → s.pc.toNat % 2 = 0 →
      inRegions s.mapped s.pc = true → inRegions s.mapped (s.pc + 1) = true →
      s.byte s.pc = 0xEA → s.byte (s.pc + 1) = n →
      (s.pc.toNat + 2 * (n.toNat + 1) ≤ 2 ^ 32 →
        step s = .next (s.setPc (s.pc + BitVec.ofNat 32 ((n.toNat + 1) * 2)))) ∧
      (2 ^ 32 < s.pc.toNat + 2 * (n.toNat + 1) → step s = .refused .misalignedFetch))

/-- PC and 0 as a stack pointer are refused, by each of the five instructions that name one (D24). -/
def Obligations.StackPointerRefused : Prop :=
  ∀ (rs : Index) (s : State) (a : Word) (sz : Size) (rd : Slot), rs = .pc ∨ rs = .zero →
    exec (.jsr rs a) s = .refused .stackPointer ∧ exec (.rti rs) s = .refused .stackPointer ∧
    exec (.rts rs) s = .refused .stackPointer ∧ exec (.psh sz rd rs) s = .refused .stackPointer ∧
    exec (.pul sz rd rs) s = .refused .stackPointer

/-! Single bits: CBT, SBT, TBT, XBT. -/

/-- CBT, SBT and XBT on a register, P included: bit `b` becomes 0, 1 or its complement, every other bit of the
register stays, and no flag changes but the one that is the bit itself (D21, D29). -/
def Obligations.BitOnRegister : Prop :=
  ∀ (rd : Reg) (b : BitVec 5) (s : State),
    (∃ t, exec (.cbt (.reg rd) b) s = .next t ∧
      (∀ k < 32, (t.reg rd).getLsbD k = if k = b.toNat then false else (s.reg rd).getLsbD k) ∧
      RegsExcept [rd] s t ∧ MemSame s t ∧ SameLaunch s t ∧ t.pc = s.pc + 2) ∧
    (∃ t, exec (.sbt (.reg rd) b) s = .next t ∧
      (∀ k < 32, (t.reg rd).getLsbD k = if k = b.toNat then true else (s.reg rd).getLsbD k) ∧
      RegsExcept [rd] s t ∧ MemSame s t ∧ SameLaunch s t ∧ t.pc = s.pc + 2) ∧
    (∃ t, exec (.xbt (.reg rd) b) s = .next t ∧
      (∀ k < 32, (t.reg rd).getLsbD k = if k = b.toNat then !(s.reg rd).getLsbD k else (s.reg rd).getLsbD k) ∧
      RegsExcept [rd] s t ∧ MemSame s t ∧ SameLaunch s t ∧ t.pc = s.pc + 2)

/-- CBT, SBT and XBT on the four bytes at address plus index (D28). -/
def Obligations.BitOnMemory : Prop :=
  ∀ (a : Word) (ri : Index) (b : BitVec 5) (s : State), s.Inv →
    let ea := a + (match ri with
      | .zero => 0
      | .pc => s.pc + 6
      | .reg r => s.reg r)
    Writable s ea .l →
    (∃ t, exec (.cbt (.mem a ri) b) s = .next t ∧
      (∀ k < 32, (t.peek ea .l).getLsbD k = if k = b.toNat then false else (s.peek ea .l).getLsbD k) ∧
      RegsExcept [] s t ∧ MemExcept ea 4 s t ∧ SameLaunch s t ∧ t.pc = s.pc + 6) ∧
    (∃ t, exec (.sbt (.mem a ri) b) s = .next t ∧
      (∀ k < 32, (t.peek ea .l).getLsbD k = if k = b.toNat then true else (s.peek ea .l).getLsbD k) ∧
      RegsExcept [] s t ∧ MemExcept ea 4 s t ∧ SameLaunch s t ∧ t.pc = s.pc + 6) ∧
    (∃ t, exec (.xbt (.mem a ri) b) s = .next t ∧
      (∀ k < 32, (t.peek ea .l).getLsbD k = if k = b.toNat then !(s.peek ea .l).getLsbD k else (s.peek ea .l).getLsbD k) ∧
      RegsExcept [] s t ∧ MemExcept ea 4 s t ∧ SameLaunch s t ∧ t.pc = s.pc + 6)

/-- TBT: Z becomes the complement of bit `b` of the operand, a register as it stood before or a word of memory,
which need not be writable; nothing else is written (44_bitops R224). -/
def Obligations.BitIsTested : Prop :=
  ∀ (b : BitVec 5) (s : State),
    (∀ rd : Reg, ∃ t, exec (.tbt (.reg rd) b) s = .next t ∧
      t.flag Params.flagZ = !(s.reg rd).getLsbD b.toNat ∧
      RegsExcept [.p] s t ∧ PBitsExcept [Params.flagZ] s t ∧ MemSame s t ∧ SameLaunch s t ∧ t.pc = s.pc + 2) ∧
    (∀ (a : Word) (ri : Index),
      let ea := a + (match ri with
        | .zero => 0
        | .pc => s.pc + 6
        | .reg r => s.reg r)
      Readable s ea .l →
      ∃ t, exec (.tbt (.mem a ri) b) s = .next t ∧
        t.flag Params.flagZ = !(s.peek ea .l).getLsbD b.toNat ∧
        RegsExcept [.p] s t ∧ PBitsExcept [Params.flagZ] s t ∧ MemSame s t ∧ SameLaunch s t ∧ t.pc = s.pc + 6)

/-! Moves: LDR, MOV, PSH, PUL, STR. -/

/-- LDR: the low `s` bits of `rd` become the value of the operand, N and Z come from it (45_move R241). -/
def Obligations.Loads : Prop :=
  ∀ (sz : Size) (f : LoadForm) (s : State) (v : Word), loadDest f ≠ .p →
    s.loadSource (s.nextPc (f.words sz)) sz f = .ok v →
    ∃ t, exec (.ldr sz f) s = .next t ∧
      t.readReg (loadDest f) sz = v ∧ FlagsNZ t sz v.toNat ∧
      RegsExcept [loadDest f, .p] s t ∧ PBitsExcept [Params.flagN, Params.flagZ] s t ∧
      MemSame s t ∧ SameLaunch s t ∧ t.pc = s.nextPc (f.words sz)

/-- STR: the low `s` bits of `rd` go to the effective address, N and Z come from them (45_move R248). -/
def Obligations.Stores : Prop :=
  ∀ (sz : Size) (rd : Reg) (m : MemOp) (s : State) (ea : Addr), s.Inv →
    s.effAddr (s.nextPc (1 + m.words)) m = .ok ea → Writable s ea sz →
    ∃ t, exec (.str sz rd m) s = .next t ∧
      t.peek ea sz = s.readReg rd sz ∧ FlagsNZ t sz (s.readReg rd sz).toNat ∧
      RegsExcept [.p] s t ∧ PBitsExcept [Params.flagN, Params.flagZ] s t ∧
      MemExcept ea sz.bytes s t ∧ SameLaunch s t ∧ t.pc = s.nextPc (1 + m.words)

/-- MOV: the low `s` bits move. Where the destination is not P, N and Z come from the value and C and V are open
(D20, log 5); where it is P, the value moved is what P receives, with no flag update on top (D21). -/
def Obligations.Moves : Prop :=
  ∀ (sz : Size) (row : MovRow) (rd rs : Reg) (s : State),
    ∃ t, exec (.mov sz row rd rs) s = .next t ∧
      t.readReg rd sz = s.readReg rs sz ∧ RegsExcept [rd, .p] s t ∧
      (rd ≠ .p → FlagsNZ t sz (s.readReg rs sz).toNat ∧
        PBitsExcept [Params.flagN, Params.flagZ, Params.flagC, Params.flagV] s t) ∧
      MemSame s t ∧ SameLaunch s t ∧ t.pc = s.pc + 2

/-- PSH: the value, read before the pointer moves, goes to the bytes that end at the pointer; the pointer is
lowered; N and Z come from the value. PC, which is pushed at size `l` only (D36), presents the address of the next
instruction (D5, D6, D31). -/
def Obligations.Pushes : Prop :=
  ∀ (sz : Size) (rd : Slot) (r : Reg) (s : State), slotWf sz rd = true → s.Inv → r ≠ .p →
    let n := BitVec.ofNat 32 sz.bytes
    let v := match rd with
      | .pc => trunc sz (s.pc + 2)
      | .reg q => s.readReg q sz
    Writable s (s.reg r - n + 1) sz →
    ∃ t, exec (.psh sz rd (.reg r)) s = .next t ∧
      t.peek (s.reg r - n + 1) sz = v ∧ t.reg r = s.reg r - n ∧ FlagsNZ t sz v.toNat ∧
      RegsExcept [r, .p] s t ∧ PBitsExcept [Params.flagN, Params.flagZ] s t ∧
      MemExcept (s.reg r - n + 1) sz.bytes s t ∧ SameLaunch s t ∧ t.pc = s.pc + 2

/-- PUL: the value above the pointer goes to the destination and the pointer is raised first, so that a
destination that is the pointer keeps the value (D31). To a register, N and Z come from the value; to P, the
value is all that P receives (D21); to PC, at size `l` only (D36), a return, with N and Z from the value. -/
def Obligations.Pulls : Prop :=
  ∀ (sz : Size) (r : Reg) (s : State), r ≠ .p → Readable s (s.reg r + 1) sz →
    let n := BitVec.ofNat 32 sz.bytes
    let v := s.peek (s.reg r + 1) sz
    (∀ q : Reg, q ≠ .p → ∃ t, exec (.pul sz (.reg q) (.reg r)) s = .next t ∧
      t.readReg q sz = v ∧ (q ≠ r → t.reg r = s.reg r + n) ∧ FlagsNZ t sz v.toNat ∧
      RegsExcept [q, r, .p] s t ∧ PBitsExcept [Params.flagN, Params.flagZ] s t ∧
      MemSame s t ∧ SameLaunch s t ∧ t.pc = s.pc + 2) ∧
    (∃ t, exec (.pul sz (.reg .p) (.reg r)) s = .next t ∧
      t.readReg .p sz = v ∧ t.reg r = s.reg r + n ∧ RegsExcept [r, .p] s t ∧
      MemSame s t ∧ SameLaunch s t ∧ t.pc = s.pc + 2) ∧
    (sz = .l → ∃ t, exec (.pul sz .pc (.reg r)) s = .next t ∧
      t.pc = v ∧ t.reg r = s.reg r + n ∧ FlagsNZ t sz v.toNat ∧
      RegsExcept [r, .p] s t ∧ PBitsExcept [Params.flagN, Params.flagZ] s t ∧ MemSame s t ∧ SameLaunch s t)

/-- PUL after PSH of the same register, size and stack restores the low `s` bits of the register and the
pointer (45_move R246). Where the register is its own stack pointer, the value pushed is the pointer as it stood
before, and the value pulled is what the register keeps (D31). -/
def Obligations.PulUndoesPsh : Prop :=
  ∀ (sz : Size) (q r : Reg) (s : State), s.Inv → r ≠ .p →
    Writable s (s.reg r - BitVec.ofNat 32 sz.bytes + 1) sz →
    ∃ t u, exec (.psh sz (.reg q) (.reg r)) s = .next t ∧ exec (.pul sz (.reg q) (.reg r)) t = .next u ∧
      u.readReg q sz = s.readReg q sz ∧ (q ≠ r → u.reg r = s.reg r) ∧ RegsExcept [q, .p] s u ∧ MemSame t u ∧ SameLaunch s u
end

