-- ==== Sys2Proof/Laws/Bits.lean ====
section
/-! SUPPORT. The value primitives, once each: bits, sizes and the bytes of a word. -/

namespace Sys2Proof

@[simp] theorem Size.bits_b : Size.bits .b = 8 := rfl
@[simp] theorem Size.bits_w : Size.bits .w = 16 := rfl
@[simp] theorem Size.bits_l : Size.bits .l = 32 := rfl
@[simp] theorem Size.bytes_b : Size.bytes .b = 1 := rfl
@[simp] theorem Size.bytes_w : Size.bytes .w = 2 := rfl
@[simp] theorem Size.bytes_l : Size.bytes .l = 4 := rfl
@[simp] theorem Size.mask_b : Size.mask .b = 0xFF := rfl
@[simp] theorem Size.mask_w : Size.mask .w = 0xFFFF := rfl
@[simp] theorem Size.mask_l : Size.mask .l = 0xFFFFFFFF := rfl

theorem Size.bits_eq (sz : Size) : sz.bits = 8 * sz.bytes := by cases sz <;> rfl
theorem Size.bits_pos (sz : Size) : 0 < sz.bits := by cases sz <;> decide
theorem Size.bits_le (sz : Size) : sz.bits ≤ 32 := by cases sz <;> decide

/-- The mask of a size has exactly bits `s-1:0`. -/
theorem Size.getLsbD_mask (sz : Size) (i : Nat) : sz.mask.getLsbD i = decide (i < sz.bits) := by
  by_cases h : i < 32
  · cases sz <;> interval_cases i <;> rfl
  · have := sz.bits_le
    rw [BitVec.getLsbD_of_ge _ _ (by omega)]
    exact (decide_eq_false (by omega)).symm

/-- `trunc_s` keeps bits `s-1:0`. -/
theorem getLsbD_trunc (sz : Size) (v : Word) (i : Nat) :
    (trunc sz v).getLsbD i = (decide (i < sz.bits) && v.getLsbD i) := by
  rw [trunc, BitVec.getLsbD_and, Size.getLsbD_mask, Bool.and_comm]

@[simp] theorem trunc_l (v : Word) : trunc .l v = v := by
  apply BitVec.eq_of_getLsbD_eq
  intro i hi
  rw [getLsbD_trunc, decide_eq_true (by simpa using hi), Bool.true_and]

@[simp] theorem trunc_trunc (sz : Size) (v : Word) : trunc sz (trunc sz v) = trunc sz v := by
  apply BitVec.eq_of_getLsbD_eq
  intro i _
  simp only [getLsbD_trunc]
  cases decide (i < sz.bits) <;> rfl

/-- Truncation as arithmetic. -/
theorem toNat_trunc (sz : Size) (v : Word) : (trunc sz v).toNat = v.toNat % 2 ^ sz.bits := by
  apply Nat.eq_of_testBit_eq
  intro i
  rw [Nat.testBit_mod_two_pow]
  exact getLsbD_trunc sz v i

theorem toNat_trunc_lt (sz : Size) (v : Word) : (trunc sz v).toNat < 2 ^ sz.bits := by
  rw [toNat_trunc]
  exact Nat.mod_lt _ (Nat.two_pow_pos _)

/-- The bits of a merged word. -/
theorem getLsbD_merge (sz : Size) (hi v : Word) (i : Nat) :
    (merge sz hi v).getLsbD i = if i < sz.bits then v.getLsbD i else hi.getLsbD i := by
  rw [merge, BitVec.getLsbD_or, BitVec.getLsbD_and, BitVec.getLsbD_not, Size.getLsbD_mask, getLsbD_trunc]
  by_cases h : i < sz.bits
  · simp [h]
  · by_cases h' : i < 32
    · simp [h, h']
    · simp [h, BitVec.getLsbD_of_ge hi i (by omega)]

@[simp] theorem trunc_merge (sz : Size) (hi v : Word) : trunc sz (merge sz hi v) = trunc sz v := by
  apply BitVec.eq_of_getLsbD_eq
  intro i _
  simp only [getLsbD_trunc, getLsbD_merge]
  by_cases h : i < sz.bits <;> simp [h]

@[simp] theorem signBit_trunc (sz : Size) (v : Word) : signBit sz (trunc sz v) = signBit sz v := by
  have := sz.bits_pos
  rw [signBit, getLsbD_trunc, decide_eq_true (by omega), Bool.true_and, signBit]

/-- The bit a mask has. -/
theorem getLsbD_bitMask (i j : Nat) : (bitMask i).getLsbD j = (decide (j < 32) && decide (j = i)) := by
  simp only [bitMask, BitVec.getLsbD_shiftLeft, BitVec.getLsbD_one]
  rw [Bool.eq_iff_iff]
  simp only [Bool.and_eq_true, decide_eq_true_eq, Bool.not_eq_true', decide_eq_false_iff_not]
  omega

/-- Setting bit `i` sets that bit and no other. -/
theorem getLsbD_setBit (w : Word) (i j : Nat) (b : Bool) (hi : i < 32) :
    (setBit w i b).getLsbD j = if j = i then b else w.getLsbD j := by
  unfold setBit
  by_cases hj : j < 32
  · cases b <;> by_cases h : j = i <;>
      simp only [Bool.false_eq_true, if_true, if_false, BitVec.getLsbD_or, BitVec.getLsbD_and,
        BitVec.getLsbD_not, getLsbD_bitMask, h, hj, hi, decide_true, decide_false, Bool.not_true,
        Bool.not_false, Bool.and_true, Bool.and_false, Bool.or_true, Bool.or_false]
  · have hne : j ≠ i := by omega
    rw [if_neg hne, BitVec.getLsbD_of_ge w j (by omega)]
    exact BitVec.getLsbD_of_ge _ _ (by omega)

/-! The bytes of a word. -/

theorem length_bytesOfWord (n : Nat) (v : Word) : (bytesOfWord n v).length = n := by
  induction n generalizing v with
  | zero => rfl
  | succ n ih => simp [bytesOfWord, ih]

@[simp] theorem length_splitBytes (n : Nat) (v : Word) : (splitBytes n v).length = n := by
  simp [splitBytes, length_bytesOfWord]

/-- Byte `k` of the bytes of a word is bits `8k+7:8k`. -/
theorem getElem_splitBytes (n : Nat) (v : Word) (k : Nat) (h : k < (splitBytes n v).length) :
    (splitBytes n v)[k] = (v >>> (8 * k)).setWidth 8 := by
  have key : ∀ (n : Nat) (v : Word) (k : Nat) (h : k < (bytesOfWord n v).length),
      (bytesOfWord n v)[k] = (v >>> (8 * k)).setWidth 8 := by
    intro n
    induction n with
    | zero => intro v k h; simp [bytesOfWord] at h
    | succ n ih =>
      intro v k h
      cases k with
      | zero => simp [bytesOfWord]
      | succ k =>
        simp only [bytesOfWord, List.getElem_cons_succ]
        rw [ih, ← BitVec.shiftRight_add, Nat.mul_add, Nat.add_comm]
  exact key n v k (by simpa [splitBytes] using h)

/-- The value of one, two and four bytes, the byte at the lowest address lowest (20_memory R40). -/
theorem joinBytes_one (b : Byte) : joinBytes [b] = b.setWidth 32 := by
  simp [joinBytes, wordOfBytes]

theorem joinBytes_two (b c : Byte) : joinBytes [b, c] = (c ++ b).setWidth 32 := by
  apply BitVec.eq_of_getLsbD_eq
  intro i hi
  simp only [joinBytes, wordOfBytes, Params.endian, BitVec.getLsbD_or, BitVec.getLsbD_shiftLeft,
    BitVec.getLsbD_setWidth, BitVec.getLsbD_append]
  interval_cases i <;> simp

theorem joinBytes_four (b c d e : Byte) : joinBytes [b, c, d, e] = e ++ d ++ c ++ b := by
  apply BitVec.eq_of_getLsbD_eq
  intro i hi
  simp only [joinBytes, wordOfBytes, Params.endian, BitVec.getLsbD_or, BitVec.getLsbD_shiftLeft,
    BitVec.getLsbD_setWidth, BitVec.getLsbD_append]
  interval_cases i <;> simp

/-- The bytes of a word read back as the word, to the width stored. -/
theorem joinBytes_splitBytes (sz : Size) (v : Word) : joinBytes (splitBytes sz.bytes v) = trunc sz v := by
  apply BitVec.eq_of_getLsbD_eq
  intro i hi
  rw [getLsbD_trunc]
  cases sz <;>
    simp only [Size.bytes, Size.bits, splitBytes, Params.endian, bytesOfWord, joinBytes, wordOfBytes,
      BitVec.getLsbD_or, BitVec.getLsbD_shiftLeft, BitVec.getLsbD_setWidth, BitVec.getLsbD_ushiftRight] <;>
    interval_cases i <;> simp

end Sys2Proof
end

