-- ==== Sys2Proof/Laws/Decode.lean ====
section
/-! SUPPORT. The encoding, once each: a list read both ways, the map of low bytes read both ways, the fields of a
first word, and the operands in the words that follow. -/

namespace Sys2Proof

/-! Field lists. -/

/-- No name stands twice in a list. -/
def Distinct {α : Type} (l : List (Option α)) : Prop :=
  ∀ (i j : Nat) (x : α), l[i]? = some (some x) → l[j]? = some (some x) → i = j

theorem nameOf_eq_some {α : Type} {l : List (Option α)} {k : Nat} {x : α} :
    nameOf l k = some x ↔ l[k]? = some (some x) := by
  simp [nameOf, Option.join_eq_some_iff]

/-- The code of a name names it, and is a position of the list. -/
theorem nameOf_of_codeOf {α : Type} [DecidableEq α] {l : List (Option α)} {k : Nat} {x : α}
    (h : codeOf l x = some k) : nameOf l k = some x ∧ k < l.length := by
  rw [codeOf, List.findIdx?_eq_some_iff_getElem] at h
  obtain ⟨hk, hx, -⟩ := h
  refine ⟨?_, hk⟩
  rw [nameOf_eq_some, List.getElem?_eq_getElem hk]
  exact congrArg some (of_decide_eq_true hx)

/-- What a code of a list of distinct names names has that code. -/
theorem codeOf_of_nameOf {α : Type} [DecidableEq α] {l : List (Option α)} (hl : Distinct l) {k : Nat} {x : α}
    (h : nameOf l k = some x) : codeOf l x = some k := by
  rw [nameOf_eq_some] at h
  rw [codeOf, List.findIdx?_eq_some_iff_getElem]
  obtain ⟨hk, he⟩ := List.getElem?_eq_some_iff.mp h
  refine ⟨hk, by simp [he], fun j hj => ?_⟩
  intro hd
  have hjl : j < l.length := by omega
  have hx : l[j]? = some (some x) := by
    rw [List.getElem?_eq_getElem hjl]
    exact congrArg some (of_decide_eq_true hd)
  have := hl j k x hx h
  omega

/-- A list is distinct if no name is found before its place. -/
theorem distinct_of_forall {α : Type} [DecidableEq α] {l : List (Option α)}
    (h : ∀ i < l.length, ∀ j < l.length, l[i]? = l[j]? → l[i]? = some none ∨ i = j) : Distinct l := by
  intro i j x hi hj
  have hil := (List.getElem?_eq_some_iff.mp hi).1
  have hjl := (List.getElem?_eq_some_iff.mp hj).1
  rcases h i hil j hjl (hi.trans hj.symm) with h0 | h0
  · rw [hi] at h0
    simp at h0
  · exact h0

theorem distinct_listAAAA : Distinct listAAAA := distinct_of_forall (by decide)
theorem distinct_group (g : Group) : Distinct g.list := by
  cases g <;> exact distinct_of_forall (by decide)
theorem distinct_listSSS : Distinct listSSS := distinct_of_forall (by decide)
theorem distinct_mode (m : AddrMode) : Distinct m.list := by
  obtain l | l | _ | _ := m
  · cases l <;> exact distinct_of_forall (by decide)
  · cases l <;> exact distinct_of_forall (by decide)
  · exact distinct_of_forall (by decide)
  · exact distinct_of_forall (by decide)
theorem distinct_unary (l : UnaryList) : Distinct l.list := by
  cases l <;> exact distinct_of_forall (by decide)
theorem distinct_listBcc : Distinct listBcc := distinct_of_forall (by decide)
theorem distinct_listCCCC : Distinct listCCCC := distinct_of_forall (by decide)
theorem distinct_listBitR : Distinct listBitR := distinct_of_forall (by decide)
theorem distinct_listBitX : Distinct listBitX := distinct_of_forall (by decide)
theorem distinct_bitGroup (g : BitGroup) : Distinct g.list := by
  cases g <;> exact distinct_of_forall (by decide)
theorem distinct_movRd (r : MovRow) : Distinct r.rdList := by
  cases r <;> exact distinct_of_forall (by decide)
theorem distinct_movRs (r : MovRow) : Distinct r.rsList := by
  cases r <;> exact distinct_of_forall (by decide)
theorem distinct_listStack : Distinct listStack := distinct_of_forall (by decide)
theorem distinct_slot (l : SlotList) : Distinct l.list := by
  cases l <;> exact distinct_of_forall (by decide)
theorem distinct_listDD : Distinct listDD := distinct_of_forall (by decide)
theorem distinct_aluPair (p : AluPair) : Distinct p.list := by
  cases p <;> exact distinct_of_forall (by decide)
theorem distinct_shiftPair (p : ShiftPair) : Distinct p.list := by
  cases p <;> exact distinct_of_forall (by decide)
theorem distinct_bitPair (p : BitPair) : Distinct p.list := by
  cases p <;> exact distinct_of_forall (by decide)
theorem distinct_unaryOps : Distinct unaryOps := distinct_of_forall (by decide)

/-! The map of low bytes. -/

/-- The low byte of a row selects the row, and is a byte. -/
theorem shapeOf_of_lowByteOf {sh : Shape} {lo : Nat} (h : lowByteOf sh = some lo) :
    shapeOf lo = some sh ∧ lo < 256 := by
  have all : ∀ r ∈ opcodeMap, shapeOf r.1 = some r.2 ∧ r.1 < 256 := by decide +kernel
  rw [lowByteOf, Option.map_eq_some_iff] at h
  obtain ⟨r, hr, rfl⟩ := h
  have hs := List.find?_some hr
  obtain rfl := of_decide_eq_true hs
  exact all r (List.mem_of_find?_eq_some hr)

/-- The row a low byte selects has that low byte. -/
theorem lowByteOf_of_shapeOf {sh : Shape} {lo : Nat} (h : shapeOf lo = some sh) : lowByteOf sh = some lo := by
  have all : ∀ r ∈ opcodeMap, lowByteOf r.2 = some r.1 := by decide +kernel
  rw [shapeOf, Option.map_eq_some_iff] at h
  obtain ⟨r, hr, rfl⟩ := h
  have hs := List.find?_some hr
  rw [beq_iff_eq] at hs
  rw [← hs]
  exact all r (List.mem_of_find?_eq_some hr)

/-! The fields of a first word. -/

/-- A field is smaller than its width allows. -/
theorem field_lt (w : Half) (hi lo : Nat) : field w hi lo < 2 ^ (hi + 1 - lo) := Nat.mod_lt _ (Nat.two_pow_pos _)

/-- The fields of Formats A and K are read as they were put in. -/
theorem fields_formatA {t f2 f3 dd lo : Nat} (ht : t < 2) (h2 : f2 < 4) (h3 : f3 < 8) (hd : dd < 4) (hl : lo < 256) :
    field (formatA t f2 f3 dd lo) 15 15 = t ∧ field (formatA t f2 f3 dd lo) 14 13 = f2 ∧
    field (formatA t f2 f3 dd lo) 12 10 = f3 ∧ field (formatA t f2 f3 dd lo) 9 8 = dd ∧
    field (formatA t f2 f3 dd lo) 7 0 = lo ∧ field (formatA t f2 f3 dd lo) 15 13 = t * 4 + f2 := by
  simp only [field, formatA, BitVec.toNat_ofNat]
  omega

theorem fields_formatB {t rd dd lo : Nat} (ht : t < 2) (hr : rd < 16) (hd : dd < 4) (hl : lo < 256) :
    field (formatB t rd dd lo) 15 15 = t ∧ field (formatB t rd dd lo) 14 11 = rd ∧
    field (formatB t rd dd lo) 10 10 = 0 ∧ field (formatB t rd dd lo) 9 8 = dd ∧
    field (formatB t rd dd lo) 7 0 = lo := by
  simp only [field, formatB, BitVec.toNat_ofNat]
  omega

theorem fields_formatC {t m rd dd lo : Nat} (ht : t < 2) (hm : m < 2) (hr : rd < 16) (hd : dd < 4) (hl : lo < 256) :
    field (formatC t m rd dd lo) 15 15 = t ∧ field (formatC t m rd dd lo) 14 14 = m ∧
    field (formatC t m rd dd lo) 13 10 = rd ∧ field (formatC t m rd dd lo) 9 8 = dd ∧
    field (formatC t m rd dd lo) 7 0 = lo := by
  simp only [field, formatC, BitVec.toNat_ofNat]
  omega

theorem fields_formatD {c d ind l rs lo : Nat} (hc : c < 2) (hd : d < 2) (hi : ind < 2) (hk : l < 2) (hr : rs < 16)
    (hl : lo < 256) :
    field (formatD c d ind l rs lo) 15 15 = c ∧ field (formatD c d ind l rs lo) 14 14 = d ∧
    field (formatD c d ind l rs lo) 13 13 = ind ∧ field (formatD c d ind l rs lo) 12 12 = l ∧
    field (formatD c d ind l rs lo) 11 8 = rs ∧ field (formatD c d ind l rs lo) 7 0 = lo := by
  simp only [field, formatD, BitVec.toNat_ofNat]
  omega

theorem fields_formatF {t b3 r4 lo : Nat} (ht : t < 2) (hb : b3 < 8) (hr : r4 < 16) (hl : lo < 256) :
    field (formatF t b3 r4 lo) 15 15 = t ∧ field (formatF t b3 r4 lo) 14 12 = b3 ∧
    field (formatF t b3 r4 lo) 11 8 = r4 ∧ field (formatF t b3 r4 lo) 7 0 = lo := by
  simp only [field, formatF, BitVec.toNat_ofNat]
  omega

theorem fields_formatG {rd rs dd lo : Nat} (hd : rd < 8) (hs : rs < 8) (hz : dd < 4) (hl : lo < 256) :
    field (formatG rd rs dd lo) 15 13 = rd ∧ field (formatG rd rs dd lo) 12 10 = rs ∧
    field (formatG rd rs dd lo) 9 8 = dd ∧ field (formatG rd rs dd lo) 7 0 = lo := by
  simp only [field, formatG, BitVec.toNat_ofNat]
  omega

/-- A first word is put together again from its fields, in each format. -/
theorem formatA_fields (w : Half) :
    formatA (field w 15 15) (field w 14 13) (field w 12 10) (field w 9 8) (field w 7 0) = w := by
  apply BitVec.eq_of_toNat_eq
  simp only [field, formatA, BitVec.toNat_ofNat]
  have := w.isLt
  omega

theorem formatB_fields (w : Half) (h : field w 10 10 = 0) :
    formatB (field w 15 15) (field w 14 11) (field w 9 8) (field w 7 0) = w := by
  apply BitVec.eq_of_toNat_eq
  simp only [field, formatB, BitVec.toNat_ofNat] at *
  have := w.isLt
  omega

theorem formatC_fields (w : Half) :
    formatC (field w 15 15) (field w 14 14) (field w 13 10) (field w 9 8) (field w 7 0) = w := by
  apply BitVec.eq_of_toNat_eq
  simp only [field, formatC, BitVec.toNat_ofNat]
  have := w.isLt
  omega

theorem formatD_fields (w : Half) :
    formatD (field w 15 15) (field w 14 14) (field w 13 13) (field w 12 12) (field w 11 8) (field w 7 0) = w := by
  apply BitVec.eq_of_toNat_eq
  simp only [field, formatD, BitVec.toNat_ofNat]
  have := w.isLt
  omega

theorem formatF_fields (w : Half) :
    formatF (field w 15 15) (field w 14 12) (field w 11 8) (field w 7 0) = w := by
  apply BitVec.eq_of_toNat_eq
  simp only [field, formatF, BitVec.toNat_ofNat]
  have := w.isLt
  omega

theorem formatG_fields (w : Half) :
    formatG (field w 15 13) (field w 12 10) (field w 9 8) (field w 7 0) = w := by
  apply BitVec.eq_of_toNat_eq
  simp only [field, formatG, BitVec.toNat_ofNat]
  have := w.isLt
  omega

/-! The words that follow. -/

theorem toNat_pairHalves (hi lo : Half) : (pairHalves hi lo).toNat = hi.toNat * 65536 + lo.toNat := by
  rw [pairHalves, BitVec.toNat_append, ← Nat.shiftLeft_add_eq_or_of_lt lo.isLt, Nat.shiftLeft_eq]

/-- A two-word operand is read as it was written. -/
@[simp] theorem takeWord_halvesOfWord (v : Word) (rest : List Half) :
    takeWord (halvesOfWord v ++ rest) = .ok (v, rest) := by
  simp only [halvesOfWord, Params.wordOrder, List.cons_append, List.nil_append, takeWord, wordOfHalves]
  congr 2
  apply BitVec.eq_of_toNat_eq
  rw [toNat_pairHalves]
  bv_omega

/-- The words of a two-word operand are those it was read from. -/
theorem takeWord_eq_ok {ext rest : List Half} {v : Word} (h : takeWord ext = .ok (v, rest)) :
    ext = halvesOfWord v ++ rest := by
  obtain _ | ⟨a, _ | ⟨b, ext⟩⟩ := ext <;> simp only [takeWord, Except.ok.injEq, Prod.mk.injEq, reduceCtorEq] at h
  obtain ⟨rfl, rfl⟩ := h
  simp only [halvesOfWord, Params.wordOrder, wordOfHalves, List.cons_append, List.nil_append]
  have e := toNat_pairHalves b a
  have := a.isLt
  congr 1
  · apply BitVec.eq_of_toNat_eq
    rw [BitVec.toNat_setWidth, e]
    omega
  · congr 1
    apply BitVec.eq_of_toNat_eq
    have := b.isLt
    rw [BitVec.toNat_setWidth, BitVec.toNat_ushiftRight, e, Nat.shiftRight_eq_div_pow]
    omega

theorem takeHalf_eq_ok {ext rest : List Half} {h : Half} (e : takeHalf ext = .ok (h, rest)) : ext = h :: rest := by
  obtain _ | ⟨a, ext⟩ := ext <;> simp only [takeHalf, Except.ok.injEq, Prod.mk.injEq, reduceCtorEq] at e
  obtain ⟨rfl, rfl⟩ := e
  rfl

/-- An immediate of exactly `s` bits is read as it was written. -/
theorem takeImm_encodeImm {sz : Size} {v : Word} (h : immWf sz v = true) (rest : List Half) :
    takeImm sz (encodeImm sz v ++ rest) = .ok (v, rest) := by
  rw [immWf, beq_iff_eq] at h
  have hn := congrArg BitVec.toNat h
  rw [toNat_trunc] at hn
  cases sz with
  | l => exact takeWord_halvesOfWord v rest
  | w =>
    simp only [encodeImm, List.cons_append, List.nil_append, takeImm, takeHalf, bind, Except.bind]
    congr 2
    simp only [Size.bits_w] at hn
    bv_omega
  | b =>
    simp only [Size.bits_b] at hn
    simp only [encodeImm, List.cons_append, List.nil_append, takeImm, takeHalf, bind, Except.bind]
    rw [if_pos (by simp only [BitVec.toNat_setWidth]; omega)]
    congr 2
    bv_omega

/-- An immediate that was read has exactly `s` bits, and its words are those it was read from. -/
theorem takeImm_eq_ok {sz : Size} {ext rest : List Half} {v : Word} (h : takeImm sz ext = .ok (v, rest)) :
    immWf sz v = true ∧ ext = encodeImm sz v ++ rest := by
  simp only [immWf, beq_iff_eq]
  cases sz with
  | l => exact ⟨(trunc_l v).symm, takeWord_eq_ok h⟩
  | w =>
    obtain _ | ⟨a, ext⟩ := ext <;>
      simp only [takeImm, takeHalf, bind, Except.bind, Except.ok.injEq, Prod.mk.injEq, reduceCtorEq] at h
    obtain ⟨rfl, rfl⟩ := h
    refine ⟨?_, ?_⟩
    · apply BitVec.eq_of_toNat_eq
      rw [toNat_trunc]
      have := a.isLt
      simp only [BitVec.toNat_setWidth, Size.bits_w]
      omega
    · simp only [encodeImm, List.cons_append, List.nil_append]
      congr 1
      bv_omega
  | b =>
    obtain _ | ⟨a, ext⟩ := ext <;>
      simp only [takeImm, takeHalf, bind, Except.bind, reduceCtorEq] at h
    split at h
    next h0 =>
      simp only [Except.ok.injEq, Prod.mk.injEq] at h
      obtain ⟨rfl, rfl⟩ := h
      refine ⟨?_, ?_⟩
      · apply BitVec.eq_of_toNat_eq
        rw [toNat_trunc]
        have := a.isLt
        simp only [BitVec.toNat_setWidth, Size.bits_b]
        omega
      · simp only [encodeImm, List.cons_append, List.nil_append]
        congr 1
        bv_omega
    next => simp at h

/-- A memory operand is read as it was written. -/
@[simp] theorem takeMem_ext (m : MemOp) (rest : List Half) :
    takeMem m.mode m.index (m.ext ++ rest) = .ok (m, rest) := by
  cases m <;>
    simp [MemOp.mode, MemOp.index, MemOp.ext, takeMem, takeHalf, takeWord_halvesOfWord, bind, Except.bind]

/-- The words of a memory operand are those it was read from; its form and index are the given ones. -/
theorem takeMem_eq_ok {m : AddrMode} {ri : Index} {ext rest : List Half} {mo : MemOp}
    (h : takeMem m ri ext = .ok (mo, rest)) : mo.mode = m ∧ mo.index = ri ∧ ext = mo.ext ++ rest := by
  cases m with
  | abs32 l =>
    simp only [takeMem, bind, Except.bind] at h
    split at h
    next => simp at h
    next v e =>
      simp only [Except.ok.injEq, Prod.mk.injEq] at h
      obtain ⟨rfl, rfl⟩ := h
      exact ⟨rfl, rfl, takeWord_eq_ok e⟩
  | _ =>
    simp only [takeMem, bind, Except.bind] at h
    split at h
    next => simp at h
    next v e =>
      simp only [Except.ok.injEq, Prod.mk.injEq] at h
      obtain ⟨rfl, rfl⟩ := h
      exact ⟨rfl, rfl, takeHalf_eq_ok e⟩

end Sys2Proof
end

