-- ==== Sys2Proof/Laws/State.lean ====
section
/-! SUPPORT. What each update of the state does to each of its fields. -/

namespace Sys2Proof.Machine

/-- Reading a register back after a write of any register. -/
theorem Regs.get_set (rs : Regs) (r r' : Reg) (v : Word) :
    (rs.set r v).get r' = if r' = r then v else rs.get r' := by
  cases r <;> cases r' <;> rfl

@[simp] theorem State.reg_setReg (s : State) (r r' : Reg) (v : Word) :
    (s.setReg r v).reg r' = if r' = r then v else s.reg r' := Regs.get_set _ _ _ _
@[simp] theorem State.pc_setReg (s : State) (r : Reg) (v : Word) : (s.setReg r v).pc = s.pc := rfl
@[simp] theorem State.mem_setReg (s : State) (r : Reg) (v : Word) : (s.setReg r v).mem = s.mem := rfl
@[simp] theorem State.mapped_setReg (s : State) (r : Reg) (v : Word) : (s.setReg r v).mapped = s.mapped := rfl
@[simp] theorem State.text_setReg (s : State) (r : Reg) (v : Word) : (s.setReg r v).text = s.text := rfl
@[simp] theorem State.haltPc_setReg (s : State) (r : Reg) (v : Word) : (s.setReg r v).haltPc = s.haltPc := rfl
@[simp] theorem State.supplied_setReg (s : State) (r : Reg) (v : Word) : (s.setReg r v).supplied = s.supplied := rfl
@[simp] theorem State.draws_setReg (s : State) (r : Reg) (v : Word) : (s.setReg r v).draws = s.draws := rfl

@[simp] theorem State.reg_setPc (s : State) (t : Addr) (r : Reg) : (s.setPc t).reg r = s.reg r := rfl
@[simp] theorem State.pc_setPc (s : State) (t : Addr) : (s.setPc t).pc = t := rfl
@[simp] theorem State.mem_setPc (s : State) (t : Addr) : (s.setPc t).mem = s.mem := rfl
@[simp] theorem State.mapped_setPc (s : State) (t : Addr) : (s.setPc t).mapped = s.mapped := rfl
@[simp] theorem State.text_setPc (s : State) (t : Addr) : (s.setPc t).text = s.text := rfl
@[simp] theorem State.haltPc_setPc (s : State) (t : Addr) : (s.setPc t).haltPc = s.haltPc := rfl
@[simp] theorem State.supplied_setPc (s : State) (t : Addr) : (s.setPc t).supplied = s.supplied := rfl
@[simp] theorem State.draws_setPc (s : State) (t : Addr) : (s.setPc t).draws = s.draws := rfl

@[simp] theorem State.reg_draw (s : State) (r : Reg) : s.draw.reg r = s.reg r := rfl
@[simp] theorem State.pc_draw (s : State) : s.draw.pc = s.pc := rfl
@[simp] theorem State.mem_draw (s : State) : s.draw.mem = s.mem := rfl
@[simp] theorem State.mapped_draw (s : State) : s.draw.mapped = s.mapped := rfl
@[simp] theorem State.text_draw (s : State) : s.draw.text = s.text := rfl
@[simp] theorem State.haltPc_draw (s : State) : s.draw.haltPc = s.haltPc := rfl
@[simp] theorem State.supplied_draw (s : State) : s.draw.supplied = s.supplied := rfl
@[simp] theorem State.draws_draw (s : State) : s.draw.draws = s.draws + 1 := rfl

@[simp] theorem State.reg_poke (s : State) (a : Addr) (sz : Size) (v : Word) (r : Reg) :
    (s.poke a sz v).reg r = s.reg r := rfl
@[simp] theorem State.pc_poke (s : State) (a : Addr) (sz : Size) (v : Word) : (s.poke a sz v).pc = s.pc := rfl
@[simp] theorem State.mem_poke (s : State) (a : Addr) (sz : Size) (v : Word) :
    (s.poke a sz v).mem = s.mem.poke a sz v := rfl
@[simp] theorem State.mapped_poke (s : State) (a : Addr) (sz : Size) (v : Word) :
    (s.poke a sz v).mapped = s.mapped := rfl
@[simp] theorem State.text_poke (s : State) (a : Addr) (sz : Size) (v : Word) : (s.poke a sz v).text = s.text := rfl
@[simp] theorem State.haltPc_poke (s : State) (a : Addr) (sz : Size) (v : Word) :
    (s.poke a sz v).haltPc = s.haltPc := rfl
@[simp] theorem State.supplied_poke (s : State) (a : Addr) (sz : Size) (v : Word) :
    (s.poke a sz v).supplied = s.supplied := rfl
@[simp] theorem State.draws_poke (s : State) (a : Addr) (sz : Size) (v : Word) :
    (s.poke a sz v).draws = s.draws := rfl

/-! With `AU` = 8, the model's value: an access covers its bytes. -/

@[simp] theorem units_eq_bytes (sz : Size) : sz.units = sz.bytes := rfl
@[simp] theorem Memory.limit_eq : Memory.limit = 2 ^ 32 := rfl
theorem Memory.poke_eq (m : Memory) (a : Addr) (sz : Size) (v : Word) :
    m.poke a sz v = m.writeBytes a (splitBytes sz.bytes v) := rfl
theorem State.peek_eq (s : State) (a : Addr) (sz : Size) : s.peek a sz = joinBytes (s.mem.readBytes a sz.bytes) := rfl

/-! A byte, an access and the alignment checks see only memory and the launch memory. -/

@[simp] theorem State.byte_setReg (s : State) (r : Reg) (v : Word) (a : Addr) :
    (s.setReg r v).byte a = s.byte a := rfl
@[simp] theorem State.byte_setPc (s : State) (t a : Addr) : (s.setPc t).byte a = s.byte a := rfl
@[simp] theorem State.byte_draw (s : State) (a : Addr) : s.draw.byte a = s.byte a := rfl
@[simp] theorem State.load_setReg (s : State) (r : Reg) (v : Word) (a : Addr) (sz : Size) :
    (s.setReg r v).load a sz = s.load a sz := rfl
@[simp] theorem State.load_setPc (s : State) (t a : Addr) (sz : Size) : (s.setPc t).load a sz = s.load a sz := rfl
@[simp] theorem State.load_draw (s : State) (a : Addr) (sz : Size) : s.draw.load a sz = s.load a sz := rfl
@[simp] theorem State.readReg_setPc (s : State) (t : Addr) (r : Reg) (sz : Size) :
    (s.setPc t).readReg r sz = s.readReg r sz := rfl

/-! Updates that follow one another. -/

@[simp] theorem State.setPc_setPc (s : State) (t u : Addr) : (s.setPc t).setPc u = s.setPc u := rfl
theorem State.setReg_setPc (s : State) (r : Reg) (v : Word) (t : Addr) :
    (s.setPc t).setReg r v = (s.setReg r v).setPc t := rfl

end Sys2Proof.Machine
end

