-- ==== Sys2Proof/Laws/Memory.lean ====
section
/-! SUPPORT. Memory: what a read gives after a write, and the canonical form that every write keeps. -/

namespace Sys2Proof.Machine

theorem Memory.read_cons (a b : Nat) (v : Byte) (m : Memory) :
    (Memory.cons a v m).read b = if b = a ∧ v ≠ Memory.blank then v else m.read b := by
  unfold Memory.cons
  split
  · rename_i h
    rw [if_neg (fun h' => h'.2 h)]
  · rename_i h
    by_cases hb : b = a
    · simp [Memory.read, hb, h]
    · simp [Memory.read, hb, Ne.symm hb]

/-- Writing at one address leaves every other address alone, whatever the memory. -/
theorem Memory.read_write_ne (m : Memory) (a b : Nat) (v : Byte) (h : b ≠ a) : (m.write a v).read b = m.read b := by
  induction m with
  | nil => simp [Memory.write, Memory.read_cons, h]
  | cons e rest ih =>
    obtain ⟨k, w⟩ := e
    simp only [Memory.write]
    split
    · rw [Memory.read_cons, if_neg (fun h' => h h'.1)]
    · split
      · rename_i hk
        rw [Memory.read_cons, if_neg (fun h' => h h'.1), Memory.read, if_neg (by omega)]
      · simp [Memory.read, ih]

/-- An address below every listed one reads as blank. -/
theorem Memory.read_of_wfFrom (m : Memory) (lo a : Nat) (h : Memory.wfFrom lo m = true) (ha : a < lo) :
    m.read a = Memory.blank := by
  induction m generalizing lo with
  | nil => rfl
  | cons e rest ih =>
    obtain ⟨k, w⟩ := e
    simp only [Memory.wfFrom, Bool.and_eq_true, decide_eq_true_eq] at h
    rw [Memory.read, if_neg (by omega), ih (k + 1) h.2 (by omega)]

/-- A weaker lower bound still holds. -/
theorem Memory.wfFrom_mono (m : Memory) (lo lo' : Nat) (h : Memory.wfFrom lo m = true) (hlo : lo' ≤ lo) :
    Memory.wfFrom lo' m = true := by
  cases m with
  | nil => rfl
  | cons e rest =>
    obtain ⟨k, w⟩ := e
    simp only [Memory.wfFrom, Bool.and_eq_true, decide_eq_true_eq] at h ⊢
    exact ⟨⟨⟨by omega, h.1.1.2⟩, h.1.2⟩, h.2⟩

theorem Memory.wfFrom_cons (a lo : Nat) (v : Byte) (m : Memory) (hlo : lo ≤ a) (ha : a < 2 ^ 32)
    (h : Memory.wfFrom (a + 1) m = true) : Memory.wfFrom lo (Memory.cons a v m) = true := by
  unfold Memory.cons
  split
  · exact Memory.wfFrom_mono m (a + 1) lo h (by omega)
  · rename_i hv
    simp [Memory.wfFrom, hlo, hv, h]
    exact decide_eq_true ha

theorem Memory.wfFrom_write (m : Memory) (lo a : Nat) (v : Byte) (hlo : lo ≤ a) (ha : a < 2 ^ 32)
    (h : Memory.wfFrom lo m = true) : Memory.wfFrom lo (m.write a v) = true := by
  induction m generalizing lo with
  | nil => exact Memory.wfFrom_cons a lo v [] hlo ha rfl
  | cons e rest ih =>
    obtain ⟨k, w⟩ := e
    have h0 := h
    simp only [Memory.wfFrom, Bool.and_eq_true, decide_eq_true_eq] at h
    simp only [Memory.write]
    split
    · refine Memory.wfFrom_cons a lo v _ hlo ha ?_
      simp only [Memory.wfFrom, Bool.and_eq_true, decide_eq_true_eq]
      exact ⟨⟨⟨by omega, h.1.1.2⟩, h.1.2⟩, h.2⟩
    · split
      · rename_i hk
        subst hk
        exact Memory.wfFrom_cons a lo v rest hlo ha h.2
      · simp only [Memory.wfFrom, Bool.and_eq_true, decide_eq_true_eq]
        exact ⟨h.1, ih (k + 1) (by omega) h.2⟩

/-- A write keeps the canonical form. -/
theorem Memory.wf_write (m : Memory) (a : Nat) (v : Byte) (ha : a < 2 ^ 32) (h : m.wf = true) :
    (m.write a v).wf = true := Memory.wfFrom_write m 0 a v (Nat.zero_le _) ha h

theorem Memory.read_write_same_from (m : Memory) (lo a : Nat) (v : Byte) (h : Memory.wfFrom lo m = true) :
    (m.write a v).read a = v := by
  induction m generalizing lo with
  | nil =>
    rw [Memory.write, Memory.read_cons]
    by_cases hv : v = Memory.blank <;> simp [hv, Memory.read]
  | cons e rest ih =>
    obtain ⟨k, w⟩ := e
    have h0 := h
    simp only [Memory.wfFrom, Bool.and_eq_true, decide_eq_true_eq] at h
    simp only [Memory.write]
    split
    · rw [Memory.read_cons]
      by_cases hv : v = Memory.blank
      · rw [if_neg (fun h' => h'.2 hv), Memory.read, if_neg (by omega),
          Memory.read_of_wfFrom rest (k + 1) a h.2 (by omega), hv]
      · rw [if_pos ⟨rfl, hv⟩]
    · split
      · rename_i hk
        rw [Memory.read_cons]
        by_cases hv : v = Memory.blank
        · rw [if_neg (fun h' => h'.2 hv), Memory.read_of_wfFrom rest (k + 1) a h.2 (by omega), hv]
        · rw [if_pos ⟨rfl, hv⟩]
      · rw [Memory.read, if_neg (by omega), ih (k + 1) h.2]

/-- A byte written is read back, in a memory of canonical form. -/
theorem Memory.read_write_same (m : Memory) (a : Nat) (v : Byte) (h : m.wf = true) : (m.write a v).read a = v :=
  Memory.read_write_same_from m 0 a v h

/-! Several bytes. -/

theorem Memory.wf_writeBytes (m : Memory) (a : Addr) (bs : List Byte) (h : m.wf = true) :
    (m.writeBytes a bs).wf = true := by
  induction bs generalizing m a with
  | nil => exact h
  | cons b bs ih => exact ih _ _ (Memory.wf_write m a.toNat b a.isLt h)

@[simp] theorem Memory.length_readBytes (m : Memory) (a : Addr) (n : Nat) : (m.readBytes a n).length = n := by
  induction n generalizing a with
  | zero => rfl
  | succ n ih => simp [Memory.readBytes, ih]

/-- The address after the first `k + 1` counts one step, then `k`. -/
theorem add_ofNat_succ (a : Addr) (k : Nat) : a + BitVec.ofNat 32 (k + 1) = a + 1 + BitVec.ofNat 32 k := by
  rw [Nat.add_comm, BitVec.ofNat_add, BitVec.add_assoc]
  rfl

/-- Byte `k` of a read of several bytes. -/
theorem Memory.getElem_readBytes (m : Memory) (a : Addr) (n k : Nat) (h : k < (m.readBytes a n).length) :
    (m.readBytes a n)[k] = m.read (a + BitVec.ofNat 32 k).toNat := by
  induction n generalizing a k with
  | zero => simp at h
  | succ n ih =>
    cases k with
    | zero => simp [Memory.readBytes]
    | succ k =>
      simp only [Memory.readBytes, List.getElem_cons_succ]
      rw [ih, add_ofNat_succ]

/-- Two memories that agree on the bytes read give the same read. -/
theorem Memory.readBytes_congr (m m' : Memory) (a : Addr) (n : Nat)
    (h : ∀ k < n, m'.read (a + BitVec.ofNat 32 k).toNat = m.read (a + BitVec.ofNat 32 k).toNat) :
    m'.readBytes a n = m.readBytes a n := by
  apply List.ext_getElem
  · simp
  · intro k h1 h2
    rw [Memory.getElem_readBytes, Memory.getElem_readBytes]
    exact h k (by simpa using h1)

theorem toNat_add_ofNat_ne (a x : Addr) (k n : Nat) (hk : k < n) (hx : ¬ (x - a).toNat < n) :
    x.toNat ≠ (a + BitVec.ofNat 32 k).toNat := by
  intro he
  apply hx
  have hxa : x = a + BitVec.ofNat 32 k := BitVec.eq_of_toNat_eq he
  rw [hxa, BitVec.add_comm, BitVec.add_sub_cancel, BitVec.toNat_ofNat]
  exact Nat.lt_of_le_of_lt (Nat.mod_le _ _) hk

/-- A write of several bytes leaves the bytes outside them alone, whatever the memory. -/
theorem Memory.read_writeBytes_ne (m : Memory) (a x : Addr) (bs : List Byte)
    (h : ∀ k < bs.length, x.toNat ≠ (a + BitVec.ofNat 32 k).toNat) :
    (m.writeBytes a bs).read x.toNat = m.read x.toNat := by
  induction bs generalizing m a with
  | nil => rfl
  | cons b bs ih =>
    rw [Memory.writeBytes, ih]
    · refine Memory.read_write_ne _ _ _ _ ?_
      simpa using h 0 (by simp)
    · intro k hk
      have := h (k + 1) (by simpa using hk)
      rwa [add_ofNat_succ] at this

/-- A write of fewer than 2^32 bytes is read back, in a memory of canonical form. -/
theorem Memory.read_writeBytes_same (m : Memory) (a : Addr) (bs : List Byte) (h : m.wf = true)
    (hn : bs.length ≤ 2 ^ 32) (k : Nat) (hk : k < bs.length) :
    (m.writeBytes a bs).read (a + BitVec.ofNat 32 k).toNat = bs[k] := by
  induction bs generalizing m a k with
  | nil => simp at hk
  | cons b bs ih =>
    rw [Memory.writeBytes]
    have hw := Memory.wf_write m a.toNat b a.isLt h
    simp only [List.length_cons] at hn hk
    cases k with
    | zero =>
      rw [Memory.read_writeBytes_ne]
      · simpa using Memory.read_write_same m a.toNat b h
      · intro j hj he
        rw [← add_ofNat_succ] at he
        simp only [BitVec.toNat_add, BitVec.toNat_ofNat] at he
        have := a.isLt
        omega
    | succ k =>
      simpa only [add_ofNat_succ, List.getElem_cons_succ] using ih (m.write a.toNat b) (a + 1) hw (by omega) k (by omega)

/-- An access reads back what it stored, to the width stored (20_memory R40). -/
theorem Memory.joinBytes_readBytes_writeBytes (m : Memory) (a : Addr) (sz : Size) (v : Word) (h : m.wf = true) :
    joinBytes ((m.writeBytes a (splitBytes sz.bytes v)).readBytes a sz.bytes) = trunc sz v := by
  rw [← joinBytes_splitBytes]
  congr 1
  apply List.ext_getElem
  · simp
  · intro k h1 h2
    rw [Memory.getElem_readBytes, Memory.read_writeBytes_same _ _ _ h]
    cases sz <;> simp

/-- The machine starts with a memory of canonical form. -/
theorem State.reset_mem_wf : State.reset.mem.wf = true := rfl

end Sys2Proof.Machine
end

