-- ==== Sys2Proof/Laws/Ops.lean ====
section
/-! SUPPORT. What each shared operation can do, once each: when it answers, and with what. -/

namespace Sys2Proof.Machine

/-! Regions and accesses. -/

theorem allIn_iff (rs : List Region) (a : Addr) (n : Nat) :
    allIn rs a n = true ↔ ∀ k < n, inRegions rs (a + BitVec.ofNat 32 k) = true := by
  induction n generalizing a with
  | zero => simp [allIn]
  | succ n ih =>
    simp only [allIn, Bool.and_eq_true, ih]
    constructor
    · rintro ⟨h0, h⟩ k hk
      cases k with
      | zero => simpa using h0
      | succ k => rw [add_ofNat_succ]; exact h k (by omega)
    · intro h
      refine ⟨by simpa using h 0 (by omega), fun k hk => ?_⟩
      rw [← add_ofNat_succ]
      exact h (k + 1) (by omega)

theorem anyIn_eq_false_iff (rs : List Region) (a : Addr) (n : Nat) :
    anyIn rs a n = false ↔ ∀ k < n, inRegions rs (a + BitVec.ofNat 32 k) = false := by
  induction n generalizing a with
  | zero => simp [anyIn]
  | succ n ih =>
    simp only [anyIn, Bool.or_eq_false_iff, ih]
    constructor
    · rintro ⟨h0, h⟩ k hk
      cases k with
      | zero => simpa using h0
      | succ k => rw [add_ofNat_succ]; exact h k (by omega)
    · intro h
      refine ⟨by simpa using h 0 (by omega), fun k hk => ?_⟩
      rw [← add_ofNat_succ]
      exact h (k + 1) (by omega)

/-- What the checks of an access answer, in their order. -/
theorem State.access_eq (s : State) (a : Addr) (sz : Size) :
    s.access a sz = if a.toNat % sz.bytes ≠ 0 then .error .misaligned
      else if allIn s.mapped a sz.bytes = true then .ok () else .error .unmapped := by
  by_cases h : a.toNat % sz.bytes = 0
  · simp [State.access, aligned, h]
    rfl
  · simp [State.access, aligned, h]

theorem State.access_ok_iff (s : State) (a : Addr) (sz : Size) : s.access a sz = .ok () ↔ Readable s a sz := by
  rw [State.access_eq, Readable, ← allIn_iff]
  by_cases h : a.toNat % sz.bytes = 0 <;> by_cases h' : allIn s.mapped a sz.bytes = true <;> simp [h, h']

/-- A readable access is loaded. -/
theorem State.load_of_readable {s : State} {a : Addr} {sz : Size} (h : Readable s a sz) :
    s.load a sz = .ok (s.peek a sz) := by
  rw [State.load, (State.access_ok_iff s a sz).2 h]
  rfl

/-- A load that answers was readable, and answers the bytes there. -/
theorem State.load_ok {s : State} {a : Addr} {sz : Size} {v : Word} (h : s.load a sz = .ok v) :
    Readable s a sz ∧ v = s.peek a sz := by
  rw [State.load] at h
  cases ha : s.access a sz with
  | error e => rw [ha] at h; cases h
  | ok u =>
    rw [ha] at h
    exact ⟨(State.access_ok_iff s a sz).1 ha, by cases h; rfl⟩

/-- A load that is refused is refused by the checks of the access. -/
theorem State.load_error {s : State} {a : Addr} {sz : Size} {r : Refusal} (h : s.load a sz = .error r) :
    s.access a sz = .error r := by
  rw [State.load] at h
  cases ha : s.access a sz with
  | error e => rw [ha] at h; cases h; rfl
  | ok u => rw [ha] at h; cases h

/-- A writable access is stored. -/
theorem State.store_of_writable {s : State} {a : Addr} {sz : Size} {v : Word} (h : Writable s a sz) :
    s.store a sz v = .ok (s.poke a sz v) := by
  rw [State.store, (State.access_ok_iff s a sz).2 h.1]
  have := (anyIn_eq_false_iff s.text a sz.bytes).2 h.2
  simp [bind, Except.bind, this]

/-- A store that answers was writable, and changes the bytes there. -/
theorem State.store_ok {s t : State} {a : Addr} {sz : Size} {v : Word} (h : s.store a sz v = .ok t) :
    Writable s a sz ∧ t = s.poke a sz v := by
  rw [State.store] at h
  cases ha : s.access a sz with
  | error e => rw [ha] at h; cases h
  | ok u =>
    rw [ha] at h
    simp only [bind, Except.bind] at h
    split at h
    · cases h
    · rename_i hx
      cases h
      exact ⟨⟨(State.access_ok_iff s a sz).1 ha,
        (anyIn_eq_false_iff s.text a sz.bytes).1 (Bool.eq_false_iff.2 hx)⟩, rfl⟩

/-- A store that is refused is refused by the checks of the access, or because it is into the text. -/
theorem State.store_error {s : State} {a : Addr} {sz : Size} {v : Word} {r : Refusal}
    (h : s.store a sz v = .error r) : s.access a sz = .error r ∨ r = .writeToText := by
  rw [State.store] at h
  cases ha : s.access a sz with
  | error e => rw [ha] at h; cases h; exact .inl rfl
  | ok u =>
    rw [ha] at h
    simp only [bind, Except.bind] at h
    split at h <;> cases h
    exact .inr rfl

/-- The checks of an access refuse for two reasons only. -/
theorem State.access_error {s : State} {a : Addr} {sz : Size} {r : Refusal} (h : s.access a sz = .error r) :
    r = .misaligned ∨ r = .unmapped := by
  rw [State.access_eq] at h
  split at h
  · cases h; exact .inl rfl
  · split at h <;> cases h
    exact .inr rfl

/-! What a store leaves and what it gives back. -/

/-- A stored access reads back, to the width stored, where memory is in canonical form. -/
theorem State.peek_poke {s : State} (h : s.Inv) (a : Addr) (sz : Size) (v : Word) :
    (s.poke a sz v).peek a sz = trunc sz v := Memory.joinBytes_readBytes_writeBytes s.mem a sz v h

/-- The bytes outside a stored access stay. -/
theorem State.byte_poke_of_not_inBytes (s : State) (a x : Addr) (sz : Size) (v : Word)
    (h : ¬ InBytes a sz.bytes x) : (s.poke a sz v).byte x = s.byte x := by
  refine Memory.read_writeBytes_ne s.mem a x _ fun k hk => ?_
  rw [length_splitBytes] at hk
  exact toNat_add_ofNat_ne a x k sz.bytes hk h

theorem State.memExcept_poke (s : State) (a : Addr) (sz : Size) (v : Word) :
    MemExcept a sz.bytes s (s.poke a sz v) := fun x hx => State.byte_poke_of_not_inBytes s a x sz v hx

/-- The bytes of a stored access. -/
theorem State.byte_poke {s : State} (h : s.Inv) (a : Addr) (sz : Size) (v : Word) (k : Nat) (hk : k < sz.bytes) :
    (s.poke a sz v).byte (a + BitVec.ofNat 32 k) = (v >>> (8 * k)).setWidth 8 := by
  have hb : sz.bytes ≤ 2 ^ 32 := by cases sz <;> decide
  have := Memory.read_writeBytes_same s.mem a (splitBytes sz.bytes v) h
    (by rw [length_splitBytes]; exact hb) k (by rw [length_splitBytes]; exact hk)
  rw [getElem_splitBytes] at this
  exact this

theorem State.inv_poke {s : State} (h : s.Inv) (a : Addr) (sz : Size) (v : Word) : (s.poke a sz v).Inv :=
  Memory.wf_writeBytes s.mem a _ h

/-- An access that shares no byte with a store reads as before. -/
theorem State.peek_poke_of_disjoint (s : State) (a b : Addr) (sz sz' : Size) (v : Word)
    (h : ∀ k < sz'.bytes, ¬ InBytes a sz.bytes (b + BitVec.ofNat 32 k)) :
    (s.poke a sz v).peek b sz' = s.peek b sz' := by
  rw [State.peek_eq, State.peek_eq]
  congr 1
  exact Memory.readBytes_congr _ _ b sz'.bytes fun k hk => State.byte_poke_of_not_inBytes s a _ sz v (h k hk)

/-- Memory that agrees byte by byte on an access gives the same value. -/
theorem State.peek_congr (s t : State) (a : Addr) (sz : Size)
    (h : ∀ k < sz.bytes, t.byte (a + BitVec.ofNat 32 k) = s.byte (a + BitVec.ofNat 32 k)) : t.peek a sz = s.peek a sz := by
  rw [State.peek_eq, State.peek_eq]
  congr 1
  exact Memory.readBytes_congr _ _ a sz.bytes h

/-- The value of an access is an `s`-bit value. -/
theorem State.trunc_peek (s : State) (a : Addr) (sz : Size) : trunc sz (s.peek a sz) = s.peek a sz := by
  apply BitVec.eq_of_getLsbD_eq
  intro i hi
  rw [getLsbD_trunc, State.peek_eq]
  cases sz <;>
    simp only [Size.bytes, Size.bits, Memory.readBytes, joinBytes, wordOfBytes, Params.endian,
      BitVec.getLsbD_or, BitVec.getLsbD_shiftLeft, BitVec.getLsbD_setWidth] <;>
    interval_cases i <;> simp

@[simp] theorem State.peek_setReg (s : State) (r : Reg) (v : Word) (a : Addr) (sz : Size) :
    (s.setReg r v).peek a sz = s.peek a sz := rfl
@[simp] theorem State.peek_setPc (s : State) (t a : Addr) (sz : Size) : (s.setPc t).peek a sz = s.peek a sz := rfl
@[simp] theorem State.peek_draw (s : State) (a : Addr) (sz : Size) : s.draw.peek a sz = s.peek a sz := rfl

/-! Registers. -/

/-- What a register write does to the fields other than the registers and the counter: nothing. -/
theorem State.writeReg_fields (s : State) (r : Reg) (sz : Size) (v : Word) :
    (s.writeReg r sz v).pc = s.pc ∧ (s.writeReg r sz v).mem = s.mem ∧ (s.writeReg r sz v).mapped = s.mapped ∧
      (s.writeReg r sz v).text = s.text ∧ (s.writeReg r sz v).haltPc = s.haltPc ∧ (s.writeReg r sz v).supplied = s.supplied := by
  cases sz <;> exact ⟨rfl, rfl, rfl, rfl, rfl, rfl⟩

@[simp] theorem State.pc_writeReg (s : State) (r : Reg) (sz : Size) (v : Word) : (s.writeReg r sz v).pc = s.pc :=
  (s.writeReg_fields r sz v).1
@[simp] theorem State.mem_writeReg (s : State) (r : Reg) (sz : Size) (v : Word) : (s.writeReg r sz v).mem = s.mem :=
  (s.writeReg_fields r sz v).2.1
@[simp] theorem State.mapped_writeReg (s : State) (r : Reg) (sz : Size) (v : Word) :
    (s.writeReg r sz v).mapped = s.mapped := (s.writeReg_fields r sz v).2.2.1
@[simp] theorem State.text_writeReg (s : State) (r : Reg) (sz : Size) (v : Word) :
    (s.writeReg r sz v).text = s.text := (s.writeReg_fields r sz v).2.2.2.1
@[simp] theorem State.haltPc_writeReg (s : State) (r : Reg) (sz : Size) (v : Word) :
    (s.writeReg r sz v).haltPc = s.haltPc := (s.writeReg_fields r sz v).2.2.2.2.1
@[simp] theorem State.supplied_writeReg (s : State) (r : Reg) (sz : Size) (v : Word) :
    (s.writeReg r sz v).supplied = s.supplied := (s.writeReg_fields r sz v).2.2.2.2.2

/-- A register write leaves every other register alone. -/
theorem State.reg_writeReg_ne (s : State) {r r' : Reg} (sz : Size) (v : Word) (h : r' ≠ r) :
    (s.writeReg r sz v).reg r' = s.reg r' := by
  cases sz <;> simp [State.writeReg, State.writeNarrow, h]

/-- A register write is read back, to the width written. -/
theorem State.readReg_writeReg (s : State) (r : Reg) (sz : Size) (v : Word) :
    (s.writeReg r sz v).readReg r sz = trunc sz v := by
  cases sz <;> simp [State.readReg, State.writeReg, State.writeNarrow]

@[simp] theorem State.reg_writeReg_l (s : State) (r r' : Reg) (v : Word) :
    (s.writeReg r .l v).reg r' = if r' = r then v else s.reg r' := State.reg_setReg s r r' v

/-! Stacks. -/

@[simp] theorem pushAddr_l (t : Word) : pushAddr t .l = t - 3 := by
  simp only [pushAddr, units_eq_bytes, Size.bytes]
  bv_omega

/-- A push where the bytes below the pointer are writable. -/
theorem State.push_of_writable {s : State} {r : Reg} {sz : Size} {v : Word}
    (h : Writable s (pushAddr (s.reg r) sz) sz) :
    s.push r sz v
      = .ok ((s.poke (pushAddr (s.reg r) sz) sz v).setReg r (s.reg r - BitVec.ofNat 32 sz.bytes)) := by
  simp [State.push, State.store_of_writable h, bind, Except.bind]

/-- A push that answers stored the bytes below the pointer and lowered it. -/
theorem State.push_ok {s t : State} {r : Reg} {sz : Size} {v : Word} (h : s.push r sz v = .ok t) :
    Writable s (pushAddr (s.reg r) sz) sz ∧
      t = (s.poke (pushAddr (s.reg r) sz) sz v).setReg r (s.reg r - BitVec.ofNat 32 sz.bytes) := by
  rw [State.push] at h
  cases hs : s.store (pushAddr (s.reg r) sz) sz v with
  | error e => simp [hs, bind, Except.bind] at h
  | ok u =>
    obtain ⟨hw, rfl⟩ := State.store_ok hs
    simp [hs, bind, Except.bind] at h
    exact ⟨hw, h.symm⟩

/-- A push that is refused is refused by its store. -/
theorem State.push_error {s : State} {r : Reg} {sz : Size} {v : Word} {e : Refusal} (h : s.push r sz v = .error e) :
    e = .misaligned ∨ e = .unmapped ∨ e = .writeToText := by
  rw [State.push] at h
  cases hs : s.store (pushAddr (s.reg r) sz) sz v with
  | error e' =>
    simp [hs, bind, Except.bind] at h
    subst h
    rcases State.store_error hs with h | h
    · rcases State.access_error h with h | h
      · exact .inl h
      · exact .inr (.inl h)
    · exact .inr (.inr h)
  | ok u => simp [hs, bind, Except.bind] at h

/-- A pull where the bytes above the pointer are readable. -/
theorem State.pull_of_readable {s : State} {r : Reg} {sz : Size} (h : Readable s (s.reg r + 1) sz) :
    s.pull r sz = .ok (s.peek (s.reg r + 1) sz, s.setReg r (s.reg r + BitVec.ofNat 32 sz.bytes)) := by
  simp only [State.pull, State.load_of_readable h, bind, Except.bind, units_eq_bytes]

/-- A pull that answers gives the bytes above the pointer, and raises it. -/
theorem State.pull_ok {s t : State} {r : Reg} {sz : Size} {v : Word} (h : s.pull r sz = .ok (v, t)) :
    Readable s (s.reg r + 1) sz ∧ v = s.peek (s.reg r + 1) sz ∧
      t = s.setReg r (s.reg r + BitVec.ofNat 32 sz.bytes) := by
  rw [State.pull] at h
  cases hl : s.load (s.reg r + 1) sz with
  | error e => simp only [hl, bind, Except.bind] at h; cases h
  | ok u =>
    obtain ⟨hr, rfl⟩ := State.load_ok hl
    simp only [hl, bind, Except.bind] at h
    cases h
    exact ⟨hr, rfl, rfl⟩

/-- A pull that is refused is refused by its load. -/
theorem State.pull_error {s : State} {r : Reg} {sz : Size} {e : Refusal} (h : s.pull r sz = .error e) :
    e = .misaligned ∨ e = .unmapped := by
  rw [State.pull] at h
  cases hl : s.load (s.reg r + 1) sz with
  | error e' =>
    simp only [hl, bind, Except.bind] at h
    cases h
    exact State.access_error (State.load_error hl)
  | ok u => simp only [hl, bind, Except.bind] at h; cases h

/-! The trap and the return from it. -/

/-- A trap that answers: two pushes on SP, then pc from the vector table, read after the pushes. -/
theorem State.trap_ok {s t : State} {v : BitVec 4} {next : Addr} (h : s.trap v next = .ok t) :
    ∃ s1 s2, s.push .sp .l next = .ok s1 ∧ s1.push .sp .l (s1.reg .p) = .ok s2 ∧
      Readable s2 (vectorAddr v) .w ∧ t = s2.setPc (s2.peek (vectorAddr v) .w) := by
  simp only [State.trap, Params.pStackSize, Params.vecEntrySize, bind, Except.bind] at h
  split at h
  · cases h
  · rename_i s1 h1
    split at h
    · cases h
    · rename_i s2 h2
      split at h
      · cases h
      · rename_i w h3
        obtain ⟨hr, rfl⟩ := State.load_ok h3
        cases h
        exact ⟨s1, s2, h1, by simpa [State.readReg] using h2, hr, rfl⟩

/-- A return that answers: P pulled, then pc. -/
theorem State.trapReturn_ok {s t : State} {r : Reg} (h : s.trapReturn r = .ok t) :
    ∃ v s1 a s2, s.pull r .l = .ok (v, s1) ∧ (s1.setReg .p v).pull r .l = .ok (a, s2) ∧ t = s2.setPc a := by
  simp only [State.trapReturn, Params.pStackSize, bind, Except.bind] at h
  split at h
  · cases h
  · rename_i x h1
    split at h
    · cases h
    · rename_i y h2
      cases h
      exact ⟨x.1, x.2, y.1, y.2, h1, h2, rfl⟩

/-! Outcomes. -/

@[simp] theorem outcome_ok (s : State) : outcome (.ok s) = .next s := rfl
@[simp] theorem outcome_error (r : Refusal) : outcome (.error r) = .refused r := rfl

theorem outcome_eq_next {x : Except Refusal State} {t : State} : outcome x = .next t ↔ x = .ok t := by
  cases x <;> simp [outcome]

theorem outcome_eq_refused {x : Except Refusal State} {r : Refusal} : outcome x = .refused r ↔ x = .error r := by
  cases x <;> simp [outcome]

end Sys2Proof.Machine
end

