-- ==== Sys2Proof/Laws/Fetch.lean ====
section
/-! SUPPORT. The fetch, once: what a word and what the words of an instruction can answer. -/

namespace Sys2Proof.Machine

/-- A word is fetched where both its bytes exist, the low byte from the lower address. -/
theorem State.fetchHalf_eq (s : State) (a : Addr) :
    s.fetchHalf a = if inRegions s.mapped a = true ∧ inRegions s.mapped (a + 1) = true
      then .ok (s.byte (a + 1) ++ s.byte a) else .error .unmapped := by
  have hj : (joinBytes (s.mem.readBytes a 2)).setWidth 16 = s.byte (a + 1) ++ s.byte a := by
    rw [Memory.readBytes, Memory.readBytes, Memory.readBytes, joinBytes_two]
    exact BitVec.setWidth_setWidth_of_le _ (by decide) |>.trans (BitVec.setWidth_eq _)
  have hm : allIn s.mapped a Params.ws = true ↔ inRegions s.mapped a = true ∧ inRegions s.mapped (a + 1) = true := by
    simp [Params.ws, allIn]
  unfold State.fetchHalf
  by_cases h : inRegions s.mapped a = true ∧ inRegions s.mapped (a + 1) = true
  · rw [if_pos (hm.2 h), if_pos h, ← hj]
    rfl
  · rw [if_neg (fun h' => h (hm.1 h')), if_neg h]

/-- Words that are fetched are as many as were asked for, and each of their bytes exists. -/
theorem State.fetchHalves_ok {s : State} {a : Addr} {n : Nat} {ws : List Half} (h : s.fetchHalves a n = .ok ws) :
    ws.length = n ∧ ∀ k < 2 * n, inRegions s.mapped (a + BitVec.ofNat 32 k) = true := by
  induction n generalizing a ws with
  | zero =>
    cases h
    exact ⟨rfl, fun k hk => absurd hk (by omega)⟩
  | succ n ih =>
    simp only [State.fetchHalves, State.fetchHalf_eq, bind, Except.bind] at h
    split at h
    · cases h
    · rename_i w hw
      split at hw
      · rename_i hm
        split at h
        · cases h
        · rename_i rest hr
          cases h
          obtain ⟨hl, hb⟩ := ih hr
          refine ⟨by simp [hl], fun k hk => ?_⟩
          match k with
          | 0 => simpa using hm.1
          | 1 => exact hm.2
          | k + 2 =>
            have := hb k (by omega)
            rwa [show a + BitVec.ofNat 32 Params.ws + BitVec.ofNat 32 k = a + BitVec.ofNat 32 (k + 2) by
              rw [show Params.ws = 2 from rfl]; bv_omega] at this
      · cases hw

/-- Words that are not fetched are refused as unmapped. -/
theorem State.fetchHalves_error {s : State} {a : Addr} {n : Nat} {r : Refusal} (h : s.fetchHalves a n = .error r) :
    r = .unmapped := by
  induction n generalizing a with
  | zero => cases h
  | succ n ih =>
    simp only [State.fetchHalves, State.fetchHalf_eq, bind, Except.bind] at h
    split at h
    · rename_i e he
      split at he <;> cases he
      cases h
      rfl
    · split at h
      · rename_i e he
        cases h
        exact ih he
      · cases h

/-- The fetch with `WS` = 2. -/
theorem State.fetch_eq (s : State) :
    s.fetch = if s.pc.toNat % 2 ≠ 0 then .error .misalignedFetch
      else (do
        let w ← s.fetchHalf s.pc
        let n ← orRefuse (extWords w)
        if 2 ^ 32 < s.pc.toNat + (1 + n + skippedWords w) * 2 then .error .misalignedFetch
        else do
          let ext ← s.fetchHalves (s.pc + 2) n
          .ok (w :: ext)) := rfl

/-- The words of an instruction that are fetched: pc is even, the first word says how many follow, and the
instruction, with the words it skips, ends at or below the top of memory. -/
theorem State.fetch_ok {s : State} {ws : List Half} (h : s.fetch = .ok ws) :
    s.pc.toNat % 2 = 0 ∧ ∃ ext, ws = (s.byte (s.pc + 1) ++ s.byte s.pc) :: ext ∧
      extWords (s.byte (s.pc + 1) ++ s.byte s.pc) = .ok ext.length ∧
      s.pc.toNat + 2 * (1 + ext.length + skippedWords (s.byte (s.pc + 1) ++ s.byte s.pc)) ≤ 2 ^ 32 ∧
      s.fetchHalves (s.pc + 2) ext.length = .ok ext := by
  rw [State.fetch_eq] at h
  split at h
  · cases h
  · rename_i hp
    simp only [State.fetchHalf_eq, bind, Except.bind] at h
    split at h
    · cases h
    · rename_i w hw
      split at hw <;> cases hw
      split at h
      · cases h
      · rename_i n hn
        split at h
        · cases h
        · rename_i ht
          split at h
          · cases h
          · rename_i ext he
            cases h
            have hl := (State.fetchHalves_ok he).1
            subst hl
            refine ⟨by simpa using hp, ext, rfl, ?_, by omega, he⟩
            revert hn
            cases extWords (s.byte (s.pc + 1) ++ s.byte s.pc) <;> simp [orRefuse]

/-! Placing an instruction. -/

/-- Placing words keeps the canonical form of memory. -/
theorem Memory.wf_placeHalves (m : Memory) (a : Addr) (hs : List Half) (h : m.wf = true) :
    (m.placeHalves a hs).wf = true := by
  induction hs generalizing m a with
  | nil => exact h
  | cons w hs ih => exact ih _ _ (Memory.wf_writeBytes m a _ h)

/-- An instruction placed at pc keeps it too. -/
theorem State.inv_placeAtPc {s : State} (h : s.Inv) (hs : List Half) : (s.placeAtPc hs).Inv :=
  Memory.wf_placeHalves s.mem s.pc hs h

end Sys2Proof.Machine
end

