-- ==== Sys2Proof/Laws/Flags.lean ====
section
/-! SUPPORT. The flags: what each flag update does to P, and that it does nothing else. -/

namespace Sys2Proof.Machine

/-! One flag. -/

@[simp] theorem State.pc_setFlag (s : State) (i : Nat) (b : Bool) : (s.setFlag i b).pc = s.pc := rfl
@[simp] theorem State.mem_setFlag (s : State) (i : Nat) (b : Bool) : (s.setFlag i b).mem = s.mem := rfl
@[simp] theorem State.mapped_setFlag (s : State) (i : Nat) (b : Bool) : (s.setFlag i b).mapped = s.mapped := rfl
@[simp] theorem State.text_setFlag (s : State) (i : Nat) (b : Bool) : (s.setFlag i b).text = s.text := rfl
@[simp] theorem State.haltPc_setFlag (s : State) (i : Nat) (b : Bool) : (s.setFlag i b).haltPc = s.haltPc := rfl
@[simp] theorem State.supplied_setFlag (s : State) (i : Nat) (b : Bool) : (s.setFlag i b).supplied = s.supplied := rfl
@[simp] theorem State.draws_setFlag (s : State) (i : Nat) (b : Bool) : (s.setFlag i b).draws = s.draws := rfl
@[simp] theorem State.byte_setFlag (s : State) (i : Nat) (b : Bool) (a : Addr) : (s.setFlag i b).byte a = s.byte a := rfl
@[simp] theorem State.peek_setFlag (s : State) (i : Nat) (b : Bool) (a : Addr) (sz : Size) :
    (s.setFlag i b).peek a sz = s.peek a sz := rfl

theorem State.reg_setFlag_ne (s : State) (i : Nat) (b : Bool) {r : Reg} (h : r ≠ .p) :
    (s.setFlag i b).reg r = s.reg r := by
  rw [State.setFlag, State.reg_setReg, if_neg h]

/-- The bits of P after one flag is written. -/
theorem State.getLsbD_p_setFlag (s : State) (i j : Nat) (b : Bool) (hi : i < 32) :
    ((s.setFlag i b).reg .p).getLsbD j = if j = i then b else (s.reg .p).getLsbD j := by
  rw [State.setFlag, State.reg_setReg, if_pos rfl, getLsbD_setBit _ _ _ _ hi]

theorem State.flag_setFlag (s : State) (i j : Nat) (b : Bool) (hi : i < 32) :
    (s.setFlag i b).flag j = if j = i then b else s.flag j := State.getLsbD_p_setFlag s i j b hi

/-! N and Z, and C and V, together. -/

@[simp] theorem State.pc_setNZ (s : State) (v : Word) (sz : Size) : (s.setNZ v sz).pc = s.pc := rfl
@[simp] theorem State.mem_setNZ (s : State) (v : Word) (sz : Size) : (s.setNZ v sz).mem = s.mem := rfl
@[simp] theorem State.mapped_setNZ (s : State) (v : Word) (sz : Size) : (s.setNZ v sz).mapped = s.mapped := rfl
@[simp] theorem State.text_setNZ (s : State) (v : Word) (sz : Size) : (s.setNZ v sz).text = s.text := rfl
@[simp] theorem State.haltPc_setNZ (s : State) (v : Word) (sz : Size) : (s.setNZ v sz).haltPc = s.haltPc := rfl
@[simp] theorem State.supplied_setNZ (s : State) (v : Word) (sz : Size) : (s.setNZ v sz).supplied = s.supplied := rfl
@[simp] theorem State.draws_setNZ (s : State) (v : Word) (sz : Size) : (s.setNZ v sz).draws = s.draws := rfl
@[simp] theorem State.byte_setNZ (s : State) (v : Word) (sz : Size) (a : Addr) : (s.setNZ v sz).byte a = s.byte a := rfl
@[simp] theorem State.peek_setNZ (s : State) (v : Word) (sz : Size) (a : Addr) (sz' : Size) :
    (s.setNZ v sz).peek a sz' = s.peek a sz' := rfl

theorem State.reg_setNZ_ne (s : State) (v : Word) (sz : Size) {r : Reg} (h : r ≠ .p) :
    (s.setNZ v sz).reg r = s.reg r := by
  rw [State.setNZ, State.reg_setFlag_ne _ _ _ h, State.reg_setFlag_ne _ _ _ h]

/-- The bits of P after N and Z are written. -/
theorem State.getLsbD_p_setNZ (s : State) (v : Word) (sz : Size) (j : Nat) :
    ((s.setNZ v sz).reg .p).getLsbD j
      = if j = 1 then trunc sz v == 0 else if j = 7 then signBit sz v else (s.reg .p).getLsbD j := by
  rw [State.setNZ, State.getLsbD_p_setFlag _ _ _ _ (by decide), State.getLsbD_p_setFlag _ _ _ _ (by decide)]
  rfl

theorem State.flag_setNZ (s : State) (v : Word) (sz : Size) (j : Nat) :
    (s.setNZ v sz).flag j = if j = 1 then trunc sz v == 0 else if j = 7 then signBit sz v else s.flag j :=
  State.getLsbD_p_setNZ s v sz j

@[simp] theorem State.pc_setCV (s : State) (c v : Bool) : (s.setCV c v).pc = s.pc := rfl
@[simp] theorem State.mem_setCV (s : State) (c v : Bool) : (s.setCV c v).mem = s.mem := rfl
@[simp] theorem State.mapped_setCV (s : State) (c v : Bool) : (s.setCV c v).mapped = s.mapped := rfl
@[simp] theorem State.text_setCV (s : State) (c v : Bool) : (s.setCV c v).text = s.text := rfl
@[simp] theorem State.haltPc_setCV (s : State) (c v : Bool) : (s.setCV c v).haltPc = s.haltPc := rfl
@[simp] theorem State.supplied_setCV (s : State) (c v : Bool) : (s.setCV c v).supplied = s.supplied := rfl
@[simp] theorem State.draws_setCV (s : State) (c v : Bool) : (s.setCV c v).draws = s.draws := rfl

theorem State.reg_setCV_ne (s : State) (c v : Bool) {r : Reg} (h : r ≠ .p) : (s.setCV c v).reg r = s.reg r := by
  rw [State.setCV, State.reg_setFlag_ne _ _ _ h, State.reg_setFlag_ne _ _ _ h]

/-- The bits of P after C and V are written. -/
theorem State.getLsbD_p_setCV (s : State) (c v : Bool) (j : Nat) :
    ((s.setCV c v).reg .p).getLsbD j = if j = 6 then v else if j = 0 then c else (s.reg .p).getLsbD j := by
  rw [State.setCV, State.getLsbD_p_setFlag _ _ _ _ (by decide), State.getLsbD_p_setFlag _ _ _ _ (by decide)]
  rfl

theorem State.flag_setCV (s : State) (c v : Bool) (j : Nat) :
    (s.setCV c v).flag j = if j = 6 then v else if j = 0 then c else s.flag j := State.getLsbD_p_setCV s c v j

/-- Writing another register leaves the flags alone. -/
theorem State.flag_writeReg_ne (s : State) {r : Reg} (sz : Size) (v : Word) (i : Nat) (h : r ≠ .p) :
    (s.writeReg r sz v).flag i = s.flag i := by
  rw [State.flag, State.flag, State.reg_writeReg_ne s sz v (Ne.symm h)]

/-- The bits of P after the flags of a shift are written. -/
theorem State.getLsbD_p_shiftFlags (s : State) (r : Word) (c : Bool) (sz : Size) (j : Nat) :
    ((s.shiftFlags r c sz).reg .p).getLsbD j
      = if j = 1 then trunc sz r == 0 else if j = 7 then signBit sz r
        else if j = 0 then c else (s.reg .p).getLsbD j := by
  rw [State.shiftFlags, State.getLsbD_p_setNZ, State.getLsbD_p_setFlag _ _ _ _ (by decide)]
  rfl

theorem State.reg_shiftFlags_ne (s : State) (v : Word) (c : Bool) (sz : Size) {r : Reg} (h : r ≠ .p) :
    (s.shiftFlags v c sz).reg r = s.reg r := by
  rw [State.shiftFlags, State.reg_setNZ_ne _ _ _ h, State.reg_setFlag_ne _ _ _ h]

/-- The bits of P after MOV has written its flags. -/
theorem State.getLsbD_p_movFlags (s : State) (v : Word) (sz : Size) (j : Nat) :
    ((s.movFlags v sz).reg .p).getLsbD j
      = if j = 6 then Config.freeBit (s.draws + 1) else if j = 0 then Config.freeBit s.draws
        else if j = 1 then trunc sz v == 0 else if j = 7 then signBit sz v else (s.reg .p).getLsbD j := by
  rw [State.movFlags, State.reg_draw, State.reg_draw, State.getLsbD_p_setCV, State.getLsbD_p_setNZ]

theorem State.reg_movFlags_ne (s : State) (v : Word) (sz : Size) {r : Reg} (h : r ≠ .p) :
    (s.movFlags v sz).reg r = s.reg r := by
  rw [State.movFlags, State.reg_draw, State.reg_draw, State.reg_setCV_ne _ _ _ h, State.reg_setNZ_ne _ _ _ h]

/-- N and Z as numbers: what `setNZ` of an `s`-bit value leaves. -/
theorem signBit_eq_decide (sz : Size) (v : Word) (h : v.toNat < 2 ^ sz.bits) :
    signBit sz v = decide (2 ^ (sz.bits - 1) ≤ v.toNat) := by
  have hp := sz.bits_pos
  have hs : 2 ^ sz.bits = 2 * 2 ^ (sz.bits - 1) := by
    rw [← Nat.pow_succ']
    congr 1
    omega
  rw [signBit, BitVec.getLsbD, Nat.testBit_eq_decide_div_mod_eq]
  have hd : v.toNat / 2 ^ (sz.bits - 1) < 2 := Nat.div_lt_of_lt_mul (by omega)
  have hq : 0 < 2 ^ (sz.bits - 1) := Nat.two_pow_pos _
  by_cases hle : 2 ^ (sz.bits - 1) ≤ v.toNat
  · have : 1 ≤ v.toNat / 2 ^ (sz.bits - 1) := (Nat.le_div_iff_mul_le hq).2 (by omega)
    simp only [hle, decide_true, decide_eq_true_eq]
    omega
  · have : v.toNat / 2 ^ (sz.bits - 1) = 0 := Nat.div_eq_of_lt (by omega)
    simp [hle, this]

/-- N and Z after they are written from an `s`-bit value, whatever follows on other state. -/
theorem flagsNZ_of_flag {t : State} {sz : Size} {v : Word} (h : v.toNat < 2 ^ sz.bits)
    (hn : t.flag 7 = signBit sz v) (hz : t.flag 1 = (trunc sz v == 0)) : FlagsNZ t sz v.toNat := by
  refine ⟨by rw [← signBit_eq_decide sz v h]; exact hn, ?_⟩
  have ht : trunc sz v = v := BitVec.eq_of_toNat_eq (by rw [toNat_trunc, Nat.mod_eq_of_lt h])
  rw [show t.flag Params.flagZ = t.flag 1 from rfl, hz, ht, Bool.eq_iff_iff]
  simp only [beq_iff_eq, decide_eq_true_eq]
  constructor
  · rintro rfl; rfl
  · intro h0; exact BitVec.eq_of_toNat_eq h0

end Sys2Proof.Machine
end

