-- ==== Sys2Proof/Laws/PerInstr.lean ====
section
/-! SUPPORT. One statement for every instruction: what is well formed has an encoding, and its first word tells the
fetch how many words follow it (30_encoding R60, R61). -/

namespace Sys2Proof.Laws

/-- A well-formed instruction has words, and the length read from the first of them is theirs. -/
def Encoding.Statement (i : Instr) : Prop :=
  i.wf = true → ∃ w ext, encode i = some (w :: ext) ∧ extWords w = .ok ext.length

/-! Every operand that is admitted has a code, and every row a low byte. -/

theorem code_general {r : Reg} (h : r.isGeneral = true) : ∃ k, codeOf listAAAA r = some k ∧ k < 16 := by
  cases r <;> first | exact ⟨_, rfl, by decide⟩ | cases h

theorem code_size (sz : Size) : ∃ k, codeOf listDD sz = some k ∧ k < 4 ∧ (k = 2 ↔ sz = .l) := by
  cases sz <;> exact ⟨_, rfl, by decide, by decide⟩

theorem code_group {r : Reg} {g : Group} (h : groupOf r = some g) : ∃ k, codeOf g.list r = some k ∧ k < 4 := by
  cases r <;> cases h <;> exact ⟨_, rfl, by decide⟩

theorem group_of_isA {r : Reg} (h : r.isA = true) : groupOf r = some .a := by rw [groupOf, if_pos h]
theorem group_of_isX {r : Reg} (h : r.isX = true) : groupOf r = some .x := by cases r <;> first | rfl | cases h
theorem group_of_isY {r : Reg} (h : r.isY = true) : groupOf r = some .y := by cases r <;> first | rfl | cases h

theorem code_source {r : Reg} (h : (r.isA || r.isX) = true) : ∃ k, codeOf listSSS r = some k ∧ k < 8 := by
  cases r <;> first | exact ⟨_, rfl, by decide⟩ | cases h

theorem code_admits {l : IxList} {ri : Index} (h : l.admits ri = true) : ∃ k, codeOf l.list ri = some k ∧ k < 8 := by
  obtain _ | _ | r := ri
  · cases l <;> first | exact ⟨_, rfl, by decide⟩ | cases h
  · cases l <;> first | exact ⟨_, rfl, by decide⟩ | cases h
  · cases l <;> cases r <;> first | exact ⟨_, rfl, by decide⟩ | cases h

theorem code_index {m : MemOp} (h : m.indexWf = true) : ∃ k, m.indexCode = some k ∧ k < 8 := by
  cases m <;> exact code_admits h

theorem code_stack {ri : Index} (h : stackWf ri = true) : ∃ k, codeOf listStack ri = some k ∧ k < 8 := by
  obtain _ | _ | r := ri
  · exact ⟨_, rfl, by decide⟩
  · exact ⟨_, rfl, by decide⟩
  · cases r <;> first | exact ⟨_, rfl, by decide⟩ | cases h

/-- A row that stands in the map has a low byte. -/
theorem low_of_mem {sh : Shape} {lo : Nat} (h : (lo, sh) ∈ opcodeMap) :
    ∃ lo, lowByteOf sh = some lo ∧ lo < 256 ∧ shapeOf lo = some sh := by
  have : (lowByteOf sh).isSome := by
    rw [lowByteOf, Option.isSome_map, List.find?_isSome]
    exact ⟨_, h, decide_eq_true rfl⟩
  obtain ⟨lo, hlo⟩ := Option.isSome_iff_exists.mp this
  exact ⟨lo, hlo, (shapeOf_of_lowByteOf hlo).2, (shapeOf_of_lowByteOf hlo).1⟩

/-- The words a first word says follow it. -/
theorem extWords_of_shape {w : Half} {lo : Nat} {sh : Shape} (hf : field w 7 0 = lo) (h : shapeOf lo = some sh) :
    extWords w = .ok (sh.extWords w) := by
  rw [extWords, hf, h]
  rfl

theorem MemOp.length_ext (m : MemOp) : m.ext.length = m.mode.extWords := by cases m <;> rfl

/-- There are words, and the length read from the first is theirs. -/
def HasWords (e : Option (List Half)) : Prop := ∃ w ext, e = some (w :: ext) ∧ extWords w = .ok ext.length

/-- A first word whose low byte selects `sh`, with as many words after it as `sh` says. -/
theorem hasWords_of {w : Half} {ext : List Half} {lo : Nat} {sh : Shape} (hf : field w 7 0 = lo)
    (hs : shapeOf lo = some sh) (hn : sh.extWords w = ext.length) : HasWords (some (w :: ext)) :=
  ⟨w, ext, rfl, by rw [extWords_of_shape hf hs, hn]⟩

theorem low_alu {p : AluPair} {row : OpRow} (h : row ∈ aluRows.map (·.2)) :
    ∃ lo, lowByteOf (.alu p row) = some lo ∧ lo < 256 ∧ shapeOf lo = some (.alu p row) := by
  obtain ⟨r, hr, rfl⟩ := List.mem_map.mp h
  have : (p.base + r.1, Shape.alu p r.2) ∈ aluMap p := List.mem_map.mpr ⟨r, hr, rfl⟩
  exact low_of_mem (lo := p.base + r.1) (by cases p <;> simp only [opcodeMap, List.mem_append, this, true_or, or_true])

theorem low_shift {p : ShiftPair} {row : ShiftRow} (h : row ∈ shiftRows.map (·.2)) :
    ∃ lo, lowByteOf (.shift p row) = some lo ∧ lo < 256 ∧ shapeOf lo = some (.shift p row) := by
  obtain ⟨r, hr, rfl⟩ := List.mem_map.mp h
  have : (p.base + r.1, Shape.shift p r.2) ∈ shiftMap p := List.mem_map.mpr ⟨r, hr, rfl⟩
  exact low_of_mem (lo := p.base + r.1) (by cases p <;> simp only [opcodeMap, List.mem_append, this, true_or, or_true])

theorem low_unary {row : UnaryRow} (h : row ∈ unaryRows.map (·.2)) :
    ∃ lo, lowByteOf (.unary row) = some lo ∧ lo < 256 ∧ shapeOf lo = some (.unary row) := by
  obtain ⟨r, hr, rfl⟩ := List.mem_map.mp h
  have : (r.1, Shape.unary r.2) ∈ unaryRows.map (fun r => (r.1, Shape.unary r.2)) := List.mem_map.mpr ⟨r, hr, rfl⟩
  exact low_of_mem (lo := r.1) (by simp only [opcodeMap, List.mem_append, this, true_or, or_true])

theorem low_inc {row : UnaryRow} (h : row ∈ incRows.map (·.2)) :
    ∃ lo, lowByteOf (.inc row) = some lo ∧ lo < 256 ∧ shapeOf lo = some (.inc row) := by
  obtain ⟨r, hr, rfl⟩ := List.mem_map.mp h
  have : (r.1, Shape.inc r.2) ∈ incRows.map (fun r => (r.1, Shape.inc r.2)) := List.mem_map.mpr ⟨r, hr, rfl⟩
  exact low_of_mem (lo := r.1) (by simp only [opcodeMap, List.mem_append, this, true_or, or_true])

theorem low_ldr {row : OpRow} (h : row ∈ loadRows.map (·.2)) :
    ∃ lo, lowByteOf (.ldr row) = some lo ∧ lo < 256 ∧ shapeOf lo = some (.ldr row) := by
  obtain ⟨r, hr, rfl⟩ := List.mem_map.mp h
  have : (r.1, Shape.ldr r.2) ∈ loadRows.map (fun r => (r.1, Shape.ldr r.2)) := List.mem_map.mpr ⟨r, hr, rfl⟩
  exact low_of_mem (lo := r.1) (by simp only [opcodeMap, List.mem_append, this, true_or, or_true])

theorem low_str {row : OpRow} (h : row ∈ loadRows.map (·.2)) :
    ∃ lo, lowByteOf (.str row) = some lo ∧ lo < 256 ∧ shapeOf lo = some (.str row) := by
  obtain ⟨r, hr, rfl⟩ := List.mem_map.mp h
  have : (r.1 - 0x20, Shape.str r.2) ∈ loadRows.map (fun r => (r.1 - 0x20, Shape.str r.2)) :=
    List.mem_map.mpr ⟨r, hr, rfl⟩
  exact low_of_mem (lo := r.1 - 0x20) (by simp only [opcodeMap, List.mem_append, this, true_or, or_true])

/-! The rows that each family admits stand in its table. -/

theorem row_alu {rd : Reg} {m : MemOp} (h : aluMemWf rd m = true) :
    ∃ g, groupOf rd = some g ∧ .mem g m.mode ∈ aluRows.map (·.2) := by
  obtain ⟨l, a, ri⟩ | ⟨l, a, ri⟩ | ⟨a, ri⟩ | ⟨a, ri⟩ := m
  · cases l <;> cases rd <;> first | exact ⟨_, rfl, by dsimp only [MemOp.mode]; decide⟩ | cases (Bool.and_eq_true_iff.mp h).2
  · cases l <;> cases rd <;> first | exact ⟨_, rfl, by dsimp only [MemOp.mode]; decide⟩ | cases (Bool.and_eq_true_iff.mp h).2
  · cases rd <;> first | exact ⟨_, rfl, by dsimp only [MemOp.mode]; decide⟩ | cases (Bool.and_eq_true_iff.mp h).2
  · cases rd <;> first | exact ⟨_, rfl, by dsimp only [MemOp.mode]; decide⟩ | cases (Bool.and_eq_true_iff.mp h).2

theorem row_move {rd : Reg} {m : MemOp} (h : moveMemWf rd m = true) :
    ∃ g, groupOf rd = some g ∧ .mem g m.mode ∈ loadRows.map (·.2) := by
  obtain ⟨l, a, ri⟩ | ⟨l, a, ri⟩ | ⟨a, ri⟩ | ⟨a, ri⟩ := m
  · cases l <;> cases rd <;> first | exact ⟨_, rfl, by dsimp only [MemOp.mode]; decide⟩ | cases (Bool.and_eq_true_iff.mp h).2
  · cases l <;> cases rd <;> first | exact ⟨_, rfl, by dsimp only [MemOp.mode]; decide⟩ | cases (Bool.and_eq_true_iff.mp h).2
  · cases rd <;> first | exact ⟨_, rfl, by dsimp only [MemOp.mode]; decide⟩ | cases (Bool.and_eq_true_iff.mp h).2
  · cases rd <;> first | exact ⟨_, rfl, by dsimp only [MemOp.mode]; decide⟩ | cases (Bool.and_eq_true_iff.mp h).2

theorem row_modify {m : MemOp} (h : m.modifyWf = true) :
    .mem m.mode ∈ unaryRows.map (·.2) ∧ .mem m.mode ∈ incRows.map (·.2) ∧ .mem m.mode ∈ shiftRows.map (·.2) := by
  obtain ⟨l, a, ri⟩ | ⟨l, a, ri⟩ | ⟨a, ri⟩ | ⟨a, ri⟩ := m
  · cases l <;> first | (dsimp only [MemOp.mode]; decide) | cases (Bool.and_eq_true_iff.mp h).2
  · cases l <;> first | (dsimp only [MemOp.mode]; decide) | cases (Bool.and_eq_true_iff.mp h).2
  · cases (Bool.and_eq_true_iff.mp h).2
  · cases (Bool.and_eq_true_iff.mp h).2

theorem modifyWf_index {m : MemOp} (h : m.modifyWf = true) : m.indexWf = true := by
  exact (Bool.and_eq_true_iff.mp h).1

/-! The families. -/

theorem unary_hasWords (t f2 : Nat) (row : UnaryRow → Shape) (sz : Size) (f : UnaryForm) (h : f.wf = true)
    (ht : t < 2) (h2 : f2 < 4)
    (hrow : (∀ l, ∃ lo, lowByteOf (row (.reg l)) = some lo ∧ lo < 256 ∧ shapeOf lo = some (row (.reg l))) ∧
      (∀ m : MemOp, m.modifyWf = true →
        ∃ lo, lowByteOf (row (.mem m.mode)) = some lo ∧ lo < 256 ∧ shapeOf lo = some (row (.mem m.mode))))
    (hn : ∀ w l, (row (.reg l)).extWords w = 0) (hm : ∀ w m, (row (.mem m)).extWords w = m.extWords) :
    HasWords (encodeUnary t f2 row sz f) := by
  obtain ⟨dd, hdd, hd4, -⟩ := code_size sz
  cases f with
  | reg rd =>
    obtain ⟨lo, hlo, hl, hs⟩ := hrow.1 (unaryListOf rd)
    obtain ⟨k, hk, hk8⟩ : ∃ k, codeOf (unaryListOf rd).list rd = some k ∧ k < 8 := by
      cases rd <;> first | exact ⟨_, rfl, by decide⟩ | cases h
    simp only [encodeUnary, hdd, hlo, hk, bind, Option.bind]
    exact hasWords_of (fields_formatA ht h2 hk8 hd4 hl).2.2.2.2.1 hs (hn _ _)
  | mem m =>
    obtain ⟨k, hk, hk8⟩ := code_index (modifyWf_index h)
    obtain ⟨lo, hlo, hl, hs⟩ := hrow.2 m h
    simp only [encodeUnary, hdd, hlo, hk, bind, Option.bind]
    exact hasWords_of (fields_formatA ht h2 hk8 hd4 hl).2.2.2.2.1 hs (by rw [hm, MemOp.length_ext])

theorem unary_hasWords_pair (t f2 : Nat) (sz : Size) (f : UnaryForm) (h : f.wf = true) (ht : t < 2) (h2 : f2 < 4) :
    HasWords (encodeUnary t f2 .unary sz f) :=
  unary_hasWords t f2 .unary sz f h ht h2
    ⟨fun l => low_unary (by cases l <;> decide), fun _ hm => low_unary (row_modify hm).1⟩ (fun _ _ => rfl) (fun _ _ => rfl)

theorem inc_hasWords (f2 : Nat) (sz : Size) (f : UnaryForm) (h : f.wf = true) (h2 : f2 < 4) :
    HasWords (encodeUnary 0 f2 .inc sz f) :=
  unary_hasWords 0 f2 .inc sz f h (by decide) h2
    ⟨fun l => low_inc (by cases l <;> decide), fun _ hm => low_inc (row_modify hm).2.1⟩ (fun _ _ => rfl) (fun _ _ => rfl)

theorem length_encodeImm (sz : Size) (v : Word) : (encodeImm sz v).length = if sz = .l then 2 else 1 := by
  cases sz <;> rfl

theorem alu_hasWords (op : AluOp) (sz : Size) (f : AluForm) (h : f.wf sz = true) : HasWords (encodeAlu op sz f) := by
  obtain ⟨dd, hdd, hd4, hd2⟩ := code_size sz
  obtain ⟨t, ht, ht2⟩ : ∃ t, codeOf op.pair.list op = some t ∧ t < 2 := by cases op <;> exact ⟨_, rfl, by decide⟩
  cases f with
  | reg rd rs =>
    rw [AluForm.wf, Bool.and_eq_true] at h
    obtain ⟨g, hg⟩ : ∃ g, groupOf rd = some g := by cases rd <;> first | exact ⟨_, rfl⟩ | cases h.1
    obtain ⟨k, hk, hk4⟩ := code_group hg
    obtain ⟨c, hc, hc8⟩ := code_source h.2
    obtain ⟨lo, hlo, hl, hs⟩ := low_alu (p := op.pair) (row := .reg g) (by cases g <;> decide)
    simp only [encodeAlu, encodeA, ht, hg, hk, hc, hdd, hlo, bind, Option.bind]
    exact hasWords_of (fields_formatA ht2 hk4 hc8 hd4 hl).2.2.2.2.1 hs rfl
  | imm rd v =>
    rw [AluForm.wf, Bool.and_eq_true] at h
    obtain ⟨k, hk, hk16⟩ := code_general h.1
    obtain ⟨lo, hlo, hl, hs⟩ := low_alu (p := op.pair) (row := .imm) (by decide)
    simp only [encodeAlu, ht, hk, hdd, hlo, bind, Option.bind]
    have hf := fields_formatB ht2 hk16 hd4 hl
    refine hasWords_of hf.2.2.2.2 hs ?_
    rw [Shape.extWords, hf.2.2.2.1, length_encodeImm]
    simp only [hd2]
  | mem rd m =>
    obtain ⟨g, hg, hr⟩ := row_alu h
    have h : m.indexWf = true ∧ _ = true := Bool.and_eq_true_iff.mp h
    obtain ⟨k, hk, hk4⟩ := code_group hg
    obtain ⟨c, hc, hc8⟩ := code_index h.1
    obtain ⟨lo, hlo, hl, hs⟩ := low_alu (p := op.pair) hr
    simp only [encodeAlu, encodeA, ht, hg, hk, hc, hdd, hlo, bind, Option.bind]
    exact hasWords_of (fields_formatA ht2 hk4 hc8 hd4 hl).2.2.2.2.1 hs (MemOp.length_ext m).symm

theorem test_hasWords (sz : Size) (f : TestForm) (h : f.wf = true) : HasWords (encodeTest sz f) := by
  obtain ⟨dd, hdd, hd4, -⟩ := code_size sz
  cases f with
  | reg rd rs =>
    rw [TestForm.wf, Bool.and_eq_true] at h
    have hg := group_of_isA h.1
    obtain ⟨k, hk, hk4⟩ := code_group hg
    obtain ⟨c, hc, hc8⟩ := code_source h.2
    obtain ⟨lo, hlo, hl, hs⟩ := low_of_mem (sh := .test (.reg .a)) (lo := 0x34) (by decide +kernel)
    simp only [encodeTest, encodeA, hg, hk, hc, hdd, hlo, bind, Option.bind]
    exact hasWords_of (fields_formatA (by decide) hk4 hc8 hd4 hl).2.2.2.2.1 hs rfl
  | mem rd m =>
    have h : (m.indexWf && rd.isA) = true ∧ _ = true := Bool.and_eq_true_iff.mp h
    have hi := Bool.and_eq_true_iff.mp h.1
    have hg := group_of_isA hi.2
    obtain ⟨k, hk, hk4⟩ := code_group hg
    obtain ⟨c, hc, hc8⟩ := code_index hi.1
    obtain ⟨lo, hlo, hl, hs⟩ : ∃ lo, lowByteOf (.test (.mem .a m.mode)) = some lo ∧ lo < 256 ∧
        shapeOf lo = some (.test (.mem .a m.mode)) := by
      obtain ⟨l, a, ri⟩ | ⟨l, a, ri⟩ | ⟨a, ri⟩ | ⟨a, ri⟩ := m
      · cases l <;> first | exact ⟨_, rfl, by decide, rfl⟩ | cases h.2
      · cases l <;> first | exact ⟨_, rfl, by decide, rfl⟩ | cases h.2
      · cases h.2
      · cases h.2
    simp only [encodeTest, encodeA, hg, hk, hc, hdd, hlo, bind, Option.bind]
    exact hasWords_of (fields_formatA (by decide) hk4 hc8 hd4 hl).2.2.2.2.1 hs (MemOp.length_ext m).symm

theorem shift_hasWords (op : ShiftOp) (sz : Size) (f : ShiftForm) (h : f.wf = true) : HasWords (encodeShift op sz f) := by
  obtain ⟨dd, hdd, hd4, -⟩ := code_size sz
  obtain ⟨t, ht, ht2⟩ : ∃ t, codeOf op.pair.list op = some t ∧ t < 2 := by cases op <;> exact ⟨_, rfl, by decide⟩
  cases f with
  | one rd =>
    obtain ⟨k, hk, hk16⟩ := code_general h
    obtain ⟨lo, hlo, hl, hs⟩ := low_shift (p := op.pair) (row := .one) (by decide)
    simp only [encodeShift, ht, hk, hdd, hlo, bind, Option.bind]
    exact hasWords_of (fields_formatC ht2 (by decide) hk16 hd4 hl).2.2.2.2 hs rfl
  | imm rd count =>
    obtain ⟨k, hk, hk16⟩ := code_general h
    obtain ⟨lo, hlo, hl, hs⟩ := low_shift (p := op.pair) (row := .count) (by decide)
    simp only [encodeShift, ht, hk, hdd, hlo, bind, Option.bind]
    exact hasWords_of (fields_formatC ht2 (by decide) hk16 hd4 hl).2.2.2.2 hs rfl
  | reg rd rs =>
    rw [ShiftForm.wf, Bool.and_eq_true] at h
    obtain ⟨k, hk, hk16⟩ := code_general h.1
    obtain ⟨c, hc, -⟩ := code_general h.2
    obtain ⟨lo, hlo, hl, hs⟩ := low_shift (p := op.pair) (row := .count) (by decide)
    simp only [encodeShift, ht, hk, hc, hdd, hlo, bind, Option.bind]
    exact hasWords_of (fields_formatC ht2 (by decide) hk16 hd4 hl).2.2.2.2 hs rfl
  | mem m nn =>
    obtain ⟨c, hc, hc8⟩ := code_index (modifyWf_index h)
    obtain ⟨lo, hlo, hl, hs⟩ := low_shift (p := op.pair) (row_modify h).2.2
    simp only [encodeShift, ht, hc, hdd, hlo, bind, Option.bind]
    exact hasWords_of (fields_formatA ht2 nn.isLt hc8 hd4 hl).2.2.2.2.1 hs (MemOp.length_ext m).symm

theorem branch_hasWords (c : Cond) (f : BranchForm) (h : f.wf = true) : HasWords (encodeBranch c f) := by
  obtain ⟨offset, base, ind, lk⟩ := f
  obtain ⟨k, hk, hk16⟩ : ∃ k, codeOf listBcc base = some k ∧ k < 16 := by
    obtain _ | _ | r := base
    · cases h
    · exact ⟨_, rfl, by decide⟩
    · cases r <;> first | exact ⟨_, rfl, by decide⟩ | cases h
  obtain ⟨cc, hc, hc16, lo, hlo, hl, hs⟩ : ∃ cc, codeOf listCCCC c = some cc ∧ cc < 16 ∧
      ∃ lo, lowByteOf (.branch (cc % 8)) = some lo ∧ lo < 256 ∧ shapeOf lo = some (.branch (cc % 8)) := by
    cases c <;> exact ⟨_, rfl, by decide, _, rfl, by decide, rfl⟩
  have hi := Bool.toNat_lt ind
  have hlk := Bool.toNat_lt lk
  cases offset with
  | short v =>
    simp only [encodeBranch, hk, hc, hlo, bind, Option.bind]
    have hf := fields_formatD (c := cc / 8) (d := 0) (by omega) (by decide) hi hlk hk16 hl
    refine hasWords_of hf.2.2.2.2.2 hs ?_
    rw [Shape.extWords, hf.2.1]
    rfl
  | long v =>
    simp only [encodeBranch, hk, hc, hlo, bind, Option.bind]
    have hf := fields_formatD (c := cc / 8) (d := 1) (by omega) (by decide) hi hlk hk16 hl
    refine hasWords_of hf.2.2.2.2.2 hs ?_
    rw [Shape.extWords, hf.2.1]
    rfl

theorem stack_hasWords (sh : Shape) (rs : Index) (ext : List Half) (h : stackWf rs = true)
    (hlow : ∃ lo, lowByteOf sh = some lo ∧ lo < 256 ∧ shapeOf lo = some sh) (hn : ∀ w, sh.extWords w = ext.length) :
    HasWords (encodeStack sh rs ext) := by
  obtain ⟨k, hk, hk8⟩ := code_stack h
  obtain ⟨lo, hlo, hl, hs⟩ := hlow
  simp only [encodeStack, hk, hlo, bind, Option.bind]
  exact hasWords_of (fields_formatA (by decide) (by decide) hk8 (by decide) hl).2.2.2.2.1 hs (hn _)

theorem bit_hasWords (op : BitOp) (f : BitForm) (b : BitVec 5) (h : f.wf = true) : HasWords (encodeBit op f b) := by
  obtain ⟨t, ht, ht2⟩ : ∃ t, codeOf op.pair.list op = some t ∧ t < 2 := by cases op <;> exact ⟨_, rfl, by decide⟩
  obtain ⟨k, hk, hk8⟩ : ∃ k, codeOf (bitGroupOf b).list b = some k ∧ k < 8 := by
    have all : ∀ b : BitVec 5, ((codeOf (bitGroupOf b).list b).any fun k => decide (k < 8)) = true := by decide +kernel
    obtain ⟨k, hk, hk8⟩ := Option.any_eq_true _ _ |>.mp (all b)
    exact ⟨k, hk, of_decide_eq_true hk8⟩
  cases f with
  | reg rd =>
    obtain ⟨r, hr, hr16⟩ : ∃ r, codeOf listBitR rd = some r ∧ r < 16 := by cases rd <;> exact ⟨_, rfl, by decide⟩
    obtain ⟨lo, hlo, hl, hs⟩ : ∃ lo, lowByteOf (.bitReg op.pair (bitGroupOf b)) = some lo ∧ lo < 256 ∧
        shapeOf lo = some (.bitReg op.pair (bitGroupOf b)) := by
      generalize op.pair = p
      generalize bitGroupOf b = g
      cases p <;> cases g <;> exact ⟨_, rfl, by decide, rfl⟩
    simp only [encodeBit, ht, hk, hr, hlo, bind, Option.bind]
    exact hasWords_of (fields_formatF ht2 hk8 hr16 hl).2.2.2 hs rfl
  | mem a ri =>
    obtain ⟨r, hr, hr16⟩ : ∃ r, codeOf listBitX ri = some r ∧ r < 16 := by
      obtain _ | _ | r := ri
      · exact ⟨_, rfl, by decide⟩
      · cases h
      · cases r <;> first | exact ⟨_, rfl, by decide⟩ | cases h
    obtain ⟨lo, hlo, hl, hs⟩ : ∃ lo, lowByteOf (.bitMem op.pair (bitGroupOf b)) = some lo ∧ lo < 256 ∧
        shapeOf lo = some (.bitMem op.pair (bitGroupOf b)) := by
      generalize op.pair = p
      generalize bitGroupOf b = g
      cases p <;> cases g <;> exact ⟨_, rfl, by decide, rfl⟩
    simp only [encodeBit, ht, hk, hr, hlo, bind, Option.bind]
    exact hasWords_of (fields_formatF ht2 hk8 hr16 hl).2.2.2 hs rfl

theorem load_hasWords (sz : Size) (f : LoadForm) (h : f.wf sz = true) : HasWords (encodeLoad sz f) := by
  obtain ⟨dd, hdd, hd4, hd2⟩ := code_size sz
  cases f with
  | imm rd v =>
    rw [LoadForm.wf, Bool.and_eq_true] at h
    obtain ⟨k, hk, hk16⟩ := code_general h.1
    obtain ⟨lo, hlo, hl, hs⟩ := low_of_mem (sh := .ldrImm) (lo := 0xa9) (by decide +kernel)
    simp only [encodeLoad, hk, hdd, hlo, bind, Option.bind]
    have hf := fields_formatB (t := 0) (by decide) hk16 hd4 hl
    refine hasWords_of hf.2.2.2.2 hs ?_
    rw [Shape.extWords, hf.2.2.2.1, length_encodeImm]
    simp only [hd2]
  | mem rd m =>
    obtain ⟨g, hg, hr⟩ := row_move h
    have h : m.indexWf = true ∧ _ = true := Bool.and_eq_true_iff.mp h
    obtain ⟨k, hk, hk4⟩ := code_group hg
    obtain ⟨c, hc, hc8⟩ := code_index h.1
    obtain ⟨lo, hlo, hl, hs⟩ := low_ldr hr
    simp only [encodeLoad, encodeA, hg, hk, hc, hdd, hlo, bind, Option.bind]
    exact hasWords_of (fields_formatA (by decide) hk4 hc8 hd4 hl).2.2.2.2.1 hs (MemOp.length_ext m).symm

theorem slot_hasWords (row : SlotList → Shape) (sz : Size) (rd : Slot) (rs : Index) (h : stackWf rs = true)
    (hrow : ∀ l, ∃ lo, lowByteOf (row l) = some lo ∧ lo < 256 ∧ shapeOf lo = some (row l))
    (hn : ∀ w l, (row l).extWords w = 0) : HasWords (encodeSlot row sz rd rs) := by
  obtain ⟨dd, hdd, hd4, -⟩ := code_size sz
  obtain ⟨k, hk, hk8⟩ := code_stack h
  obtain ⟨j, hj, hj4⟩ : ∃ j, codeOf rd.row.list rd = some j ∧ j < 4 := by
    obtain _ | r := rd
    · exact ⟨_, rfl, by decide⟩
    · cases r <;> exact ⟨_, rfl, by decide⟩
  obtain ⟨lo, hlo, hl, hs⟩ := hrow rd.row
  simp only [encodeSlot, hdd, hk, hj, hlo, bind, Option.bind]
  exact hasWords_of (fields_formatA (by decide) hj4 hk8 hd4 hl).2.2.2.2.1 hs (hn _ _)

/-! The instructions. -/

theorem Encoding.abs (sz : Size) (f : UnaryForm) : Encoding.Statement (.abs sz f) :=
  fun h => unary_hasWords_pair 1 1 sz f h (by decide) (by decide)

theorem Encoding.dec (sz : Size) (nn : BitVec 2) (f : UnaryForm) : Encoding.Statement (.dec sz nn f) :=
  fun h => unary_hasWords_pair 0 nn.toNat sz f h (by decide) nn.isLt

theorem Encoding.ext (sz : Size) (f : UnaryForm) : Encoding.Statement (.ext sz f) :=
  fun h => unary_hasWords_pair 1 2 sz f h (by decide) (by decide)

theorem Encoding.inc (sz : Size) (nn : BitVec 2) (f : UnaryForm) : Encoding.Statement (.inc sz nn f) :=
  fun h => inc_hasWords nn.toNat sz f h nn.isLt

theorem Encoding.neg (sz : Size) (f : UnaryForm) : Encoding.Statement (.neg sz f) :=
  fun h => unary_hasWords_pair 1 0 sz f h (by decide) (by decide)

theorem Encoding.not (sz : Size) (f : UnaryForm) : Encoding.Statement (.not sz f) :=
  fun h => unary_hasWords_pair 1 3 sz f h (by decide) (by decide)

theorem Encoding.adc (sz : Size) (f : AluForm) : Encoding.Statement (.adc sz f) :=
  fun h => alu_hasWords .adc sz f h

theorem Encoding.add (sz : Size) (f : AluForm) : Encoding.Statement (.add sz f) :=
  fun h => alu_hasWords .add sz f h

theorem Encoding.and (sz : Size) (f : AluForm) : Encoding.Statement (.and sz f) :=
  fun h => alu_hasWords .and sz f h

theorem Encoding.bic (sz : Size) (f : AluForm) : Encoding.Statement (.bic sz f) :=
  fun h => alu_hasWords .bic sz f h

theorem Encoding.bit (sz : Size) (f : TestForm) : Encoding.Statement (.bit sz f) :=
  fun h => test_hasWords sz f h

theorem Encoding.eor (sz : Size) (f : AluForm) : Encoding.Statement (.eor sz f) :=
  fun h => alu_hasWords .eor sz f h

theorem Encoding.ora (sz : Size) (f : AluForm) : Encoding.Statement (.ora sz f) :=
  fun h => alu_hasWords .ora sz f h

theorem Encoding.sbc (sz : Size) (f : AluForm) : Encoding.Statement (.sbc sz f) :=
  fun h => alu_hasWords .sbc sz f h

theorem Encoding.sub (sz : Size) (f : AluForm) : Encoding.Statement (.sub sz f) :=
  fun h => alu_hasWords .sub sz f h

theorem Encoding.asl (sz : Size) (f : ShiftForm) : Encoding.Statement (.asl sz f) :=
  fun h => shift_hasWords .asl sz f h

theorem Encoding.asr (sz : Size) (f : ShiftForm) : Encoding.Statement (.asr sz f) :=
  fun h => shift_hasWords .asr sz f h

theorem Encoding.esl (sz : Size) (f : ShiftForm) : Encoding.Statement (.esl sz f) :=
  fun h => shift_hasWords .esl sz f h

theorem Encoding.lsr (sz : Size) (f : ShiftForm) : Encoding.Statement (.lsr sz f) :=
  fun h => shift_hasWords .lsr sz f h

theorem Encoding.rlb (sz : Size) (f : ShiftForm) : Encoding.Statement (.rlb sz f) :=
  fun h => shift_hasWords .rlb sz f h

theorem Encoding.rol (sz : Size) (f : ShiftForm) : Encoding.Statement (.rol sz f) :=
  fun h => shift_hasWords .rol sz f h

theorem Encoding.ror (sz : Size) (f : ShiftForm) : Encoding.Statement (.ror sz f) :=
  fun h => shift_hasWords .ror sz f h

theorem Encoding.rrb (sz : Size) (f : ShiftForm) : Encoding.Statement (.rrb sz f) :=
  fun h => shift_hasWords .rrb sz f h

theorem Encoding.bpl (f : BranchForm) : Encoding.Statement (.bpl f) :=
  fun h => branch_hasWords .pl f h

theorem Encoding.bmi (f : BranchForm) : Encoding.Statement (.bmi f) :=
  fun h => branch_hasWords .mi f h

theorem Encoding.bvc (f : BranchForm) : Encoding.Statement (.bvc f) :=
  fun h => branch_hasWords .vc f h

theorem Encoding.bvs (f : BranchForm) : Encoding.Statement (.bvs f) :=
  fun h => branch_hasWords .vs f h

theorem Encoding.bcc (f : BranchForm) : Encoding.Statement (.bcc f) :=
  fun h => branch_hasWords .cc f h

theorem Encoding.bcs (f : BranchForm) : Encoding.Statement (.bcs f) :=
  fun h => branch_hasWords .cs f h

theorem Encoding.bne (f : BranchForm) : Encoding.Statement (.bne f) :=
  fun h => branch_hasWords .ne f h

theorem Encoding.beq (f : BranchForm) : Encoding.Statement (.beq f) :=
  fun h => branch_hasWords .eq f h

theorem Encoding.bge (f : BranchForm) : Encoding.Statement (.bge f) :=
  fun h => branch_hasWords .ge f h

theorem Encoding.blt (f : BranchForm) : Encoding.Statement (.blt f) :=
  fun h => branch_hasWords .lt f h

theorem Encoding.ble (f : BranchForm) : Encoding.Statement (.ble f) :=
  fun h => branch_hasWords .le f h

theorem Encoding.bgt (f : BranchForm) : Encoding.Statement (.bgt f) :=
  fun h => branch_hasWords .gt f h

theorem Encoding.bls (f : BranchForm) : Encoding.Statement (.bls f) :=
  fun h => branch_hasWords .ls f h

theorem Encoding.bhi (f : BranchForm) : Encoding.Statement (.bhi f) :=
  fun h => branch_hasWords .hi f h

theorem Encoding.bnv (f : BranchForm) : Encoding.Statement (.bnv f) :=
  fun h => branch_hasWords .nv f h

theorem Encoding.bra (f : BranchForm) : Encoding.Statement (.bra f) :=
  fun h => branch_hasWords .ra f h

theorem Encoding.brk (w : Bool) (q : BitVec 3) (v : BitVec 4) : Encoding.Statement (.brk w q v) := fun _ => by
  have hs : shapeOf 0 = some .brk := by rfl
  have hw := Bool.toNat_lt w
  exact ⟨_, _, rfl, extWords_of_shape (fields_formatF hw q.isLt v.isLt (by decide)).2.2.2 hs⟩

theorem Encoding.jmp (f : JumpForm) : Encoding.Statement (.jmp f) := fun _ => by
  cases f <;> exact ⟨_, _, rfl, rfl⟩

theorem Encoding.jsr (rs : Index) (a : Word) : Encoding.Statement (.jsr rs a) :=
  fun h => stack_hasWords .jsr rs (halvesOfWord a) h ⟨_, rfl, by decide, rfl⟩ fun _ => rfl

theorem Encoding.nop (n : BitVec 8) : Encoding.Statement (.nop n) := fun _ => by
  have hs : shapeOf 0xEA = some .nop := by rfl
  refine ⟨_, _, rfl, extWords_of_shape (lo := 0xEA) ?_ hs⟩
  have := n.isLt
  simp only [field, BitVec.toNat_ofNat]
  omega

theorem Encoding.rti (rs : Index) : Encoding.Statement (.rti rs) :=
  fun h => stack_hasWords .rti rs [] h ⟨_, rfl, by decide, rfl⟩ fun _ => rfl

theorem Encoding.rts (rs : Index) : Encoding.Statement (.rts rs) :=
  fun h => stack_hasWords .rts rs [] h ⟨_, rfl, by decide, rfl⟩ fun _ => rfl

theorem Encoding.cbt (f : BitForm) (b : BitVec 5) : Encoding.Statement (.cbt f b) :=
  fun h => bit_hasWords .cbt f b h

theorem Encoding.sbt (f : BitForm) (b : BitVec 5) : Encoding.Statement (.sbt f b) :=
  fun h => bit_hasWords .sbt f b h

theorem Encoding.tbt (f : BitForm) (b : BitVec 5) : Encoding.Statement (.tbt f b) :=
  fun h => bit_hasWords .tbt f b h

theorem Encoding.xbt (f : BitForm) (b : BitVec 5) : Encoding.Statement (.xbt f b) :=
  fun h => bit_hasWords .xbt f b h

theorem Encoding.ldr (sz : Size) (f : LoadForm) : Encoding.Statement (.ldr sz f) :=
  fun h => load_hasWords sz f h

theorem Encoding.mov (sz : Size) (row : MovRow) (rd rs : Reg) : Encoding.Statement (.mov sz row rd rs) := fun h => by
  obtain ⟨dd, hdd, hd4, -⟩ := code_size sz
  have hw : row.admits rd rs = true := h
  obtain ⟨lo, hlo, hl, hs⟩ : ∃ lo, lowByteOf (.mov row) = some lo ∧ lo < 256 ∧ shapeOf lo = some (.mov row) := by
    cases row <;> exact ⟨_, rfl, by decide, rfl⟩
  obtain ⟨d, hd, hd8⟩ : ∃ k, codeOf row.rdList rd = some k ∧ k < 8 := by
    cases row <;> have h1 := (Bool.and_eq_true_iff.mp hw).1 <;> cases rd <;>
      first | exact ⟨_, rfl, by decide⟩ | cases h1
  obtain ⟨r, hr, hr8⟩ : ∃ k, codeOf row.rsList rs = some k ∧ k < 8 := by
    cases row <;> have h2 := (Bool.and_eq_true_iff.mp hw).2 <;> cases rs <;>
      first | exact ⟨_, rfl, by decide⟩ | cases h2
  simp only [encode, hd, hr, hdd, hlo, bind, Option.bind]
  exact hasWords_of (fields_formatG hd8 hr8 hd4 hl).2.2.2 hs rfl

theorem Encoding.psh (sz : Size) (rd : Slot) (rs : Index) : Encoding.Statement (.psh sz rd rs) := fun h =>
  slot_hasWords .psh sz rd rs (Bool.and_eq_true_iff.mp h).2
    (fun l => by cases l <;> exact ⟨_, rfl, by decide, rfl⟩) (fun _ _ => rfl)

theorem Encoding.pul (sz : Size) (rd : Slot) (rs : Index) : Encoding.Statement (.pul sz rd rs) := fun h =>
  slot_hasWords .pul sz rd rs (Bool.and_eq_true_iff.mp h).2
    (fun l => by cases l <;> exact ⟨_, rfl, by decide, rfl⟩) (fun _ _ => rfl)

theorem Encoding.str (sz : Size) (rd : Reg) (m : MemOp) : Encoding.Statement (.str sz rd m) := fun h => by
  obtain ⟨dd, hdd, hd4, -⟩ := code_size sz
  have hm : moveMemWf rd m = true := h
  obtain ⟨g, hg, hr⟩ := row_move hm
  have hm : m.indexWf = true ∧ _ = true := Bool.and_eq_true_iff.mp hm
  obtain ⟨k, hk, hk4⟩ := code_group hg
  obtain ⟨c, hc, hc8⟩ := code_index hm.1
  obtain ⟨lo, hlo, hl, hs⟩ := low_str hr
  simp only [encode, encodeA, hg, hk, hc, hdd, hlo, bind, Option.bind]
  exact hasWords_of (fields_formatA (by decide) hk4 hc8 hd4 hl).2.2.2.2.1 hs (MemOp.length_ext m).symm

end Sys2Proof.Laws
end

