-- ==== Sys2Proof/Laws/Length.lean ====
section
/-! SUPPORT. The length of an instruction: that its encoding has as many words as it takes, and which words NOP
alone skips (00_scope R16, 30_encoding R60, 43_control R202). -/

namespace Sys2Proof.Laws

theorem length_ext_words (m : MemOp) : m.ext.length = m.words := MemOp.length_ext m

theorem length_encodeUnary {t f2 : Nat} {row : UnaryRow → Shape} {sz : Size} {f : UnaryForm} {ws : List Half}
    (h : encodeUnary t f2 row sz f = some ws) : ws.length = f.words := by
  cases f <;> simp only [encodeUnary, Option.bind_eq_bind, Option.bind_eq_some_iff, Option.some.injEq] at h
  · obtain ⟨_, -, _, -, _, -, rfl⟩ := h
    rfl
  · obtain ⟨_, -, _, -, _, -, rfl⟩ := h
    simp [UnaryForm.words, length_ext_words, Nat.add_comm]

theorem length_encodeUnaryOp {op : UnaryOp} {sz : Size} {f : UnaryForm} {ws : List Half}
    (h : encodeUnaryOp op sz f = some ws) : ws.length = f.words := by
  simp only [encodeUnaryOp, Option.bind_eq_bind, Option.bind_eq_some_iff] at h
  obtain ⟨_, -, h⟩ := h
  exact length_encodeUnary h

theorem length_encodeAlu {op : AluOp} {sz : Size} {f : AluForm} {ws : List Half} (h : encodeAlu op sz f = some ws) :
    ws.length = f.words sz := by
  cases f <;> simp only [encodeAlu, Option.bind_eq_bind, Option.bind_eq_some_iff, Option.some.injEq] at h <;>
    obtain ⟨_, -, _, -, _, -, _, -, rfl⟩ := h
  · rfl
  · cases sz <;> rfl
  · simp [AluForm.words, length_ext_words, Nat.add_comm]

theorem length_encodeTest {sz : Size} {f : TestForm} {ws : List Half} (h : encodeTest sz f = some ws) :
    ws.length = f.words := by
  cases f <;> simp only [encodeTest, Option.bind_eq_bind, Option.bind_eq_some_iff, Option.some.injEq] at h <;>
    obtain ⟨_, -, _, -, _, -, rfl⟩ := h
  · rfl
  · simp [TestForm.words, length_ext_words, Nat.add_comm]

theorem length_encodeShift {op : ShiftOp} {sz : Size} {f : ShiftForm} {ws : List Half}
    (h : encodeShift op sz f = some ws) : ws.length = f.words := by
  cases f <;> simp only [encodeShift, Option.bind_eq_bind, Option.bind_eq_some_iff, Option.some.injEq] at h
  · obtain ⟨_, -, _, -, _, -, _, -, rfl⟩ := h
    rfl
  · obtain ⟨_, -, _, -, _, -, _, -, rfl⟩ := h
    rfl
  · obtain ⟨_, -, _, -, _, -, _, -, _, -, rfl⟩ := h
    rfl
  · obtain ⟨_, -, _, -, _, -, _, -, rfl⟩ := h
    simp [ShiftForm.words, length_ext_words, Nat.add_comm]

theorem length_encodeBranch {c : Cond} {f : BranchForm} {ws : List Half} (h : encodeBranch c f = some ws) :
    ws.length = f.words := by
  obtain ⟨offset, base, ind, lnk⟩ := f
  cases offset <;> simp only [encodeBranch, Option.bind_eq_bind, Option.bind_eq_some_iff, Option.some.injEq] at h <;>
    obtain ⟨_, -, _, -, _, -, rfl⟩ := h <;> rfl

theorem length_encodeStack {sh : Shape} {rs : Index} {ext ws : List Half} (h : encodeStack sh rs ext = some ws) :
    ws.length = ext.length + 1 := by
  simp only [encodeStack, Option.bind_eq_bind, Option.bind_eq_some_iff, Option.some.injEq] at h
  obtain ⟨_, -, _, -, rfl⟩ := h
  rfl

theorem length_encodeBit {op : BitOp} {f : BitForm} {b : BitVec 5} {ws : List Half} (h : encodeBit op f b = some ws) :
    ws.length = f.words := by
  cases f <;> simp only [encodeBit, Option.bind_eq_bind, Option.bind_eq_some_iff, Option.some.injEq] at h <;>
    obtain ⟨_, -, _, -, _, -, _, -, rfl⟩ := h <;> rfl

theorem length_encodeLoad {sz : Size} {f : LoadForm} {ws : List Half} (h : encodeLoad sz f = some ws) :
    ws.length = f.words sz := by
  cases f <;> simp only [encodeLoad, Option.bind_eq_bind, Option.bind_eq_some_iff, Option.some.injEq] at h <;>
    obtain ⟨_, -, _, -, _, -, rfl⟩ := h
  · cases sz <;> rfl
  · simp [LoadForm.words, length_ext_words, Nat.add_comm]

theorem length_encodeSlot {row : SlotList → Shape} {sz : Size} {rd : Slot} {rs : Index} {ws : List Half}
    (h : encodeSlot row sz rd rs = some ws) : ws.length = 1 := by
  simp only [encodeSlot, Option.bind_eq_bind, Option.bind_eq_some_iff, Option.some.injEq] at h
  obtain ⟨_, -, _, -, _, -, _, -, rfl⟩ := h
  rfl

/-- The words of an encoding are as many as the instruction has, but for NOP, whose skipped words are not written. -/
theorem length_encode {i : Instr} {ws : List Half} (h : encode i = some ws) (hn : ∀ n, i ≠ .nop n) :
    ws.length = i.words := by
  cases i with
  | nop n => exact absurd rfl (hn n)
  | brk => cases h; rfl
  | jmp t => cases t <;> cases h <;> rfl
  | jsr => exact length_encodeStack h
  | rti => exact length_encodeStack h
  | rts => exact length_encodeStack h
  | mov =>
    simp only [encode, Option.bind_eq_bind, Option.bind_eq_some_iff, Option.some.injEq] at h
    obtain ⟨_, -, _, -, _, -, _, -, rfl⟩ := h
    rfl
  | str sz rd m =>
    simp only [encode, Option.bind_eq_bind, Option.bind_eq_some_iff, Option.some.injEq] at h
    obtain ⟨_, -, _, -, _, -, rfl⟩ := h
    simp [Instr.words, length_ext_words, Nat.add_comm]
  | _ =>
    first
    | exact length_encodeUnaryOp h
    | exact length_encodeUnary h
    | exact length_encodeAlu h
    | exact length_encodeTest h
    | exact length_encodeShift h
    | exact length_encodeBranch h
    | exact length_encodeBit h
    | exact length_encodeLoad h
    | exact length_encodeSlot h

/-- Only NOP skips words. -/
theorem skippedWords_of_decode {w : Half} {ext rest : List Half} {i : Instr} (h : decode (w :: ext) = .ok (i, rest))
    (hn : ∀ n, i ≠ .nop n) : skippedWords w = 0 := by
  unfold skippedWords
  split
  · rename_i hf
    simp only [decode, hf] at h
    rw [show shapeOf 0xEA = some .nop by decide] at h
    cases h
    exact absurd rfl (hn _)
  · rfl

/-- A NOP skips as many words as its operand says. -/
theorem skippedWords_nop {n : BitVec 8} {ws : List Half} (h : encode (.nop n) = some ws) :
    ∃ w, ws = [w] ∧ skippedWords w = n.toNat := by
  have hn := n.isLt
  cases h
  refine ⟨_, rfl, ?_⟩
  have hw : (BitVec.ofNat 16 (n.toNat * 2 ^ 8 + 0xEA)).toNat = n.toNat * 2 ^ 8 + 0xEA := by
    rw [BitVec.toNat_ofNat]
    omega
  show skippedWords (BitVec.ofNat 16 (n.toNat * 2 ^ 8 + 0xEA)) = n.toNat
  unfold skippedWords field
  rw [hw, if_pos (by omega)]
  omega

end Sys2Proof.Laws
end

