-- ==== Sys2Proof/Laws/Meanings.lean ====
section
/-! SUPPORT. The shared meanings, once each: what a next state they answer looks like. -/

namespace Sys2Proof.Machine

/-! One operand. -/

/-- A register form always answers. -/
theorem unaryMeaning_reg (fn : Size → Word → Word) (sz : Size) (rd : Reg) (s : State) :
    unaryMeaning fn sz (.reg rd) s
      = .next (((s.writeReg rd sz (fn sz (s.readReg rd sz))).setNZ (fn sz (s.readReg rd sz)) sz).setPc
          (s.nextPc 1)) := rfl

/-- A memory form that answers: its address, and the state it leaves. -/
theorem unaryMeaning_mem_next {fn : Size → Word → Word} {sz : Size} {m : MemOp} {s t : State}
    (h : unaryMeaning fn sz (.mem m) s = .next t) :
    ∃ ea, s.effAddr (s.nextPc (1 + m.words)) m = .ok ea ∧ Writable s ea sz ∧
      t = (((s.poke ea sz (fn sz (s.peek ea sz))).setNZ (fn sz (s.peek ea sz)) sz).setPc (s.nextPc (1 + m.words))) := by
  simp only [unaryMeaning, UnaryForm.words, outcome_eq_next, bind, Except.bind] at h
  split at h
  · cases h
  · rename_i ea he
    split at h
    · cases h
    · rename_i v hl
      obtain ⟨-, rfl⟩ := State.load_ok hl
      split at h
      · cases h
      · rename_i u hs
        obtain ⟨hw, rfl⟩ := State.store_ok hs
        cases h
        exact ⟨ea, he, hw, rfl⟩

/-! Two operands. -/

/-- A two-operand instruction that answers: its second operand, and the state it leaves. -/
theorem aluMeaning_next {fn : AluFn} {sz : Size} {f : AluForm} {s t : State} (h : aluMeaning fn sz f s = .next t) :
    ∃ b, s.aluSource (s.nextPc (f.words sz)) sz f = .ok b ∧
      t = ((((s.writeReg (aluDest f) sz (fn sz (s.readReg (aluDest f) sz) b (s.flag Params.flagC)).value).putCV
        (fn sz (s.readReg (aluDest f) sz) b (s.flag Params.flagC)).cv).setNZ
          (fn sz (s.readReg (aluDest f) sz) b (s.flag Params.flagC)).value sz).setPc (s.nextPc (f.words sz))) := by
  simp only [aluMeaning, outcome_eq_next, bind, Except.bind] at h
  split at h
  · cases h
  · rename_i b hb
    cases h
    exact ⟨b, hb, rfl⟩

/-! Shifts and rotates. -/

/-- A shift by a count in its range answers; by any other it is refused. -/
theorem State.shiftValue_ok {s : State} {step : OpenStep} {sz : Size} {k : Nat} {v : Word} {x : Word × Bool}
    (h : s.shiftValue step sz k v = .ok x) :
    1 ≤ k ∧ k < sz.bits ∧ x = repeatStep step sz k (v, s.flag Params.flagC) := by
  have hp := sz.bits_pos
  unfold State.shiftValue at h
  split at h
  · cases h
    exact ⟨by omega, by omega, rfl⟩
  · cases h

theorem State.shiftValue_error {s : State} {step : OpenStep} {sz : Size} {k : Nat} {v : Word} {e : Refusal}
    (h : s.shiftValue step sz k v = .error e) : e = .shiftCount ∧ (k = 0 ∨ sz.bits ≤ k) := by
  have hp := sz.bits_pos
  unfold State.shiftValue at h
  split at h
  · cases h
  · cases h
    exact ⟨rfl, by omega⟩

/-- A register form that answers: its count is in range, and the state it leaves. -/
theorem State.shiftReg_ok {s t : State} {step : OpenStep} {sz : Size} {rd : Reg} {k : Nat} {next : Addr}
    (h : s.shiftReg step sz rd k next = .ok t) :
    ∃ r c, 1 ≤ k ∧ k < sz.bits ∧ (r, c) = repeatStep step sz k (s.readReg rd sz, s.flag Params.flagC) ∧
      t = (((s.writeReg rd sz r).shiftFlags r c sz).setPc next) := by
  simp only [State.shiftReg, bind, Except.bind] at h
  split at h
  · cases h
  · rename_i x hx
    obtain ⟨r, c⟩ := x
    cases h
    obtain ⟨h1, h2, h3⟩ := State.shiftValue_ok hx
    exact ⟨r, c, h1, h2, h3, rfl⟩

/-- A register form is refused for its count alone. -/
theorem State.shiftReg_error {s : State} {step : OpenStep} {sz : Size} {rd : Reg} {k : Nat} {next : Addr}
    {e : Refusal} (h : s.shiftReg step sz rd k next = .error e) : e = .shiftCount ∧ (k = 0 ∨ sz.bits ≤ k) := by
  simp only [State.shiftReg, bind, Except.bind] at h
  split at h
  · rename_i e' he
    cases h
    exact State.shiftValue_error he
  · cases h

/-- A shift with an open step answers only where the step is supplied, and then as any other. -/
theorem openMeaning_next {b : Bool} {absent : Refusal} {step : OpenStep} {sz : Size} {f : ShiftForm} {s t : State}
    (h : openMeaning b absent step sz f s = .next t) : b = true ∧ shiftMeaning step sz f s = .next t := by
  unfold openMeaning at h
  split at h
  · rename_i hb
    exact ⟨hb, h⟩
  · cases h

/-- A memory form that answers: its address, and the state it leaves. -/
theorem shiftMeaning_mem_next {step : OpenStep} {sz : Size} {m : MemOp} {nn : BitVec 2} {s t : State}
    (h : shiftMeaning step sz (.mem m nn) s = .next t) :
    ∃ ea r c, s.effAddr (s.nextPc (1 + m.words)) m = .ok ea ∧ Writable s ea sz ∧
      (r, c) = repeatStep step sz (amount nn) (s.peek ea sz, s.flag Params.flagC) ∧
      t = (((s.poke ea sz r).shiftFlags r c sz).setPc (s.nextPc (1 + m.words))) := by
  simp only [shiftMeaning, ShiftForm.words, outcome_eq_next, bind, Except.bind] at h
  split at h
  · cases h
  · rename_i ea he
    split at h
    · cases h
    · rename_i v hl
      obtain ⟨-, rfl⟩ := State.load_ok hl
      split at h
      · cases h
      · rename_i x hx
        obtain ⟨r, c⟩ := x
        split at h
        · cases h
        · rename_i w hs
          obtain ⟨hw, rfl⟩ := State.store_ok hs
          cases h
          exact ⟨ea, r, c, he, hw, (State.shiftValue_ok hx).2.2, rfl⟩

/-! Branches. -/

/-- A branch that answers: not taken, taken, or taken after its link. -/
theorem branchMeaning_next {c : Cond} {f : BranchForm} {s t : State} (h : branchMeaning c f s = .next t) :
    (s.cond c = false ∧ t = s.setPc (s.nextPc f.words)) ∨
    (s.cond c = true ∧ ∃ u target, s.link f.link (s.nextPc f.words) = .ok u ∧
      u.branchTarget f (s.nextPc f.words) = .ok target ∧ t = u.setPc target) := by
  simp only [branchMeaning, outcome_eq_next, bind, Except.bind] at h
  split at h
  · rename_i hc
    split at h
    · cases h
    · rename_i u hu
      split at h
      · cases h
      · rename_i target ht
        cases h
        exact .inr ⟨hc, u, target, hu, ht, rfl⟩
  · rename_i hc
    cases h
    exact .inl ⟨by simpa using hc, rfl⟩

/-! Single bits. -/

/-- A register form always answers. -/
theorem bitMeaning_reg (fn : Word → Word → Word) (rd : Reg) (b : BitVec 5) (s : State) :
    bitMeaning fn (.reg rd) b s
      = .next ((s.setReg rd (fn (s.reg rd) (bitMask b.toNat))).setPc (s.nextPc 1)) := rfl

/-- A memory form that answers: its address is writable, and the state it leaves. -/
theorem bitMeaning_mem_next {fn : Word → Word → Word} {a : Word} {ri : Index} {b : BitVec 5} {s t : State}
    (h : bitMeaning fn (.mem a ri) b s = .next t) :
    Writable s (s.bitAddr (s.nextPc 3) a ri) .l ∧
      t = ((s.poke (s.bitAddr (s.nextPc 3) a ri) .l
        (fn (s.peek (s.bitAddr (s.nextPc 3) a ri) .l) (bitMask b.toNat))).setPc (s.nextPc 3)) := by
  simp only [bitMeaning, BitForm.words, outcome_eq_next, bind, Except.bind] at h
  split at h
  · cases h
  · rename_i v hl
    obtain ⟨-, rfl⟩ := State.load_ok hl
    split at h
    · cases h
    · rename_i u hs
      obtain ⟨hw, rfl⟩ := State.store_ok hs
      cases h
      exact ⟨hw, rfl⟩

end Sys2Proof.Machine
end

