-- ==== Sys2Proof/Tests/Slice0.lean ====
section
/-! SUPPORT. Tests on fixed values: the check of terms, the words of the encoding tables, single steps taken from
the vectors of the spec (95_test_vectors, whose numbers the comments give), and for each statement that has
hypotheses a state and operands that meet them (`witness_<statement>`). -/

namespace Sys2Proof.Tests

open Sys2Proof Sys2Proof.Machine

-- One test at a time: each waits for the one before it, and a waiting thread holds a stack.
set_option Elab.async false

/-! Helpers. -/

/-- The machine after reset, with words at pc, 0x1000. -/
def ready (hs : List Half) : State := { State.reset with mem := Memory.writeBytes [] 0x1000 (bytesOfHalves hs) }

/-- Four bytes of memory set. -/
def put (a : Addr) (v : Word) (s : State) : State := s.poke a .l v

/-- A register set. -/
def reg (r : Reg) (v : Word) (s : State) : State := s.setReg r v

/-- A small launch: text at 0x1000, eight bytes at 0x2000, sixteen of stack up to 0x0DFF, vector 2, HALT_PC. -/
def small (hs : List Half) : State :=
  { ready hs with
    mapped := [⟨0x1000, 16⟩, ⟨0x2000, 8⟩, ⟨0x0DF0, 16⟩, ⟨0x0FFA, 2⟩]
    text := [⟨0x1000, 16⟩]
    haltPc := some 0x1010 }

/-- A launch that supplies every open step. -/
def supply (s : State) : State := { s with supplied := ⟨true, true, true⟩ }

/-- The answer is a next state of which `p` holds. -/
def nextIs (r : Result) (p : State → Bool) : Bool :=
  match r with
  | .next t => p t
  | _ => false

/-- The answer is a refusal for the reason given. -/
def refusedAs (r : Result) (why : Refusal) : Bool :=
  match r with
  | .refused r => decide (r = why)
  | _ => false

/-- What a test of a next state says. -/
theorem next_of_nextIs {r : Result} {p : State → Bool} (h : nextIs r p = true) : ∃ t, r = .next t ∧ p t = true := by
  cases r with
  | next t => exact ⟨t, rfl, h⟩
  | fault f => cases h
  | refused w => cases h

/-- The words are the encoding of the instruction, and decode to it. -/
def agree (ws : List Half) (i : Instr) : Bool :=
  (match decode ws with
    | .ok (j, rest) => decide (j = i) && rest.isEmpty
    | .error _ => false)
  && i.wf && decide (encode i = some ws)

/-- The words are rejected as reserved. -/
def reserved (ws : List Half) : Bool :=
  match decode ws with
  | .error r => decide (r = .reserved)
  | .ok _ => false

/-! Terms that have no encoding, one or more for each check of WellFormed.lean. -/

theorem test_wf_index : IxList.admits .xxx .pc = false ∧ IxList.admits .xxx (.reg .y0) = false ∧
    IxList.admits .yyy (.reg .a0) = false ∧ IxList.admits .zzz (.reg .p) = false ∧
    MemOp.indexWf (.pre 0 (.reg .y0)) = false ∧ MemOp.indexWf (.post 0 (.reg .x0)) = false := by decide

theorem test_wf_unary : Instr.wf (.abs .b (.reg .p)) = false ∧ Instr.wf (.dec .b 0 (.mem (.abs16 .yyy 0 .zero))) = false ∧
    Instr.wf (.ext .b (.mem (.abs32 .yyy 0 .zero))) = false ∧ Instr.wf (.inc .b 0 (.mem (.pre 0 (.reg .x0)))) = false ∧
    Instr.wf (.neg .b (.mem (.post 0 (.reg .y0)))) = false ∧ Instr.wf (.not .b (.reg .p)) = false := by decide

theorem test_wf_alu : Instr.wf (.adc .b (.reg .z .a0)) = false ∧ Instr.wf (.add .b (.reg .a0 .y0)) = false ∧
    Instr.wf (.and .b (.imm .p 0)) = false ∧ Instr.wf (.bic .b (.imm .a0 0x100)) = false ∧
    Instr.wf (.eor .w (.imm .a0 0x10000)) = false ∧ Instr.wf (.ora .b (.mem .x0 (.abs16 .zzz 0 .zero))) = false ∧
    Instr.wf (.sbc .b (.mem .a0 (.abs16 .yyy 0 .zero))) = false ∧ Instr.wf (.sub .b (.mem .x0 (.abs32 .zzz 0 .zero))) = false ∧
    Instr.wf (.adc .b (.mem .sp (.abs32 .xxx 0 (.reg .x0)))) = false ∧ Instr.wf (.add .b (.mem .y0 (.pre 0 (.reg .x0)))) = false ∧
    Instr.wf (.sub .b (.mem .x0 (.post 0 (.reg .y0)))) = false := by decide

theorem test_wf_test : Instr.wf (.bit .b (.reg .x0 .a0)) = false ∧ Instr.wf (.bit .b (.reg .a0 .y0)) = false ∧
    Instr.wf (.bit .b (.mem .a0 (.abs16 .xxx 0 (.reg .x0)))) = false ∧ Instr.wf (.bit .b (.mem .a0 (.abs32 .yyy 0 .zero))) = false ∧
    Instr.wf (.bit .b (.mem .y0 (.abs32 .zzz 0 .zero))) = false ∧ Instr.wf (.bit .b (.mem .a0 (.pre 0 (.reg .x0)))) = false := by
  decide

theorem test_wf_shift : Instr.wf (.asl .b (.one .p)) = false ∧ Instr.wf (.asr .b (.imm .p 1)) = false ∧
    Instr.wf (.esl .b (.reg .p .a0)) = false ∧ Instr.wf (.lsr .b (.reg .a0 .p)) = false ∧
    Instr.wf (.rlb .b (.mem (.abs16 .yyy 0 .zero) 0)) = false ∧ Instr.wf (.rol .b (.mem (.pre 0 (.reg .x0)) 0)) = false ∧
    Instr.wf (.ror .b (.one .p)) = false ∧ Instr.wf (.rrb .b (.one .p)) = false := by decide

theorem test_wf_control : Instr.wf (.bra ⟨.short 0, .zero, false, false⟩) = false ∧
    Instr.wf (.bpl ⟨.short 0, .reg .p, false, false⟩) = false ∧ Instr.wf (.jsr (.reg .x0) 0) = false ∧
    Instr.wf (.rti (.reg .p)) = false ∧ Instr.wf (.rts (.reg .a0)) = false := by decide

theorem test_wf_bit : Instr.wf (.cbt (.mem 0 .pc) 0) = false ∧ Instr.wf (.sbt (.mem 0 (.reg .p)) 0) = false ∧
    Instr.wf (.tbt (.mem 0 .pc) 0) = false ∧ Instr.wf (.xbt (.mem 0 (.reg .p)) 0) = false := by decide

theorem test_wf_move : Instr.wf (.ldr .b (.imm .p 0)) = false ∧ Instr.wf (.ldr .b (.imm .a0 0x100)) = false ∧
    Instr.wf (.ldr .b (.mem .x0 (.abs16 .xxx 0 (.reg .x0)))) = false ∧ Instr.wf (.str .b .a0 (.abs16 .yyy 0 .zero)) = false ∧
    Instr.wf (.str .b .y0 (.abs32 .yyy 0 .zero)) = false ∧ Instr.wf (.str .b .x0 (.pre 0 (.reg .x0))) = false ∧
    Instr.wf (.str .b .z (.abs32 .zzz 0 .zero)) = false ∧
    Instr.wf (.mov .b .aa .a0 .a0) = false ∧ Instr.wf (.mov .b .aa .x0 .x0) = false ∧ Instr.wf (.mov .b .a8 .x0 .a0) = false ∧
    Instr.wf (.mov .b .ba .x0 .a0) = false ∧ Instr.wf (.mov .b .r8a .a0 .a0) = false ∧ Instr.wf (.mov .b .r9a .a0 .x0) = false ∧
    Instr.wf (.mov .b .r98 .a0 .x0) = false ∧ Instr.wf (.psh .w .pc (.reg .sp)) = false ∧
    Instr.wf (.pul .b .pc (.reg .sp)) = false ∧ Instr.wf (.psh .l .pc (.reg .x0)) = false ∧
    Instr.wf (.pul .l (.reg .a0) (.reg .p)) = false := by decide

/-! Words of every row of the encoding tables, written out from the rows' bits: bit 15, the fields, the low byte.
Where rows are shared by several instructions (30_encoding R72, R73), `t` is bit 15 and `base` what is added to
the low byte. -/

/-- The fifteen rows of the two-operand instructions (41_alu R130). -/
def aluWords (op : AluOp) (t base : Half) : Bool :=
  agree [0b0011101000011100 + t + base] (.alu op .l (.reg .a1 .x2))
  && agree [0b0100100100000011 + t + base] (.alu op .w (.reg .x2 .a2))
  && agree [0b0111100000010011 + t + base] (.alu op .b (.reg .y3 .x2))
  && agree [0b0110100000001001 + t + base, 0x00FE] (.alu op .b (.imm .z 0xFE))
  && agree [0b0111000100001001 + t + base, 0xFEDC] (.alu op .w (.imm .sp 0xFEDC))
  && agree [0b0101101000001001 + t + base, 0x5678, 0x1234] (.alu op .l (.imm .y3 0x12345678))
  && agree [0b0000110000010101 + t + base, 0x2000] (.alu op .b (.mem .a0 (.abs16 .xxx 0x2000 (.reg .x3))))
  && agree [0b0110100100000101 + t + base, 0x8000] (.alu op .w (.mem .a3 (.abs16 .zzz 0x8000 (.reg .sp))))
  && agree [0b0011001000011101 + t + base, 0x5678, 0x1234] (.alu op .l (.mem .a1 (.abs32 .xxx 0x12345678 (.reg .a0))))
  && agree [0b0101111000001111 + t + base, 1, 2] (.alu op .l (.mem .x2 (.abs32 .xxx 0x20001 (.reg .a3))))
  && agree [0b0110000000011111 + t + base, 1, 2] (.alu op .b (.mem .y3 (.abs32 .xxx 0x20001 (.reg .x0))))
  && agree [0b0101001000011001 + t + base, 1, 2] (.alu op .l (.mem .a2 (.abs32 .yyy 0x20001 .zero)))
  && agree [0b0011110100001011 + t + base, 1, 2] (.alu op .w (.mem .x1 (.abs32 .yyy 0x20001 .pc)))
  && agree [0b0000010000011011 + t + base, 1, 2] (.alu op .b (.mem .y0 (.abs32 .yyy 0x20001 (.reg .y1))))
  && agree [0b0100011000001101 + t + base, 1, 2] (.alu op .l (.mem .a2 (.abs32 .zzz 0x20001 (.reg .z))))
  && agree [0b0001010000000001 + t + base, 0x2000] (.alu op .b (.mem .a0 (.pre 0x2000 (.reg .a1))))
  && agree [0b0111101000010001 + t + base, 0x2000] (.alu op .l (.mem .a3 (.post 0x2000 (.reg .sp))))

theorem test_words_ora : aluWords .ora 0 0x00 = true := by decide +kernel
theorem test_words_and : aluWords .and 0 0x20 = true := by decide +kernel
theorem test_words_bic : aluWords .bic 0x8000 0x20 = true := by decide +kernel
theorem test_words_eor : aluWords .eor 0 0x40 = true := by decide +kernel
theorem test_words_adc : aluWords .adc 0 0x60 = true := by decide +kernel
theorem test_words_add : aluWords .add 0x8000 0x60 = true := by decide +kernel
theorem test_words_sbc : aluWords .sbc 0 0xE0 = true := by decide +kernel
theorem test_words_sub : aluWords .sub 0x8000 0xE0 = true := by decide +kernel

/-- BIT (41_alu R138). -/
theorem test_words_bit :
    agree [0b0100010000110100] (.bit .b (.reg .a2 .a1)) = true ∧
    agree [0b0010000100100100, 0x2000] (.bit .w (.mem .a1 (.abs16 .zzz 0x2000 .zero))) = true ∧
    agree [0b0110001000101100, 1, 2] (.bit .l (.mem .a3 (.abs32 .xxx 0x20001 (.reg .x0)))) = true ∧
    agree [0b0001110100111010, 1, 2] (.bit .w (.mem .a0 (.abs32 .zzz 0x20001 (.reg .y3)))) = true := by decide +kernel

/-- The six rows of the one-operand instructions (40_unary R110); `t` holds bits 15:13. -/
def unaryWords (op : UnaryOp) (t : Half) : Bool :=
  agree [0b0001011011001010 + t] (.unary op .l (.reg .a1))
  && agree [0b0001100110001000 + t] (.unary op .w (.reg .sp))
  && agree [0b0000100011010110 + t, 0x2000] (.unary op .b (.mem (.abs16 .xxx 0x2000 (.reg .x2))))
  && agree [0b0000110111000110 + t, 0x2000] (.unary op .w (.mem (.abs16 .zzz 0x2000 .pc)))
  && agree [0b0001111011011110 + t, 1, 2] (.unary op .l (.mem (.abs32 .xxx 0x20001 (.reg .a3))))
  && agree [0b0001010011001110 + t, 1, 2] (.unary op .b (.mem (.abs32 .zzz 0x20001 (.reg .y1))))

theorem test_words_dec : unaryWords (.dec 0) 0 = true ∧ unaryWords (.dec 3) 0b0110000000000000 = true := by decide +kernel
theorem test_words_neg : unaryWords .neg 0b1000000000000000 = true := by decide +kernel
theorem test_words_abs : unaryWords .abs 0b1010000000000000 = true := by decide +kernel
theorem test_words_ext : unaryWords .ext 0b1100000000000000 = true := by decide +kernel
theorem test_words_not : unaryWords .not 0b1110000000000000 = true := by decide +kernel

/-- INC (40_unary R110, R115). -/
theorem test_words_inc :
    agree [0b0011011011101000] (.inc .l 1 (.reg .a1)) = true ∧ agree [0b0101010111001000] (.inc .w 2 (.reg .z)) = true ∧
    agree [0b0110100011110110, 0x2000] (.inc .b 3 (.mem (.abs16 .xxx 0x2000 (.reg .x2)))) = true ∧
    agree [0b0000000111100110, 0x2000] (.inc .w 0 (.mem (.abs16 .zzz 0x2000 .zero))) = true ∧
    agree [0b0011111011111110, 1, 2] (.inc .l 1 (.mem (.abs32 .xxx 0x20001 (.reg .a3)))) = true ∧
    agree [0b0000110011101110, 1, 2] (.inc .b 0 (.mem (.abs32 .zzz 0x20001 .pc))) = true := by decide +kernel

/-- The seven rows of the shifts and rotates (42_shift R160). -/
def shiftWords (op : ShiftOp) (t base : Half) : Bool :=
  agree [0b0001011000001010 + t + base] (.shift op .l (.one .x1))
  && agree [0b0011010100000010 + t + base, 0x0107] (.shift op .w (.imm .z 0x0107))
  && agree [0b0111100000000010 + t + base, 0x000B] (.shift op .b (.reg .sp .y3))
  && agree [0b0110010100010110 + t + base, 0x2000] (.shift op .w (.mem (.abs16 .xxx 0x2000 (.reg .x1)) 3))
  && agree [0b0000101000000110 + t + base, 0x2000] (.shift op .l (.mem (.abs16 .zzz 0x2000 (.reg .sp)) 0))
  && agree [0b0101000000011110 + t + base, 1, 2] (.shift op .b (.mem (.abs32 .xxx 0x20001 (.reg .a0)) 2))
  && agree [0b0011001000001110 + t + base, 1, 2] (.shift op .l (.mem (.abs32 .zzz 0x20001 (.reg .y0)) 1))

theorem test_words_asl : shiftWords .asl 0 0x00 = true := by decide +kernel
theorem test_words_esl : shiftWords .esl 0x8000 0x00 = true := by decide +kernel
theorem test_words_rol : shiftWords .rol 0 0x20 = true := by decide +kernel
theorem test_words_rlb : shiftWords .rlb 0x8000 0x20 = true := by decide +kernel
theorem test_words_lsr : shiftWords .lsr 0 0x40 = true := by decide +kernel
theorem test_words_asr : shiftWords .asr 0x8000 0x40 = true := by decide +kernel
theorem test_words_ror : shiftWords .ror 0 0x60 = true := by decide +kernel
theorem test_words_rrb : shiftWords .rrb 0x8000 0x60 = true := by decide +kernel

/-- The two rows of a branch, each with a short and a long offset (43_control R190); `c` is bit 15 and bits 7:5. -/
def branchWords (op : Cond) (c : Half) : Bool :=
  agree [0b0000111100010000 + c, 0xFFF8] (.branch op ⟨.short 0xFFF8, .reg .a0, false, false⟩)
  && agree [0b0101000000010000 + c, 1, 2] (.branch op ⟨.long 0x20001, .pc, false, true⟩)
  && agree [0b0011101000010000 + c, 4] (.branch op ⟨.short 4, .reg .x1, true, true⟩)
  && agree [0b0110000100010000 + c, 1, 2] (.branch op ⟨.long 0x20001, .reg .sp, true, false⟩)

theorem test_words_branches_low : branchWords .pl 0x00 = true ∧ branchWords .mi 0x20 = true ∧ branchWords .vc 0x40 = true ∧
    branchWords .vs 0x60 = true ∧ branchWords .cc 0x80 = true ∧ branchWords .cs 0xA0 = true ∧ branchWords .ne 0xC0 = true ∧
    branchWords .eq 0xE0 = true := by decide +kernel
theorem test_words_branches_high : branchWords .ge 0x8000 = true ∧ branchWords .lt 0x8020 = true ∧
    branchWords .le 0x8040 = true ∧ branchWords .gt 0x8060 = true ∧ branchWords .ls 0x8080 = true ∧
    branchWords .hi 0x80A0 = true ∧ branchWords .nv 0x80C0 = true ∧ branchWords .ra 0x80E0 = true := by decide +kernel

/-- BRK, JMP, JSR, NOP, RTI, RTS (43_control). -/
theorem test_words_control :
    agree [0b1101001000000000, 0] (.brk true 5 2) = true ∧ agree [0b0000111100000000, 0] (.brk false 0 15) = true ∧
    agree [0b0000000001001100, 0x5678, 0x1234] (.jmp (.direct 0x12345678)) = true ∧
    agree [0b0000000001101100, 0x2000, 0x0000] (.jmp (.indirect 0x2000)) = true ∧
    agree [0b0001000000100000, 0x0300, 0x0001] (.jsr (.reg .y2) 0x10300) = true ∧
    agree [0b0000010000100000, 0x0300, 0x0001] (.jsr .pc 0x10300) = true ∧
    agree [0b0000001111101010] (.nop 3) = true ∧ agree [0b1111111111101010] (.nop 255) = true ∧
    agree [0b0000000001000000] (.rti (.reg .sp)) = true ∧ agree [0b0001110001000000] (.rti (.reg .y1)) = true ∧
    agree [0b0000100001100000] (.rts .zero) = true ∧ agree [0b0000110001100000] (.rts (.reg .z)) = true := by decide +kernel

/-- The two rows of a bit instruction in each group (44_bitops R220); `t` is bit 15 and, for SBT and XBT, what
the low bytes differ by from those of CBT and TBT. -/
def bitWords (op : BitOp) (t reg0 mem0 reg1 mem1 reg2 mem2 reg3 mem3 : Half) : Bool :=
  agree [0b0011111100000000 + t + reg0] (.bitop op (.reg .a3) 15)
  && agree [0b0100010100000000 + t + mem0, 1, 2] (.bitop op (.mem 0x20001 (.reg .x1)) 16)
  && agree [0b0000000000000000 + t + reg1] (.bitop op (.reg .p) 2)
  && agree [0b0111110000000000 + t + mem1, 1, 2] (.bitop op (.mem 0x20001 .zero) 29)
  && agree [0b0001011100000000 + t + reg2] (.bitop op (.reg .y3) 4)
  && agree [0b0110111000000000 + t + mem2, 1, 2] (.bitop op (.mem 0x20001 (.reg .sp)) 27)
  && agree [0b0001000100000000 + t + reg3] (.bitop op (.reg .z) 1)
  && agree [0b0111101100000000 + t + mem3, 1, 2] (.bitop op (.mem 0x20001 (.reg .y3)) 25)

theorem test_words_cbt : bitWords .cbt 0 0x18 0x12 0x58 0x52 0xD8 0xD2 0xB8 0x92 = true := by decide +kernel
theorem test_words_tbt : bitWords .tbt 0x8000 0x18 0x12 0x58 0x52 0xD8 0xD2 0xB8 0x92 = true := by decide +kernel
theorem test_words_sbt : bitWords .sbt 0 0x38 0x32 0x78 0x72 0xF8 0xF2 0x9F 0xB2 = true := by decide +kernel
theorem test_words_xbt : bitWords .xbt 0x8000 0x38 0x32 0x78 0x72 0xF8 0xF2 0x9F 0xB2 = true := by decide +kernel

/-- The rows that LDR and STR share (45_move R240); `k` is what is taken from the low byte for STR. -/
def moveWords (mk : Size → Reg → MemOp → Instr) (k : Half) : Bool :=
  agree [0b0010110110110101 - k, 0x2000] (mk .w .a1 (.abs16 .xxx 0x2000 (.reg .x3)))
  && agree [0b0111000010110100 - k, 0x2000] (mk .b .y3 (.abs16 .xxx 0x2000 (.reg .a0)))
  && agree [0b0100101010110110 - k, 0x2000] (mk .l .x2 (.abs16 .yyy 0x2000 (.reg .y2)))
  && agree [0b0110010110100101 - k, 0x2000] (mk .w .a3 (.abs16 .zzz 0x2000 (.reg .z)))
  && agree [0b0001000010100100 - k, 0x2000] (mk .b .y0 (.abs16 .zzz 0x2000 (.reg .y0)))
  && agree [0b0010101010100110 - k, 0x2000] (mk .l .x1 (.abs16 .zzz 0x2000 (.reg .sp)))
  && agree [0b0001010110111101 - k, 1, 2] (mk .w .a0 (.abs32 .xxx 0x20001 (.reg .a1)))
  && agree [0b0110010010101111 - k, 1, 2] (mk .b .x3 (.abs32 .xxx 0x20001 (.reg .x1)))
  && agree [0b0100001010111100 - k, 1, 2] (mk .l .y2 (.abs32 .xxx 0x20001 (.reg .x0)))
  && agree [0b0011000110111001 - k, 1, 2] (mk .w .a1 (.abs32 .yyy 0x20001 .zero))
  && agree [0b0101110010111110 - k, 1, 2] (mk .b .x2 (.abs32 .yyy 0x20001 .pc))
  && agree [0b0000111010101110 - k, 1, 2] (mk .l .x0 (.abs32 .zzz 0x20001 .pc))
  && agree [0b0010000110101100 - k, 1, 2] (mk .w .y1 (.abs32 .zzz 0x20001 .zero))
  && agree [0b0111110010101101 - k, 1, 2] (mk .b .a3 (.abs32 .zzz 0x20001 (.reg .y3)))
  && agree [0b0100101010100001 - k, 0x2000] (mk .l .a2 (.pre 0x2000 (.reg .x2)))
  && agree [0b0001100110110001 - k, 0x2000] (mk .w .a0 (.post 0x2000 (.reg .sp)))

theorem test_words_ldr : moveWords (fun sz rd m => .ldr sz (.mem rd m)) 0 = true ∧
    agree [0b0111000010101001, 0x0080] (.ldr .b (.imm .sp 0x80)) = true := by decide +kernel
theorem test_words_str : moveWords (fun sz rd m => .str sz rd m) 0x20 = true := by decide +kernel

/-- MOV, PSH, PUL (45_move R242, R244). -/
theorem test_words_mov :
    agree [0b1000011010101010] (.mov .l .aa .p .a1) = true ∧ agree [0b0011000110101000] (.mov .w .a8 .y1 .y0) = true ∧
    agree [0b0110100010111010] (.mov .b .ba .x3 .p) = true ∧ agree [0b1011101010001010] (.mov .l .r8a .y1 .sp) = true ∧
    agree [0b1101000110011010] (.mov .w .r9a .x0 .p) = true ∧ agree [0b0110100010011000] (.mov .b .r98 .a3 .y2) = true := by
  decide +kernel
theorem test_words_psh :
    agree [0b0010111001001000] (.psh .l (.reg .a1) (.reg .z)) = true ∧ agree [0b0101000101000100] (.psh .w (.reg .x2) (.reg .y2)) = true ∧
    agree [0b0111110001010100] (.psh .b (.reg .y3) (.reg .y1)) = true ∧ agree [0b0110001000001000] (.psh .l .pc (.reg .sp)) = true ∧
    agree [0b0000010100001000] (.psh .w (.reg .p) .pc) = true := by decide +kernel
theorem test_words_pul :
    agree [0b0010111001101000] (.pul .l (.reg .a1) (.reg .z)) = true ∧ agree [0b0101000101100100] (.pul .w (.reg .x2) (.reg .y2)) = true ∧
    agree [0b0111110001110100] (.pul .b (.reg .y3) (.reg .y1)) = true ∧ agree [0b0110001000101000] (.pul .l .pc (.reg .sp)) = true ∧
    agree [0b0100100100101000] (.pul .w (.reg .sp) .zero) = true := by decide +kernel

/-- Reserved words (U20, U21, A25, A26, C7, C12, C21, B14, B15, M8, M18 to M20, M25, M30, M31), an undocumented
low byte, and `ext[15:4]` of a shift by a register. -/
theorem test_words_reserved :
    reserved [0x9288] = true ∧ reserved [0x93CA] = true ∧ reserved [0x6069, 1] = true ∧ reserved [0x0469, 1] = true ∧
    reserved [0x03F0, 0] = true ∧ reserved [0x014C, 0, 0] = true ∧ reserved [0x0160] = true ∧ reserved [0x0318] = true ∧
    reserved [0x0F32, 0x2000, 0] = true ∧ reserved [0x82B5, 0x2000] = true ∧ reserved [0xE2AA] = true ∧
    reserved [0x06BA] = true ∧ reserved [0x03AA] = true ∧ reserved [0x6108] = true ∧ reserved [0x6028] = true ∧
    reserved [0x8268] = true ∧ reserved [0x0080] = true ∧ reserved [0x4002, 0x0010] = true := by decide +kernel

/-- A row of the opcode table, as its bits and as the next step runs it. -/
theorem test_table_word : decodeTableWord 16 0xB5CA = some (.abs .w (.reg .a1)) ∧
    decodeTableWord 48 0x1234567802A9 = some (.ldr .l (.imm .a0 0x12345678)) ∧ decodeTableWord 16 0x93CA = none ∧
    nextIs (step (State.reset.withFetchWord 16 0x16E8)) (fun t => t.reg .a1 == 1 && t.pc == 0x1002) = true ∧
    nextIs (step ((small []).withFetchWord 48 0x00002000028D)) (fun t => t.pc == 0x1006) = true := by decide +kernel

/-! Values at the narrow sizes (U1, U2, U5, U7, U10, U11, U17; A1, A11, A16 to A19, A21, A22; S1, S5, S6, S8, S10
to S13). -/

theorem test_values_unary : absValue .w 0xFFFE = 2 ∧ absValue .b 0x80 = 0x80 ∧ decValue 3 .b 2 = 0xFE ∧
    extValue .w 0x80 = 0xFF80 ∧ extValue .b 1 = 0xFF ∧ extValue .b 0xFE = 0 ∧ negValue .b 0x80 = 0x80 ∧
    notValue .w 0xFF = 0xFF00 ∧ incValue 3 .w 0x7FFE = 0x8002 := by decide
theorem test_values_alu : adcFn .b 0x7F 0 true = ⟨0x80, some (false, true)⟩ ∧ bicFn .w 0xFFFF 0x0F0F false = ⟨0xF0F0, none⟩ ∧
    oraFn .w 0xF0 0x8001 false = ⟨0x80F1, none⟩ ∧ sbcFn .b 0x50 0x30 true = ⟨0x20, some (true, false)⟩ ∧
    sbcFn .b 0x50 0x30 false = ⟨0x1F, some (true, false)⟩ ∧ sbcFn .b 0 0 false = ⟨0xFF, some (false, false)⟩ ∧
    subFn .b 0x10 0x20 false = ⟨0xF0, some (false, false)⟩ ∧ subFn .b 0x80 1 false = ⟨0x7F, some (true, true)⟩ := by decide
theorem test_values_shift : repeatStep aslStep .b 1 (0x81, false) = (2, true) ∧ repeatStep aslStep .b 7 (1, false) = (0x80, false) ∧
    repeatStep asrStep .b 1 (0x81, false) = (0xC0, true) ∧ repeatStep lsrStep .b 1 (1, false) = (0, true) ∧
    repeatStep rolStep .b 1 (0x80, true) = (1, true) ∧ repeatStep rolStep .w 4 (0xF00F, false) = (0xF7, true) ∧
    repeatStep rorStep .b 1 (1, true) = (0x80, true) ∧ repeatStep rorStep .b 1 (1, false) = (0, true) := by decide

/-! Single steps, by the number of their vector. P holds C at bit 0, Z at 1, V at 6, N at 7. -/

theorem test_U3_abs : nextIs (step (reg .a0 0x80000000 (ready [0xB2CA])))
    (fun t => t.reg .a0 == 0x80000000 && t.reg .p == 0x80 && t.pc == 0x1002) = true := by decide
theorem test_U4_dec : nextIs (step (reg .x0 1 (ready [0x02CA]))) (fun t => t.reg .x0 == 0 && t.reg .p == 2) = true := by decide
theorem test_U6_dec_memory : nextIs (step (ready [0x01C6, 0x2000]))
    (fun t => t.peek 0x2000 .l == 0xFFFF && t.reg .p == 0x80 && t.pc == 0x1004) = true := by decide
theorem test_U9_ext : nextIs (step (reg .a0 0x8000 (ready [0xD2CA]))) (fun t => t.reg .a0 == 0xFFFF8000 && t.reg .p == 0x80) = true := by
  decide
theorem test_U12_inc : nextIs (step (reg .p 1 (reg .a1 0xFFFFFFFF (ready [0x16E8])))) (fun t => t.reg .a1 == 0 && t.reg .p == 3) = true := by
  decide
theorem test_U14_inc_memory : nextIs (step (reg .y0 8 (put 0x2008 0x29 (ready [0x12EE, 0x2000, 0]))))
    (fun t => t.peek 0x2008 .l == 0x2A && t.pc == 0x1006) = true := by decide
theorem test_U15_neg : nextIs (step (reg .a0 5 (ready [0x92CA]))) (fun t => t.reg .a0 == 0xFFFFFFFB && t.reg .p == 0x80) = true := by
  decide
theorem test_U18_not_memory : nextIs (step (reg .z 2 (put 0x2000 0x00FF0000 (ready [0xE5C6, 0x2000]))))
    (fun t => t.peek 0x2000 .l == 0xFF000000 && t.reg .p == 0x80) = true := by decide
theorem test_U19_not : nextIs (step (reg .sp 0xFFFFFFFF (ready [0xFA88]))) (fun t => t.reg .sp == 0 && t.reg .p == 2) = true := by decide

theorem test_A2_adc_flags : nextIs (step (reg .a0 0x8000 (ready [0x0169, 0x8000]))) (fun t => t.reg .p == 0x43 && t.pc == 0x1004) = true := by
  decide
theorem test_A3_adc : nextIs (step (reg .p 1 (reg .a0 0xFFFFFFFF (reg .a1 0xFFFFFFFF (ready [0x067C])))))
    (fun t => t.reg .a0 == 0xFFFFFFFF && t.reg .p == 0x81) = true := by decide
theorem test_A7_add_pointer_at_sum : nextIs (step (reg .x0 4 (reg .a2 1 (put 0x2004 0x3000 (put 0x3000 0x63 (ready [0xC261, 0x2000]))))))
    (fun t => t.reg .a2 == 0x64 && t.pc == 0x1004) = true := by decide
theorem test_A8_add_pointer_then_index : nextIs (step (reg .y1 8 (reg .a2 1 (put 0x2000 0x3000 (put 0x3008 0x63 (ready [0xC671, 0x2000]))))))
    (fun t => t.reg .a2 == 0x64) = true := by decide
theorem test_A10_and : nextIs (step (reg .a0 0x12345678 (ready [0x0229, 0xFF00, 0]))) (fun t => t.reg .a0 == 0x5600 && t.reg .p == 0) = true := by
  decide
theorem test_A11_bic_flags : nextIs (step (reg .a1 0xFFFF (reg .a0 0x0F0F (ready [0xA13C])))) (fun t => t.reg .p == 0x80) = true := by decide
theorem test_A12_bit : nextIs (step (reg .a0 0x0F (reg .a1 0xC0 (ready [0x0434])))) (fun t => t.reg .p == 0xC2 && t.reg .a0 == 0x0F) = true := by
  decide
theorem test_A13_bit_memory : nextIs (step (reg .z 0x10 (reg .a2 1 (put 0x2010 0x4001 (ready [0x4524, 0x2000])))))
    (fun t => t.reg .p == 0x40 && t.reg .a2 == 1) = true := by decide
theorem test_A14_eor : nextIs (step (reg .p 0x41 (reg .a0 0xDEADBEEF (ready [0x025C])))) (fun t => t.reg .a0 == 0 && t.reg .p == 0x43) = true := by
  decide
theorem test_A16_ora_flags : nextIs (step (reg .a0 0xF0 (reg .x1 0x8001 (ready [0x151C])))) (fun t => t.reg .p == 0x80) = true := by decide
theorem test_A18_sbc_flags : nextIs (step (reg .a0 0x50 (reg .a1 0x30 (ready [0x04FC])))) (fun t => t.reg .p == 1) = true := by decide
theorem test_A20_sub : nextIs (step (reg .a0 7 (reg .x0 7 (ready [0x92FC])))) (fun t => t.reg .a0 == 0 && t.reg .p == 3) = true := by decide
theorem test_A23_sub_borrow : nextIs (step (ready [0x82E9, 1, 0])) (fun t => t.reg .a0 == 0xFFFFFFFF && t.reg .p == 0x80) = true := by decide

theorem test_S2_asl : nextIs (step (reg .x1 0x10000001 (ready [0x1602, 4]))) (fun t => t.reg .x1 == 0x10 && t.reg .p == 1) = true := by decide
theorem test_S4_asl_memory : nextIs (step (put 0x2000 0x4001 (ready [0x2106, 0x2000]))) (fun t => t.peek 0x2000 .l == 4 && t.reg .p == 1) = true := by
  decide
theorem test_S7_asr : nextIs (step (reg .z 0x80000000 (ready [0xB642, 31]))) (fun t => t.reg .z == 0xFFFFFFFF && t.reg .p == 0x80) = true := by
  decide +kernel
theorem test_S9_lsr : nextIs (step (reg .a1 0xABCD8000 (ready [0x0642, 16]))) (fun t => t.reg .a1 == 0xABCD && t.reg .p == 1) = true := by decide
theorem test_S10_rol_flags : nextIs (step (reg .p 1 (reg .a0 0x80 (ready [0x002A])))) (fun t => t.reg .p == 1) = true := by decide
theorem test_S14_ror_memory : nextIs (step (reg .p 1 (reg .z 4 (put 0x2004 5 (ready [0x4666, 0x2000])))))
    (fun t => t.peek 0x2004 .l == 0x60000000 && t.reg .p == 1) = true := by decide
theorem test_S15_to_S17_counts : refusedAs (step (ready [0x0002, 0])) .shiftCount = true ∧
    refusedAs (step (ready [0x0002, 8])) .shiftCount = true ∧
    refusedAs (step (reg .y0 16 (ready [0x4102, 8]))) .shiftCount = true := by decide
theorem test_S18_to_S20_open_steps : refusedAs (step (ready [0x800A])) .eslNotSpecified = true ∧
    refusedAs (step (ready [0x802A])) .rlbNotSpecified = true ∧ refusedAs (step (ready [0x806A])) .rrbNotSpecified = true := by decide
/-- Where the launch supplies the steps, they run (log 6), and the counts are those of the other shifts. -/
theorem test_supplied_shifts : nextIs (step (supply (ready [0x820A]))) (fun t => t.pc == 0x1002) = true ∧
    nextIs (step (supply (ready [0x822A]))) (fun t => t.pc == 0x1002) = true ∧
    nextIs (step (supply (ready [0x826A]))) (fun t => t.pc == 0x1002) = true ∧
    refusedAs (step (supply (ready [0x8002, 0]))) .shiftCount = true := by decide

/-- The cells of `AU` = 16 (D1): a value across two of them, in either half, and a byte beside its neighbour. -/
theorem test_cells : let m := Memory.writeUnits [] 0x10 .l 0x12345678
    m = [(0x20, 0x78), (0x21, 0x56), (0x22, 0x34), (0x23, 0x12)] ∧ m.readUnits 0x10 .l = 0x12345678 ∧
    m.readUnits 0x11 .w = 0x1234 ∧ (m.writeUnits 0x10 .b 0xFF).readUnits 0x10 .w = 0x56FF := by decide

theorem test_C1_branch_back : nextIs (step (ready [0x00D0, 0xFFF8])) (fun t => t.pc == 0x0FFC) = true := by decide
theorem test_C2_branch_not_taken : nextIs (step (reg .p 2 (ready [0x00D0, 0xFFF8]))) (fun t => t.pc == 0x1004) = true := by decide
theorem test_C4_branch_link : nextIs (step (ready [0x90F0, 0x0020]))
    (fun t => t.peek 0x0DFC .l == 0x1004 && t.reg .sp == 0x0DFB && t.pc == 0x1024) = true := by decide
theorem test_C5_branch_indirect : nextIs (step (reg .x0 0x2000 (put 0x2004 0x4000 (ready [0xABF0, 4])))) (fun t => t.pc == 0x4000) = true := by
  decide
/-- The conditions after A21, `0x10 - 0x20`. -/
theorem test_conditions : ([Cond.mi, .vc, .cc, .ne, .lt, .le, .hi, .ra].all fun c => condHolds c true false false false) = true ∧
    ([Cond.pl, .vs, .cs, .eq, .ge, .gt, .ls, .nv].all fun c => !condHolds c true false false false) = true := by decide
theorem test_C8_brk : nextIs (step (reg .p 0xC3 (put 0x0FF8 0x05000000 (ready [0x0200, 0]))))
    (fun t => t.peek 0x0DFC .l == 0x1004 && t.peek 0x0DF8 .l == 0xC3 && t.reg .sp == 0x0DF7 && t.pc == 0x0500 && t.reg .p == 0xC3) = true := by
  decide
theorem test_C9_brk_wait : refusedAs (step (ready [0x8000, 0])) .brkWait = true := by decide
theorem test_C10_jmp : nextIs (step (ready [0x004C, 0x5678, 0x1234])) (fun t => t.pc == 0x12345678) = true := by decide
theorem test_C11_jmp_indirect : nextIs (step (put 0x2000 0x3000 (ready [0x006C, 0x2000, 0]))) (fun t => t.pc == 0x3000) = true := by decide
theorem test_C14_jsr : nextIs (step (reg .y0 0x0DFF (ready [0x1820, 0x0300, 0])))
    (fun t => t.peek 0x0DFC .l == 0x1006 && t.reg .y0 == 0x0DFB && t.reg .sp == 0x0DFF && t.pc == 0x0300) = true := by decide
theorem test_C15_jsr_stack_pointer : refusedAs (step (ready [0x0420, 0x0300, 0])) .stackPointer = true := by decide
theorem test_C16_nop : nextIs (step (ready [0x03EA, 0x93CA, 0x93CA, 0x93CA])) (fun t => t.pc == 0x1008) = true := by decide
theorem test_C18_rti : nextIs (step (reg .sp 0x0DF7 (put 0x0DF8 0xC3 (put 0x0DFC 0x0444 (ready [0x0040])))))
    (fun t => t.reg .p == 0xC3 && t.pc == 0x0444 && t.reg .sp == 0x0DFF) = true := by decide
theorem test_C20_rts : nextIs (step (reg .y2 0x0DFB (put 0x0DFC 0x0212 (ready [0x1060])))) (fun t => t.pc == 0x0212 && t.reg .y2 == 0x0DFF) = true := by
  decide
theorem test_C22_odd_pc : refusedAs (step ((ready []).setPc 0x1001)) .misalignedFetch = true := by decide
/-- HALT_PC ends the run before anything is fetched. -/
theorem test_halt : (match step ((small []).setPc 0x1010) with
    | .fault f => decide (f = .halted)
    | _ => false) = true := by decide

theorem test_B1_cbt_p : nextIs (step (reg .p 0xC3 (ready [0x0018]))) (fun t => t.reg .p == 0xC2) = true := by decide
theorem test_B2_cbt_memory : nextIs (step (put 0x2000 0xFFFFFFFF (ready [0x14D2, 0x2000, 0])))
    (fun t => t.peek 0x2000 .l == 0xFFFFFFEF && t.pc == 0x1006) = true := by decide
theorem test_B3_sbt : nextIs (step (ready [0x7F38])) (fun t => t.reg .a3 == 0x80000000 && t.reg .p == 0) = true := by decide
theorem test_B4_sbt_memory : nextIs (step (ready [0x7CB2, 0x2000, 1])) (fun t => t.peek 0x12000 .l == 0x02000000) = true := by decide
theorem test_B7_tbt : nextIs (step (reg .x0 0xFFFFFBFF (ready [0xA858]))) (fun t => t.reg .p == 2) = true := by decide
theorem test_B10_tbt_p : nextIs (step (reg .p 2 (ready [0x90B8]))) (fun t => t.reg .p == 0) = true := by decide
theorem test_B12_xbt_p : nextIs (step (reg .p 1 (ready [0x8038]))) (fun t => t.reg .p == 0) = true := by decide
theorem test_B13_xbt_memory : nextIs (step (put 0x2000 0x20 (ready [0x9D72, 0x2000, 0]))) (fun t => t.peek 0x2000 .l == 0) = true := by decide

theorem test_M3_immediate : refusedAs (step (ready [0x00A9, 0x0100])) .immediate = true := by decide
theorem test_M4_ldr : nextIs (step (reg .y0 0x2000 (put 0x2010 0xCAFEF00D (ready [0x62B6, 0x0010]))))
    (fun t => t.reg .x3 == 0xCAFEF00D && t.reg .p == 0x80) = true := by decide
theorem test_M6_ldr_zero : nextIs (step (reg .a0 4 (reg .a2 1 (ready [0x52BD, 0x2000, 1]))))
    (fun t => t.reg .a2 == 0 && t.reg .p == 2 && t.pc == 0x1006) = true := by decide
theorem test_M9_misaligned : refusedAs (step (ready [0x02A5, 0x2002])) .misaligned = true := by decide
theorem test_M10_str : nextIs (step (reg .z 2 (reg .y3 0xBEEF (ready [0x6584, 0x2000]))))
    (fun t => t.byte 0x2002 == 0xEF && t.byte 0x2003 == 0xBE && t.reg .p == 0x80) = true := by decide
theorem test_M12_write_to_text : refusedAs (step (small [0x0185, 0x1000])) .writeToText = true := by decide
theorem test_unmapped : refusedAs (step (small [0x02A5, 0x2008])) .unmapped = true := by decide
theorem test_M14_mov_from_p : nextIs (step (reg .p 0xC3 (ready [0x128A])))
    (fun t => t.reg .a0 == 0xC3 && t.pc == 0x1002) = true := by decide
theorem test_M15_mov_to_p : nextIs (step (reg .x0 0x81 (ready [0x429A]))) (fun t => t.reg .p == 0x81) = true := by decide
theorem test_M21_psh_sp : nextIs (step (ready [0x4208])) (fun t => t.peek 0x0DFC .l == 0x0DFF && t.reg .sp == 0x0DFB && t.reg .p == 0) = true := by
  decide
theorem test_M24_psh_p : nextIs (step (reg .p 0xC3 (ready [0x0208]))) (fun t => t.peek 0x0DFC .l == 0xC3 && t.reg .p == 0x41) = true := by decide
theorem test_M26_psh_stack_pointer : refusedAs (step (ready [0x0648])) .stackPointer = true := by decide
theorem test_M27_pul_flags : nextIs (step (reg .y1 0x0DFD (put 0x0DFC 0x80010000 (ready [0x1D74]))))
    (fun t => t.reg .y1 == 0x0DFF && t.reg .p == 0x80) = true := by decide
theorem test_M28_pul_own_pointer : nextIs (step (reg .y2 0x0DFB (put 0x0DFC 0x1234 (ready [0x5274])))) (fun t => t.reg .y2 == 0x1234) = true := by
  decide

/-! Witnesses: a state and operands that meet the hypotheses of each statement that has any, at the ends of each
range and for each clause. -/

/-- A step or an instruction answers a next state. -/
def answers (r : Result) : Bool := nextIs r fun _ => true

/-- The words decode to some instruction. -/
def decodes (ws : List Half) : Bool := (decode ws).isOk

theorem witness_DecodeOfEncode : Instr.wf (.ldr .l (.imm .a0 0xFFFFFFFF)) = true ∧ Instr.wf (.nop 255) = true := by decide

/-- Words after the instruction are left over; the second word of BRK may be any. -/
theorem witness_EncodeOfDecode : decode [0xB5CA, 7] = .ok (.abs .w (.reg .a1), [7]) ∧
    decode [0x0200, 0xFFFF] = .ok (.brk false 0 2, []) := ⟨rfl, rfl⟩

theorem witness_LengthFromFirstWord : decode [0xFFEA] = .ok (.nop 255, []) ∧ decode [0x00EA] = .ok (.nop 0, []) ∧
    decode [0x0109, 0xFFFF] = .ok (.ora .w (.imm .a0 0xFFFF), []) ∧ decode [0x0209, 1, 0] = .ok (.ora .l (.imm .a0 1), []) ∧
    decode [0x0010, 4] = .ok (.bpl ⟨.short 4, .pc, false, false⟩, []) ∧
    decode [0x4010, 4, 0] = .ok (.bpl ⟨.long 4, .pc, false, false⟩, []) ∧
    decode [0x0040] = .ok (.rti (.reg .sp), []) := ⟨rfl, rfl, rfl, rfl, rfl, rfl, rfl⟩

theorem witness_ReservedSize : (0x03AA : Half).toNat % 32 ≠ 0x10 ∧ (0x03AA : Half).toNat / 256 % 4 = 3 ∧
    (0x03AA : Half).toNat % 256 ∉ [0x00, 0x4C, 0x6C, 0x20, 0xEA, 0x40, 0x60,
      0x18, 0x12, 0x38, 0x32, 0x58, 0x52, 0x78, 0x72, 0xD8, 0xD2, 0xF8, 0xF2, 0xB8, 0x92, 0x9F, 0xB2] ∧
    decodes [0x02AA] = true := by decide

/-- For each clause a word that meets it, and its neighbour that decodes. -/
theorem witness_ReservedRegisterCodes :
    ([[0x6069, 1], [0x7869, 1], [0x300A], [0x3C0A], [0x4002, 12], [0x4002, 15], [0x1088], [0x1C88], [0x0310, 0], [0x0318],
      [0x0F12, 0, 0], [0xE0AA], [0xE0BA], [0x1C8A], [0x1C9A], [0x04BA], [0x209A]].all fun ws => reserved ws) = true ∧
    ([[0x5869, 1], [0x7069, 1], [0x2C0A], [0x380A], [0x4002, 11], [0x4002, 14], [0x0C88], [0x1888], [0x0210, 0], [0x0218],
      [0x0E12, 0, 0], [0xC0AA], [0xC0BA], [0x188A], [0x189A], [0x08BA], [0x409A]].all fun ws => decodes ws) = true := by
  decide +kernel

/-- For each clause a word that meets it, and the word with the bit as printed, which decodes. -/
theorem witness_ReservedFixedBits :
    ([[0x0004], [0x0469, 1], [0x400A], [0x014C, 0, 0], [0x2020, 0, 0], [0x0140], [0x8001, 0], [0x4002, 16], [0x6108],
      [0x6028]].all fun ws => reserved ws) = true ∧ decodes [0x0069, 0x0100] = false ∧
    ([[0x0005, 0], [0x0069, 1], [0x000A], [0x004C, 0, 0], [0x0020, 0, 0], [0x0040], [0x0001, 0], [0x4002, 0], [0x6208],
      [0x6228], [0x0069, 0x00FF]].all fun ws => decodes ws) = true ∧
    (match decode [0x0069, 0x0100] with
      | .error r => decide (r = .immediate)
      | .ok _ => false) = true := by decide +kernel

theorem witness_StepRunsDecoded : (ready [0x00EA]).haltPc ≠ some (ready [0x00EA]).pc ∧
    (ready [0x00EA]).fetch = .ok [0x00EA] ∧ decode [0x00EA] = .ok (.nop 0, []) := ⟨by decide, rfl, rfl⟩

theorem witness_StepRunsEncoded : Instr.wf (.jmp (.direct 0x12345678)) = true ∧
    encode (.jmp (.direct 0x12345678)) = some [0x004C, 0x5678, 0x1234] ∧
    let s := ready [0x004C, 0x5678, 0x1234]
    let ws : List Half := [0x004C, 0x5678, 0x1234]
    s.haltPc ≠ some s.pc ∧ s.pc.toNat % 2 = 0 ∧ s.pc.toNat + 2 * (Instr.jmp (.direct 0x12345678)).words ≤ 2 ^ 32 ∧
    ∀ (k : Nat) (h : k < ws.length),
      let a := s.pc + BitVec.ofNat 32 (2 * k)
      inRegions s.mapped a = true ∧ inRegions s.mapped (a + 1) = true ∧
      s.byte a = ws[k].setWidth 8 ∧ s.byte (a + 1) = (ws[k] >>> 8).setWidth 8 := by decide +kernel

/-- The last place an instruction of one word and one of three can stand, and a NOP that skips one word. -/
theorem witness_StepRunsEncoded_top : answers (step (((ready []).setPc 0xFFFFFFFE).withFetchWord 16 0x00EA)) = true ∧
    answers (step (((ready []).setPc 0xFFFFFFFA).withFetchWord 48 0x004C)) = true ∧
    nextIs (step (((ready []).setPc 0xFFFFFFFC).withFetchWord 16 0x01EA)) (fun t => t.pc == 0) = true := by decide

theorem witness_FetchRefusals : let s := ready []
    s.haltPc ≠ some (s.setPc 0x1001).pc ∧ (s.setPc 0x1001).pc.toNat % 2 = 1 ∧
    inRegions ((small []).setPc 0x2008).mapped ((small []).setPc 0x2008).pc = false ∧
    refusedAs (step ((small []).setPc 0x2008)) .unmapped = true ∧
    extWords (0x004C : Half) = .ok 2 ∧
    refusedAs (step (((ready []).setPc 0xFFFFFFFC).withFetchWord 16 0x004C)) .misalignedFetch = true ∧
    refusedAs (step (((ready []).setPc 0xFFFFFFFE).withFetchWord 16 0x0010)) .misalignedFetch = true ∧
    skippedWords (0x01EA : Half) = 1 ∧ skippedWords (0x01EB : Half) = 0 ∧
    refusedAs (step (((ready []).setPc 0xFFFFFFFE).withFetchWord 16 0x01EA)) .misalignedFetch = true :=
  ⟨by decide, by decide, by decide, by decide, rfl, by decide, by decide, rfl, rfl, by decide⟩

/-- The first word of a JMP, and of a branch, at the last place of the launch memory; a JMP whose third word alone
is outside. -/
theorem witness_FetchRefusals_extension : let s := put 0x2004 0x004C0000 ((small []).setPc 0x2006)
    let u := put 0x2004 0x0000004C ((small []).setPc 0x2004)
    s.haltPc ≠ some s.pc ∧ s.pc.toNat % 2 = 0 ∧ inRegions s.mapped s.pc = true ∧ inRegions s.mapped (s.pc + 1) = true ∧
    (extWords (s.byte (s.pc + 1) ++ s.byte s.pc)).toOption = some 2 ∧ s.pc.toNat + 2 * (2 + 1) ≤ 2 ^ 32 ∧
    inRegions s.mapped (s.pc + BitVec.ofNat 32 2) = false ∧ refusedAs (step s) .unmapped = true ∧
    inRegions u.mapped (u.pc + BitVec.ofNat 32 3) = true ∧ inRegions u.mapped (u.pc + BitVec.ofNat 32 4) = false ∧
    refusedAs (step u) .unmapped = true := by decide

theorem witness_ReservedWordRefused : let s := ready [0x0080]
    s.haltPc ≠ some s.pc ∧ (∀ ext, decode ((s.byte (s.pc + 1) ++ s.byte s.pc) :: ext) = .error .reserved) ∧
    extWords (s.byte (s.pc + 1) ++ s.byte s.pc) = .error .reserved ∧
    refusedAs (step s) .reservedEncoding = true := ⟨by decide, fun _ => rfl, rfl, by decide⟩

/-- A reserved extension word of the form `rd, rs`, by its register code and by its upper bits, a reserved first word
that has an extension word, and an immediate of 8 bits with a nonzero upper byte. -/
theorem witness_ReservedWordRefused_extension :
    (ready [0x4002, 12]).fetch = .ok [0x4002, 12] ∧ decode [0x4002, 12] = .error .reserved ∧
    refusedAs (step (ready [0x4002, 12])) .reservedEncoding = true ∧ refusedAs (step (ready [0x4002, 0x10])) .reservedEncoding = true ∧
    refusedAs (step (ready [0x0469, 1])) .reservedEncoding = true ∧
    (ready [0x00A9, 0x0100]).fetch = .ok [0x00A9, 0x0100] ∧ decode [0x00A9, 0x0100] = .error .immediate ∧
    refusedAs (step (ready [0x00A9, 0x0100])) .immediate = true := ⟨rfl, rfl, by decide, by decide, by decide, rfl, rfl, by decide⟩

theorem witness_RefusalReasons : refusedAs (exec (.brk true 0 0) (ready [])) .brkWait = true ∧
    refusedAs (exec (.jsr .pc 0) (ready [])) .stackPointer = true ∧ refusedAs (exec (.rti .zero) (ready [])) .stackPointer = true ∧
    refusedAs (exec (.rts .pc) (ready [])) .stackPointer = true ∧ refusedAs (exec (.psh .b (.reg .a0) .zero) (ready [])) .stackPointer = true ∧
    refusedAs (exec (.pul .b (.reg .a0) .pc) (ready [])) .stackPointer = true ∧
    refusedAs (exec (.asl .b (.imm .a0 0)) (ready [])) .shiftCount = true ∧ refusedAs (exec (.ror .b (.imm .a0 8)) (ready [])) .shiftCount = true ∧
    refusedAs (exec (.esl .b (.one .a0)) (ready [])) .eslNotSpecified = true ∧
    refusedAs (exec (.rlb .b (.one .a0)) (ready [])) .rlbNotSpecified = true ∧
    refusedAs (exec (.rrb .b (.one .a0)) (ready [])) .rrbNotSpecified = true ∧
    refusedAs (exec (.str .l .a0 (.abs16 .zzz 0x2002 .zero)) (small [])) .misaligned = true ∧
    refusedAs (exec (.str .l .a0 (.abs16 .zzz 0x2008 .zero)) (small [])) .unmapped = true ∧
    refusedAs (exec (.str .l .a0 (.abs16 .zzz 0x100C .zero)) (small [])) .writeToText = true := by decide

/-- The accesses at the top of memory, and those at the ends of a region. -/
theorem witness_Readable : Readable (ready []) 0xFFFFFFFF .b ∧ Readable (ready []) 0xFFFFFFFE .w ∧
    Readable (ready []) 0xFFFFFFFC .l ∧ Readable (small []) 0x2004 .l ∧ ¬ Readable (small []) 0x2008 .l ∧
    Readable (small []) 0x100C .l ∧ ¬ Writable (small []) 0x100C .l ∧ Writable (small []) 0x2000 .l ∧
    Writable (small []) 0x0DFF .b ∧ ¬ Readable (small []) 0x0E00 .b := by decide

theorem witness_StoreBytes : (small []).Inv ∧ Writable (small []) 0x2004 .l ∧ Writable (small []) 0x2006 .w ∧
    Writable (small []) 0x2007 .b := by decide

theorem witness_MixedWidths : (ready []).Inv ∧ Writable (ready []) 0xFFFFFFFC .l := by decide

theorem witness_AccessRefusals : (0x2002 : Addr).toNat % Size.bytes .l ≠ 0 ∧
    ((0x2008 : Addr).toNat % Size.bytes .l = 0 ∧ ¬ Readable (small []) 0x2008 .l) ∧
    (Readable (small []) 0x100E .w ∧ ¬ Writable (small []) 0x100E .w) := by decide

/-- The stack area up to its last byte, its lowest place, and the lowest place of all. -/
theorem witness_PushThenPull : (small []).Inv ∧
    Writable (small []) ((small []).reg .sp - BitVec.ofNat 32 (Size.bytes .l) + 1) .l ∧
    (let s := reg .y0 0x0DF0 (small []);
      Writable s (s.reg .y0 - BitVec.ofNat 32 (Size.bytes .b) + 1) .b) ∧
    (let s := reg .y0 3 (ready []);
      Writable s (s.reg .y0 - BitVec.ofNat 32 (Size.bytes .l) + 1) .l) := by decide

theorem witness_StepKeepsMemoryForm : (ready [0x4208]).Inv ∧ ∃ t, step (ready [0x4208]) = .next t :=
  ⟨by decide, (next_of_nextIs (r := step (ready [0x4208])) (p := fun _ => true) (by decide)).imp fun _ h => h.1⟩

theorem witness_StepKeepsText : (∃ t, step (small [0x4208]) = .next t) ∧ inRegions (small []).text 0x100F = true ∧
    inRegions (small []).mapped 0x2008 = false :=
  ⟨(next_of_nextIs (r := step (small [0x4208])) (p := fun _ => true) (by decide)).imp fun _ h => h.1, by decide, by decide⟩

/-- An instruction with a register destination, one that stores, one that pushes. -/
theorem witness_frames : (∃ t, exec (.add .l (.reg .a0 .x0)) (ready []) = .next t) ∧
    (.p ∉ regsWritten (.add .l (.reg .a0 .x0))) ∧
    (∃ t, exec (.str .b .a0 (.abs16 .zzz 0x2000 .zero)) (ready []) = .next t) ∧
    storedBytes (ready []) (.str .b .a0 (.abs16 .zzz 0x2000 .zero)) = [(0x2000, 1)] ∧
    (¬ InBytes (0x2000 : Addr) 1 0x2001 ∧ ¬ InBytes (0x2000 : Addr) 1 0x1FFF) ∧
    (∃ t, exec (.jsr (.reg .sp) 0) (ready []) = .next t) ∧ storedBytes (ready []) (.jsr (.reg .sp) 0) = [(0x0DFC, 4)] :=
  ⟨⟨_, rfl⟩, by decide, ⟨_, rfl⟩, rfl, by decide, ⟨_, rfl⟩, rfl⟩

theorem witness_OtherBitsOfPHaveNoEffect : Instr.wf (.add .l (.reg .a0 .x0)) = true ∧ namesP (.add .l (.reg .a0 .x0)) = false ∧
    ∀ k ∈ [Params.flagC, Params.flagZ, Params.flagV, Params.flagN], (0xFFFFFF3C : Word).getLsbD k = false := by decide

/-- A memory operand of each form, at the last word of a region and through a pointer. -/
theorem witness_memory_operands : let s := put 0x2000 0x2004 (small [])
    s.Inv ∧ Writable s 0x2004 .l ∧
    s.effAddr (s.nextPc 2) (.abs16 .zzz 0x2004 .zero) = .ok 0x2004 ∧
    s.effAddr (s.nextPc 3) (.abs32 .xxx 0x2004 (.reg .x0)) = .ok 0x2004 ∧
    s.effAddr (s.nextPc 3) (.abs32 .zzz 0x0FFE .pc) = .ok 0x2004 ∧
    s.effAddr (s.nextPc 2) (.pre 0x2000 (.reg .x0)) = .ok 0x2004 ∧
    s.effAddr (s.nextPc 2) (.post 0x2000 .zero) = .ok 0x2004 := ⟨by decide, by decide, rfl, rfl, rfl, rfl, rfl⟩

theorem witness_UnaryOnRegister : Reg.a0 ≠ .p := by decide

theorem witness_UnaryOnMemory : let s := small []
    s.Inv ∧ s.effAddr (s.nextPc (1 + MemOp.words (.abs16 .zzz 0x2007 .zero))) (.abs16 .zzz 0x2007 .zero) = .ok 0x2007 ∧
    Writable s 0x2007 .b := ⟨by decide, rfl, by decide⟩

theorem witness_SecondOperand : immWf .b 0xFF = true ∧ immWf .b 0x100 = false ∧ immWf .w 0xFFFF = true ∧
    immWf .l 0xFFFFFFFF = true ∧ (small []).effAddr 0x1004 (.abs16 .zzz 0x2004 .zero) = .ok 0x2004 ∧
    Readable (small []) 0x2004 .l := ⟨by decide, by decide, by decide, by decide, rfl, by decide⟩

theorem witness_EffectiveAddress : Readable (small []) ((0x2004 : Half).setWidth 32 + 0) .l ∧
    ¬ Readable (small []) ((0x2008 : Half).setWidth 32 + 0) .l ∧ ¬ Readable (small []) ((0x2002 : Half).setWidth 32) .l := by decide

/-- A source of each kind; the additions with both carries. -/
theorem witness_AluOperations : aluDest (.reg .a0 .a1) ≠ .p ∧ (ready []).aluSource 0x1002 .b (.reg .a0 .a1) = .ok 0 ∧
    (ready []).aluSource 0x1004 .b (.imm .a0 0xFF) = .ok 0xFF ∧
    (small []).aluSource 0x1004 .l (.mem .a0 (.abs16 .zzz 0x2004 .zero)) = .ok 0 ∧
    aluCarryOverflow .adc .b 0xFF 0 1 = some (true, false) ∧ aluCarryOverflow .adc .b 0x7F 0 1 = some (false, true) ∧
    aluCarryOverflow .sbc .b 0 0 0 = some (false, false) ∧ aluCarryOverflow .and .b 1 1 1 = none :=
  ⟨by decide, rfl, rfl, rfl, by decide, by decide, by decide, rfl⟩

theorem witness_BitTest : (ready []).testSource 0x1002 .b (.reg .a0 .a1) = .ok 0 ∧
    (small []).testSource 0x1004 .w (.mem .a0 (.abs16 .zzz 0x2006 .zero)) = .ok 0 := ⟨rfl, rfl⟩

/-- The counts 1 and s-1, given in each of the three ways, and a result for each of the five instructions. -/
theorem witness_ShiftOnRegister : let s := reg .y0 31 (ready [])
    shiftDest (.one .a0) = some .a0 ∧ shiftCount s (.one .a0) = 1 ∧
    shiftDest (.imm .a0 7) = some .a0 ∧ shiftCount s (.imm .a0 7) = Size.bits .b - 1 ∧
    shiftDest (.reg .a0 .y0) = some .a0 ∧ shiftCount s (.reg .a0 .y0) = Size.bits .l - 1 ∧
    shiftResult .asl .b 1 0x81 0 = some (2, true) ∧ shiftResult .asl .b 7 1 0 = some (0x80, false) ∧
    shiftResult .lsr .b 1 1 0 = some (0, true) ∧ shiftResult .asr .b 1 0x81 0 = some (0xC0, true) ∧
    shiftResult .rol .b 1 0x80 1 = some (1, true) ∧ shiftResult .rol .w 4 0xF00F 0 = some (0xF7, true) ∧
    shiftResult .ror .b 1 1 1 = some (0x80, true) ∧ shiftResult .ror .l 3 5 1 = some (0x60000000, true) := by decide

theorem witness_ShiftOnMemory : let s := small []
    s.Inv ∧ s.effAddr (s.nextPc (1 + MemOp.words (.abs16 .zzz 0x2004 .zero))) (.abs16 .zzz 0x2004 .zero) = .ok 0x2004 ∧
    Writable s 0x2004 .l ∧ shiftResult .ror .l ((0 : BitVec 2).toNat + 1) 1 0 = some (0, true) ∧
    shiftResult .asl .l ((3 : BitVec 2).toNat + 1) 1 0 = some (16, false) :=
  ⟨by decide, rfl, by decide, by decide, by decide⟩

theorem witness_OpenShifts : openStepOf .esl = some Config.eslStep ∧ openStepOf .rlb = some Config.rlbStep ∧
    openStepOf .rrb = some Config.rrbStep ∧ stepMissing (small []) .esl = some .eslNotSpecified ∧
    stepMissing (small []) .rlb = some .rlbNotSpecified ∧ stepMissing (small []) .rrb = some .rrbNotSpecified ∧
    (∀ op, stepMissing (supply (small [])) op = none) ∧ shiftDest (.imm .a0 7) = some .a0 ∧ 1 ≤ shiftCount (small []) (.imm .a0 7) ∧
    shiftCount (small []) (.imm .a0 7) < Size.bits .b ∧ (supply (small [])).Inv ∧
    (supply (small [])).effAddr 0x1004 (.abs16 .zzz 0x2004 .zero) = .ok 0x2004 ∧ Writable (supply (small [])) 0x2004 .l :=
  ⟨rfl, rfl, rfl, rfl, rfl, rfl, fun op => by cases op <;> rfl, rfl, by decide, by decide, by decide, rfl, by decide⟩

theorem witness_ShiftByOtherCounts : stepMissing (ready []) .asl = none ∧ stepMissing (supply (ready [])) .esl = none ∧
    refusedAs (exec (.asl .b (.imm .a0 0)) (ready [])) .shiftCount = true ∧ shiftDest (.imm .a0 0) = some .a0 ∧ shiftCount (ready []) (.imm .a0 0) = 0 ∧
    Size.bits .b ≤ shiftCount (ready []) (.imm .a0 8) ∧
    Size.bits .l ≤ shiftCount (reg .y0 0xFFFFFFFF (ready [])) (.reg .a0 .y0) := by decide

/-- A comparison that subtracts equal numbers, and two where the signed and the unsigned order differ. -/
theorem witness_Conditions : aluDest (.imm .a0 7) ≠ .p ∧ (reg .a0 7 (ready [])).aluSource 0x1006 .l (.imm .a0 7) = .ok 7 ∧
    (∃ t, exec (.sub .l (.imm .a0 7)) (reg .a0 7 (ready [])) = .next t ∧ (t.cond .eq && t.cond .ge && t.cond .cs && t.cond .ls) = true) ∧
    (∃ t, exec (.sub .l (.imm .a0 1)) (reg .a0 0xFFFFFFFF (ready [])) = .next t ∧ (t.cond .lt && t.cond .cs) = true) ∧
    ∃ t, exec (.sub .l (.imm .a0 0xFFFFFFFF)) (reg .a0 1 (ready [])) = .next t ∧ (t.cond .gt && t.cond .hi) = true :=
  ⟨by decide, rfl, next_of_nextIs (by decide), next_of_nextIs (by decide), next_of_nextIs (by decide)⟩

theorem witness_BranchNotTaken : (ready []).cond .eq = false ∧ (ready []).cond .nv = false := by decide

theorem witness_BranchTaken : (ready []).cond .ne = true ∧ (ready []).cond .ra = true ∧ Readable (small []) (0x2000 + 4) .l := by decide

/-- A link, with another base, with SP as base, and through memory. -/
theorem witness_BranchWithLink : let s := small []
    s.Inv ∧ s.cond .ra = true ∧ Writable s (s.reg .sp - 3) .l ∧ Readable s (0 + 0x2004) .l ∧
    Readable s (s.reg .sp - 4 + 1) .l := by decide

/-- The vectors 2, 0 and 15. -/
theorem witness_BrkTraps : (let s := small []
      s.Inv ∧ Writable s (s.reg .sp - 3) .l ∧ Writable s (s.reg .sp - 7) .l ∧ Readable s (BitVec.ofNat 32 (0xFFE - 2 * (2 : BitVec 4).toNat)) .w) ∧
    Readable (ready []) (BitVec.ofNat 32 (0xFFE - 2 * (0 : BitVec 4).toNat)) .w ∧
    Readable (ready []) (BitVec.ofNat 32 (0xFFE - 2 * (15 : BitVec 4).toNat)) .w := by decide

theorem witness_RtiUndoesBrk : let s := small []
    s.Inv ∧ Writable s (s.reg .sp - 3) .l ∧ Writable s (s.reg .sp - 7) .l ∧
    Readable s (BitVec.ofNat 32 (0xFFE - 2 * (2 : BitVec 4).toNat)) .w := by decide

theorem witness_Jumps : Readable (small []) 0x2004 .l ∧ Readable (ready []) 0xFFFFFFFC .l := by decide

theorem witness_JsrThenRts : (small []).Inv ∧ Writable (small []) ((small []).reg .sp - 3) .l ∧
    Writable (reg .z 0x0DF3 (small [])) ((reg .z 0x0DF3 (small [])).reg .z - 3) .l := by decide

theorem witness_RtsReturns : let s := reg .sp 0x0DFB (small [])
    Readable s (s.reg .sp + 1) .l := by decide

theorem witness_RtiReturns : let s := reg .sp 0x0DF7 (small [])
    Reg.sp ≠ .p ∧ Readable s (s.reg .sp + 1) .l ∧ Readable s (s.reg .sp + 5) .l := by decide

/-- Counts 0 and 255; with 3 the skipped words stand outside the launch memory; the last NOP #1 that fits below the
top of memory, and one that straddles it. -/
theorem witness_NopSkips : (let s := ready [0x00EA]
      s.haltPc ≠ some s.pc ∧ s.pc.toNat % 2 = 0 ∧ inRegions s.mapped s.pc = true ∧ inRegions s.mapped (s.pc + 1) = true ∧
      s.byte s.pc = 0xEA ∧ s.byte (s.pc + 1) = 0) ∧
    (ready [0xFFEA]).byte 0x1001 = 255 ∧
    (let s := put 0x2004 0x03EA0000 ((small []).setPc 0x2006);
      inRegions s.mapped s.pc = true ∧ inRegions s.mapped (s.pc + 2) = false ∧ answers (step s) = true) ∧
    (0xFFFFFFFC : Addr).toNat + 2 * ((1 : BitVec 8).toNat + 1) ≤ 2 ^ 32 ∧
    2 ^ 32 < (0xFFFFFFFE : Addr).toNat + 2 * ((1 : BitVec 8).toNat + 1) := by decide

theorem witness_StackPointerRefused : (Index.pc = .pc ∨ Index.pc = .zero) ∧ (Index.zero = .pc ∨ Index.zero = .zero) := by decide

theorem witness_BitOnMemory : let s := small []
    s.Inv ∧ Writable s (0x2004 + 0) .l ∧ Writable s (0x0FFA + (s.pc + 6)) .l ∧ Writable s (0x2000 + s.reg .x0) .l := by decide

theorem witness_BitIsTested : Readable (small []) (0x100C + 0) .l ∧ ¬ Writable (small []) (0x100C + 0) .l := by decide

theorem witness_Loads : loadDest (.imm .a0 0xFF) ≠ .p ∧ (ready []).loadSource 0x1004 .b (.imm .a0 0xFF) = .ok 0xFF ∧
    (small []).loadSource 0x1004 .l (.mem .a0 (.abs16 .zzz 0x2004 .zero)) = .ok 0 := ⟨by decide, rfl, rfl⟩

theorem witness_Stores : let s := small []
    s.Inv ∧ s.effAddr (s.nextPc (1 + MemOp.words (.abs32 .zzz 0x2004 .zero))) (.abs32 .zzz 0x2004 .zero) = .ok 0x2004 ∧
    Writable s 0x2004 .l := ⟨by decide, rfl, by decide⟩

theorem witness_Pushes : let s := small []
    slotWf .l .pc = true ∧ slotWf .b (.reg .a0) = true ∧ s.Inv ∧ Reg.sp ≠ .p ∧ Writable s (s.reg .sp - BitVec.ofNat 32 (Size.bytes .l) + 1) .l ∧
    Writable s (s.reg .sp - BitVec.ofNat 32 (Size.bytes .b) + 1) .b := by decide

theorem witness_Pulls : let s := reg .sp 0x0DFB (small [])
    Reg.sp ≠ .p ∧ Readable s (s.reg .sp + 1) .l ∧ Reg.a0 ≠ .p ∧ Reg.a0 ≠ .sp := by decide

theorem witness_PulUndoesPsh : let s := small []
    s.Inv ∧ Reg.sp ≠ .p ∧ Reg.a0 ≠ .sp ∧ Writable s (s.reg .sp - BitVec.ofNat 32 (Size.bytes .l) + 1) .l := by decide

/-- PSH and then PUL of SP on the stack of SP. -/
theorem witness_PulUndoesPsh_own_pointer :
    nextIs (exec (.psh .l (.reg .sp) (.reg .sp)) (small [])) (fun t => nextIs (exec (.pul .l (.reg .sp) (.reg .sp)) t)
      fun u => u.reg .sp == 0x0DFF) = true := by decide

end Sys2Proof.Tests
end

section
/-! PROOFS. The encoding family (30_encoding): what the decoder rejects because of a field of the first word, how
many words it reads, and the table of bit numbers. -/

namespace Sys2Proof.EncodingFacts

/-! The decoder's monad: a run that answers, and a run that ends as reserved. -/

theorem bind_eq_ok {α β : Type} {x : Except Reject α} {f : α → Except Reject β} {b : β} :
    (x >>= f) = .ok b ↔ ∃ a, x = .ok a ∧ f a = .ok b := by
  cases x <;> simp [bind, Except.bind]

theorem must_eq_ok {α : Type} {o : Option α} {x : α} : must o = .ok x ↔ o = some x := by
  cases o <;> simp [must]

theorem bind_of_reserved {α β : Type} {x : Except Reject α} {f : α → Except Reject β} (h : x = .error .reserved) :
    (x >>= f) = .error .reserved := by rw [h]; rfl

/-- A list can only add the reason `reserved` to what follows it. -/
theorem must_bind_reserved {α β : Type} {o : Option α} {f : α → Except Reject β}
    (h : ∀ a, o = some a → f a = .error .reserved) : (must o >>= f) = .error .reserved := by
  cases o with
  | none => rfl
  | some a => exact h a rfl

/-- A fixed bit can only add the reason `reserved` to what follows it. -/
theorem demand_bind_reserved {β : Type} {b : Bool} {f : Unit → Except Reject β} (h : f () = .error .reserved) :
    (demand b >>= f) = .error .reserved := by
  cases b with
  | false => rfl
  | true => exact h

/-! The low byte and the row it selects. -/

theorem field_lowByte (w : Half) : field w 7 0 = w.toNat % 256 := by simp [field]

theorem mem_opcodeMap_of_shapeOf {lo : Nat} {sh : Shape} (h : shapeOf lo = some sh) : (lo, sh) ∈ opcodeMap := by
  rw [shapeOf, Option.map_eq_some_iff] at h
  obtain ⟨r, hr, rfl⟩ := h
  obtain rfl : r.1 = lo := by simpa using List.find?_some hr
  exact List.mem_of_find?_eq_some hr

/-- A first word is read by the row that its low byte selects. -/
theorem decode_of_shapeOf {w : Half} {sh : Shape} (h : shapeOf (w.toNat % 256) = some sh) (ext : List Half) :
    decode (w :: ext) = decodeShape w sh ext := by
  rw [decode, field_lowByte, h]
  rfl

/-- A word that decodes has a documented low byte. -/
theorem shapeOf_of_decode {w : Half} {ext rest : List Half} {i : Instr} (h : decode (w :: ext) = .ok (i, rest)) :
    ∃ sh, shapeOf (w.toNat % 256) = some sh ∧ decodeShape w sh ext = .ok (i, rest) := by
  rw [decode, bind_eq_ok] at h
  obtain ⟨sh, hs, hd⟩ := h
  rw [must_eq_ok, field_lowByte] at hs
  exact ⟨sh, hs, hd⟩

/-! The size field (30_encoding R100). -/

/-- The rows that have a size field. -/
def hasSize : Shape → Bool
  | .branch _ | .brk | .jmpDirect | .jmpIndirect | .jsr | .nop | .rti | .rts | .bitReg _ _ | .bitMem _ _ => false
  | _ => true

theorem sizeField_of_three {w : Half} (h : field w 9 8 = 3) : sizeField w = .error .reserved := by
  rw [sizeField, h]
  rfl

/-- Whatever stands before the size field can only make the word reserved for another reason. -/
theorem decodeShape_of_size_three {w : Half} {sh : Shape} (hs : hasSize sh = true) (h3 : field w 9 8 = 3)
    (ext : List Half) : decodeShape w sh ext = .error .reserved := by
  have size : ∀ {β : Type} (f : Size → Except Reject β), (sizeField w >>= f) = .error .reserved :=
    fun _ => bind_of_reserved (sizeField_of_three h3)
  cases sh with
  | alu p row => exact must_bind_reserved fun _ _ => size _
  | test row => exact demand_bind_reserved (size _)
  | ldrImm => exact demand_bind_reserved (size _)
  | ldr row => exact bind_of_reserved (demand_bind_reserved (size _))
  | str row => exact bind_of_reserved (demand_bind_reserved (size _))
  | unary row => exact size _
  | inc row => exact demand_bind_reserved (size _)
  | shift p row => exact must_bind_reserved fun _ _ => size _
  | mov row => exact size _
  | psh row => exact bind_of_reserved (demand_bind_reserved (size _))
  | pul row => exact bind_of_reserved (demand_bind_reserved (size _))
  | _ => cases hs

/-- The low bytes of the rows that have no size field, but for the branches. -/
def lowsWithoutSize : List Nat :=
  [0x00, 0x4C, 0x6C, 0x20, 0xEA, 0x40, 0x60,
   0x18, 0x12, 0x38, 0x32, 0x58, 0x52, 0x78, 0x72, 0xD8, 0xD2, 0xF8, 0xF2, 0xB8, 0x92, 0x9F, 0xB2]

theorem lowByte_of_no_size {lo : Nat} {sh : Shape} (h : shapeOf lo = some sh) (hs : hasSize sh = false) :
    lo % 32 = 0x10 ∨ lo ∈ lowsWithoutSize := by
  have all : ∀ r ∈ opcodeMap, hasSize r.2 = false → r.1 % 32 = 0x10 ∨ r.1 ∈ lowsWithoutSize := by decide +kernel
  exact all _ (mem_opcodeMap_of_shapeOf h) hs

/-- Settles O4: the row has a size field, or the low byte is undocumented. -/
theorem reservedSize : Obligations.ReservedSize := by
  intro w ext hbranch hlow h3
  cases hs : shapeOf (w.toNat % 256) with
  | none =>
    rw [decode, field_lowByte, hs]
    rfl
  | some sh =>
    rw [decode_of_shapeOf hs]
    refine decodeShape_of_size_three ?_ h3 ext
    by_contra hsize
    rcases lowByte_of_no_size hs (by simpa using hsize) with h | h
    · omega
    · exact hlow h

/-! Codes that no list names (30_encoding R101). -/

/-- The codes of a list that are printed "-". -/
def dashes {α : Type} (l : List (Option α)) : List Nat := (List.range l.length).filter fun k => (nameOf l k).isNone

theorem nameOf_of_mem_dashes {α : Type} {l : List (Option α)} {k : Nat} (h : k ∈ dashes l) : nameOf l k = none :=
  Option.isNone_iff_eq_none.mp (List.mem_filter.mp h).2

/-- The register fields of a row whose lists may print "-" for a code: the bits of the field in the first word, and
the codes so printed. -/
def dashFields : Shape → List (Nat × Nat × List Nat)
  | .alu _ .imm | .ldrImm => [(14, 11, dashes listAAAA)]
  | .shift _ .one | .shift _ .count => [(13, 10, dashes listAAAA)]
  | .unary (.reg l) | .inc (.reg l) => [(12, 10, dashes l.list)]
  | .branch _ => [(11, 8, dashes listBcc)]
  | .bitReg _ _ => [(11, 8, dashes listBitR)]
  | .bitMem _ _ => [(11, 8, dashes listBitX)]
  | .mov row => [(15, 13, dashes row.rdList), (12, 10, dashes row.rsList)]
  | _ => []

/-- A register field of the first word carries a code that its list prints as "-". -/
def Unnamed (w : Half) (fs : List (Nat × Nat × List Nat)) : Prop := ∃ f ∈ fs, field w f.1 f.2.1 ∈ f.2.2

theorem not_unnamed_nil {w : Half} : ¬ Unnamed w [] := by simp [Unnamed]

/-- One register field: its list gives no name, so the word is reserved there. -/
theorem must_of_unnamed {α : Type} {w : Half} {hi lo : Nat} {l : List (Option α)} (h : Unnamed w [(hi, lo, dashes l)]) :
    must (nameOf l (field w hi lo)) = .error .reserved := by
  obtain ⟨f, hf, hc⟩ := h
  obtain rfl := List.mem_singleton.mp hf
  rw [nameOf_of_mem_dashes hc]
  rfl

/-- The list is read before any extension word, and what is read before it can only make the word reserved for
another reason. -/
theorem decodeShape_of_unnamed {w : Half} {sh : Shape} (h : Unnamed w (dashFields sh)) (ext : List Half) :
    decodeShape w sh ext = .error .reserved := by
  cases sh with
  | alu p row =>
    cases row with
    | imm =>
      exact must_bind_reserved fun _ _ => must_bind_reserved fun _ _ =>
        bind_of_reserved (bind_of_reserved (must_of_unnamed h))
    | _ => exact absurd h not_unnamed_nil
  | ldrImm =>
    exact demand_bind_reserved (must_bind_reserved fun _ _ => bind_of_reserved (bind_of_reserved (must_of_unnamed h)))
  | shift p row =>
    refine must_bind_reserved fun _ _ => must_bind_reserved fun _ _ => bind_of_reserved ?_
    cases row with
    | one => exact demand_bind_reserved (bind_of_reserved (must_of_unnamed h))
    | count => exact bind_of_reserved (must_of_unnamed h)
    | mem m => exact absurd h not_unnamed_nil
  | unary row =>
    cases row with
    | reg l => exact must_bind_reserved fun _ _ => bind_of_reserved (bind_of_reserved (must_of_unnamed h))
    | mem m => exact absurd h not_unnamed_nil
  | inc row =>
    cases row with
    | reg l =>
      exact demand_bind_reserved (must_bind_reserved fun _ _ => bind_of_reserved (bind_of_reserved (must_of_unnamed h)))
    | mem m => exact absurd h not_unnamed_nil
  | branch ccc => exact must_bind_reserved fun _ _ => bind_of_reserved (bind_of_reserved (must_of_unnamed h))
  | bitReg p g => exact must_bind_reserved fun _ _ => must_bind_reserved fun _ _ => bind_of_reserved (must_of_unnamed h)
  | bitMem p g => exact must_bind_reserved fun _ _ => must_bind_reserved fun _ _ => bind_of_reserved (must_of_unnamed h)
  | mov row =>
    refine must_bind_reserved fun _ _ => ?_
    obtain ⟨f, hf, hc⟩ := h
    rcases List.mem_cons.mp hf with hrd | hrs
    · exact bind_of_reserved (must_of_unnamed ⟨f, List.mem_singleton.mpr hrd, hc⟩)
    · exact must_bind_reserved fun _ _ => bind_of_reserved (must_of_unnamed ⟨f, hrs, hc⟩)
  | _ => exact absurd h not_unnamed_nil

/-- A word is reserved where each of some low bytes selects a row with a given register field, its low byte is one of
them, and the field carries a code its list prints as "-". -/
theorem decode_of_dash {w : Half} {lows codes : List Nat} {hi lo : Nat} (hlow : w.toNat % 256 ∈ lows)
    (hcode : field w hi lo ∈ codes)
    (hrows : ∀ b ∈ lows, (shapeOf b).any (fun sh => decide ((hi, lo, codes) ∈ dashFields sh)) = true)
    (ext : List Half) : decode (w :: ext) = .error .reserved := by
  obtain ⟨sh, hs, hf⟩ := Option.any_eq_true _ _ |>.mp (hrows _ hlow)
  rw [decode_of_shapeOf hs]
  exact decodeShape_of_unnamed ⟨_, of_decide_eq_true hf, hcode⟩ ext

/-- The count register of the shift form `rd, rs` stands in the extension word; its list is read there. -/
theorem decodeShape_of_dash_count {w h : Half} (p : ShiftPair) (hm : field w 14 14 = 1)
    (hn : nameOf listAAAA (field h 3 0) = none) (ext : List Half) :
    decodeShape w (.shift p .count) (h :: ext) = .error .reserved := by
  refine must_bind_reserved fun _ _ => must_bind_reserved fun _ _ => bind_of_reserved (must_bind_reserved fun rd _ => ?_)
  show (if field w 14 14 = 0 then _ else _) = _
  rw [if_neg (by omega)]
  exact demand_bind_reserved (bind_of_reserved (by rw [hn]; rfl))

/-- Settles O5: a clause per list, each by the rows its low bytes select. -/
theorem reservedRegisterCodes : Obligations.ReservedRegisterCodes := by
  intro w ext lo
  have hw := w.isLt
  refine ⟨?imm, ?shift, ?count, ?unaryB, ?bcc, ?bitR, ?bitX, ?movXrd, ?movXrs, ?movSrs, ?movSrd⟩
  case imm => exact fun hlo hc => decode_of_dash (hi := 14) (lo := 11) hlo hc (by decide +kernel) ext
  case shift => exact fun hlo hc => decode_of_dash (hi := 13) (lo := 10) hlo hc (by decide +kernel) ext
  case count =>
    intro hlo hm h hc
    obtain ⟨p, hs⟩ : ∃ p, shapeOf lo = some (.shift p .count) := by
      simp only [List.mem_cons, List.not_mem_nil, or_false] at hlo
      rcases hlo with h | h | h | h <;> exact ⟨_, by rw [h]; rfl⟩
    have hn : nameOf listAAAA (field h 3 0) = none :=
      nameOf_of_mem_dashes (show field h 3 0 ∈ [12, 15] by simpa [field] using hc)
    rw [decode_of_shapeOf hs]
    exact decodeShape_of_dash_count p hm hn ext
  case unaryB => exact fun hlo hc => decode_of_dash (hi := 12) (lo := 10) hlo hc (by decide +kernel) ext
  case bcc =>
    intro hlo hc
    have hlow : lo ∈ [0x10, 0x30, 0x50, 0x70, 0x90, 0xb0, 0xd0, 0xf0] := by
      simp only [List.mem_cons, List.not_mem_nil, or_false]
      omega
    exact decode_of_dash (hi := 11) (lo := 8) hlow (List.mem_singleton.mpr hc) (by decide +kernel) ext
  case bitR =>
    exact fun hlo hc => decode_of_dash (hi := 11) (lo := 8) hlo (List.mem_singleton.mpr hc) (by decide +kernel) ext
  case bitX =>
    exact fun hlo hc => decode_of_dash (hi := 11) (lo := 8) hlo (List.mem_singleton.mpr hc) (by decide +kernel) ext
  case movXrd =>
    intro hlo hc
    have hf : field w 15 13 = 7 := by simp only [field]; omega
    exact decode_of_dash hlo (List.mem_singleton.mpr hf) (by decide +kernel) ext
  case movXrs =>
    exact fun hlo hc => decode_of_dash (hi := 12) (lo := 10) hlo (List.mem_singleton.mpr hc) (by decide +kernel) ext
  case movSrs =>
    exact fun hlo hc => decode_of_dash (hi := 12) (lo := 10) (List.mem_singleton.mpr hlo) (List.mem_singleton.mpr hc)
      (by decide +kernel) ext
  case movSrd =>
    intro hlo hc
    have hf : field w 15 13 = 1 := by simp only [field]; omega
    exact decode_of_dash (List.mem_singleton.mpr hlo) (List.mem_singleton.mpr hf) (by decide +kernel) ext

/-! How many words the decoder reads (30_encoding R60, R61). -/

/-- `rest` stands after the first `n` of the words `ext`, which are there. -/
def After (n : Nat) (ext rest : List Half) : Prop := rest = ext.drop n ∧ n ≤ ext.length

theorem after_zero (ext : List Half) : After 0 ext ext := ⟨rfl, Nat.zero_le _⟩

theorem after_append {n : Nat} {pre : List Half} (rest : List Half) (h : pre.length = n) : After n (pre ++ rest) rest := by
  subst h
  exact ⟨List.drop_left.symm, by simp⟩

theorem after_of_takeHalf {ext rest : List Half} {h : Half} (e : takeHalf ext = .ok (h, rest)) : After 1 ext rest := by
  rw [takeHalf_eq_ok e]
  exact after_append (pre := [h]) rest rfl

theorem after_of_takeWord {ext rest : List Half} {v : Word} (h : takeWord ext = .ok (v, rest)) : After 2 ext rest := by
  rw [takeWord_eq_ok h]
  exact after_append rest rfl

theorem after_of_takeImm {sz : Size} {ext rest : List Half} {v : Word} (h : takeImm sz ext = .ok (v, rest)) :
    After sz.immWords ext rest := by
  rw [(takeImm_eq_ok h).2]
  exact after_append rest (by cases sz <;> rfl)

theorem after_of_decodeMem {w : Half} {m : AddrMode} {ext rest : List Half} {mo : MemOp}
    (h : decodeMem w m ext = .ok (mo, rest)) : mo.words = m.extWords ∧ After m.extWords ext rest := by
  obtain ⟨ri, -, h⟩ := bind_eq_ok.mp h
  obtain ⟨rfl, -, rfl⟩ := takeMem_eq_ok h
  exact ⟨rfl, after_append rest (Laws.length_ext_words mo)⟩

theorem after_of_decodeImm {w : Half} {sz : Size} {ext rest : List Half} {rd : Reg} {v : Word}
    (h : decodeImm w sz ext = .ok (rd, v, rest)) : After sz.immWords ext rest := by
  obtain ⟨_, -, h⟩ := bind_eq_ok.mp h
  obtain ⟨_, -, h⟩ := bind_eq_ok.mp h
  obtain ⟨⟨_, _⟩, himm, h⟩ := bind_eq_ok.mp h
  cases h
  exact after_of_takeImm himm

/-- An immediate takes two words at size `l`, whose code is 2. -/
theorem immWords_of_sizeField {w : Half} {sz : Size} (h : sizeField w = .ok sz) :
    sz.immWords = if field w 9 8 = 2 then 2 else 1 := by
  rw [sizeField, must_eq_ok] at h
  have hlt : field w 9 8 < 4 := field_lt w 9 8
  generalize field w 9 8 = k at h hlt
  interval_cases k <;> cases h <;> rfl

@[simp] theorem words_alu (op : AluOp) (sz : Size) (f : AluForm) : (Instr.alu op sz f).words = f.words sz := by
  cases op <;> rfl
@[simp] theorem words_shift (op : ShiftOp) (sz : Size) (f : ShiftForm) : (Instr.shift op sz f).words = f.words := by
  cases op <;> rfl
@[simp] theorem words_unary (op : UnaryOp) (sz : Size) (f : UnaryForm) : (Instr.unary op sz f).words = f.words := by
  cases op <;> rfl
@[simp] theorem words_branch (c : Cond) (f : BranchForm) : (Instr.branch c f).words = f.words := by cases c <;> rfl
@[simp] theorem words_bitop (op : BitOp) (f : BitForm) (b : BitVec 5) : (Instr.bitop op f b).words = f.words := by
  cases op <;> rfl

/-- An instruction of `len` words was read from a first word and `n` more. -/
def Reads (n len : Nat) (ext rest : List Half) : Prop := len = 1 + n ∧ After n ext rest

theorem reads_mem {w : Half} {m : AddrMode} {ext rest : List Half} {mo : MemOp}
    (h : decodeMem w m ext = .ok (mo, rest)) : Reads m.extWords (1 + mo.words) ext rest := by
  obtain ⟨hw, ha⟩ := after_of_decodeMem h
  exact ⟨by rw [hw], ha⟩

theorem reads_alu {w : Half} {p : AluPair} {row : OpRow} {ext rest : List Half} {i : Instr}
    (h : decodeAlu w p row ext = .ok (i, rest)) : Reads ((Shape.alu p row).extWords w) i.words ext rest := by
  obtain ⟨op, -, h⟩ := bind_eq_ok.mp h
  obtain ⟨sz, hsz, h⟩ := bind_eq_ok.mp h
  cases row with
  | reg g =>
    obtain ⟨_, -, h⟩ := bind_eq_ok.mp h
    obtain ⟨_, -, h⟩ := bind_eq_ok.mp h
    cases h
    exact ⟨words_alu _ _ _, after_zero ext⟩
  | imm =>
    obtain ⟨⟨_, _, _⟩, himm, h⟩ := bind_eq_ok.mp h
    cases h
    rw [words_alu, Shape.extWords, ← immWords_of_sizeField hsz]
    exact ⟨rfl, after_of_decodeImm himm⟩
  | mem g m =>
    obtain ⟨_, -, h⟩ := bind_eq_ok.mp h
    obtain ⟨⟨_, _⟩, hmem, h⟩ := bind_eq_ok.mp h
    cases h
    rw [words_alu]
    exact reads_mem hmem

theorem reads_test {w : Half} {row : OpRow} {ext rest : List Half} {i : Instr}
    (h : decodeTest w row ext = .ok (i, rest)) : Reads ((Shape.test row).extWords w) i.words ext rest := by
  obtain ⟨_, -, h⟩ := bind_eq_ok.mp h
  obtain ⟨sz, -, h⟩ := bind_eq_ok.mp h
  cases row with
  | reg g =>
    obtain ⟨_, -, h⟩ := bind_eq_ok.mp h
    obtain ⟨_, -, h⟩ := bind_eq_ok.mp h
    cases h
    exact ⟨rfl, after_zero ext⟩
  | imm => cases h
  | mem g m =>
    obtain ⟨_, -, h⟩ := bind_eq_ok.mp h
    obtain ⟨⟨_, _⟩, hmem, h⟩ := bind_eq_ok.mp h
    cases h
    exact reads_mem hmem

theorem reads_move {w : Half} {row : OpRow} {ext rest : List Half} {sz : Size} {rd : Reg} {mo : MemOp}
    (h : decodeMove w row ext = .ok (sz, rd, mo, rest)) :
    Reads ((Shape.ldr row).extWords w) (1 + mo.words) ext rest := by
  obtain ⟨_, -, h⟩ := bind_eq_ok.mp h
  obtain ⟨_, -, h⟩ := bind_eq_ok.mp h
  cases row with
  | mem g m =>
    obtain ⟨_, -, h⟩ := bind_eq_ok.mp h
    obtain ⟨⟨_, _⟩, hmem, h⟩ := bind_eq_ok.mp h
    cases h
    exact reads_mem hmem
  | _ => cases h

theorem extWords_str (w : Half) (row : OpRow) : (Shape.str row).extWords w = (Shape.ldr row).extWords w := by
  cases row <;> rfl

theorem reads_unary {w : Half} {row : UnaryRow} {ext rest : List Half} {f : UnaryForm}
    (h : decodeUnary w row ext = .ok (f, rest)) : Reads ((Shape.unary row).extWords w) f.words ext rest := by
  cases row with
  | reg l =>
    obtain ⟨_, -, h⟩ := bind_eq_ok.mp h
    cases h
    exact ⟨rfl, after_zero ext⟩
  | mem m =>
    obtain ⟨⟨_, _⟩, hmem, h⟩ := bind_eq_ok.mp h
    cases h
    exact reads_mem hmem

theorem extWords_inc (w : Half) (row : UnaryRow) : (Shape.inc row).extWords w = (Shape.unary row).extWords w := by
  cases row <;> rfl

theorem reads_shift {w : Half} {p : ShiftPair} {row : ShiftRow} {ext rest : List Half} {f : ShiftForm}
    (h : decodeShift w row ext = .ok (f, rest)) : Reads ((Shape.shift p row).extWords w) f.words ext rest := by
  cases row with
  | one =>
    obtain ⟨_, -, h⟩ := bind_eq_ok.mp h
    obtain ⟨_, -, h⟩ := bind_eq_ok.mp h
    cases h
    exact ⟨rfl, after_zero ext⟩
  | count =>
    obtain ⟨_, -, h⟩ := bind_eq_ok.mp h
    obtain ⟨⟨_, _⟩, hcount, h⟩ := bind_eq_ok.mp h
    have ha := after_of_takeHalf hcount
    dsimp only at h
    split at h
    · cases h
      exact ⟨rfl, ha⟩
    · obtain ⟨_, -, h⟩ := bind_eq_ok.mp h
      obtain ⟨_, -, h⟩ := bind_eq_ok.mp h
      cases h
      exact ⟨rfl, ha⟩
  | mem m =>
    obtain ⟨⟨_, _⟩, hmem, h⟩ := bind_eq_ok.mp h
    cases h
    exact reads_mem hmem

theorem reads_branch {w : Half} {ccc : Nat} {ext rest : List Half} {f : BranchForm}
    (h : decodeBranch w ext = .ok (f, rest)) : Reads ((Shape.branch ccc).extWords w) f.words ext rest := by
  obtain ⟨_, -, h⟩ := bind_eq_ok.mp h
  have hlt : field w 14 14 < 2 := field_lt w 14 14
  rw [Shape.extWords]
  dsimp only at h
  split at h
  next hd =>
    obtain ⟨⟨_, _⟩, hv, h⟩ := bind_eq_ok.mp h
    cases h
    rw [hd]
    exact ⟨rfl, after_of_takeHalf hv⟩
  next hd =>
    obtain ⟨⟨_, _⟩, hv, h⟩ := bind_eq_ok.mp h
    cases h
    rw [show field w 14 14 = 1 by omega]
    exact ⟨rfl, after_of_takeWord hv⟩

/-- The decoder reads as many words as the first word says, and the instruction is as long; NOP is apart. -/
theorem reads_of_decodeShape {w : Half} {sh : Shape} {ext rest : List Half} {i : Instr} (hn : sh ≠ .nop)
    (h : decodeShape w sh ext = .ok (i, rest)) : Reads (sh.extWords w) i.words ext rest := by
  cases sh with
  | nop => exact absurd rfl hn
  | alu p row => exact reads_alu h
  | test row => exact reads_test h
  | ldrImm =>
    obtain ⟨_, -, h⟩ := bind_eq_ok.mp h
    obtain ⟨sz, hsz, h⟩ := bind_eq_ok.mp h
    obtain ⟨⟨_, _, _⟩, himm, h⟩ := bind_eq_ok.mp h
    cases h
    rw [Shape.extWords, ← immWords_of_sizeField hsz]
    exact ⟨rfl, after_of_decodeImm himm⟩
  | ldr row =>
    obtain ⟨⟨_, _, _, _⟩, hmove, h⟩ := bind_eq_ok.mp h
    cases h
    exact reads_move hmove
  | str row =>
    obtain ⟨⟨_, _, _, _⟩, hmove, h⟩ := bind_eq_ok.mp h
    cases h
    rw [extWords_str]
    exact reads_move hmove
  | unary row =>
    obtain ⟨_, -, h⟩ := bind_eq_ok.mp h
    obtain ⟨⟨f, _⟩, hf, h⟩ := bind_eq_ok.mp h
    have hr := reads_unary hf
    dsimp only at h
    split at h
    · cases h
      exact hr
    · obtain ⟨op, -, h⟩ := bind_eq_ok.mp h
      cases h
      rw [words_unary]
      exact hr
  | inc row =>
    obtain ⟨_, -, h⟩ := bind_eq_ok.mp h
    obtain ⟨_, -, h⟩ := bind_eq_ok.mp h
    obtain ⟨⟨f, _⟩, hf, h⟩ := bind_eq_ok.mp h
    cases h
    rw [extWords_inc]
    exact reads_unary hf
  | shift p row =>
    obtain ⟨_, -, h⟩ := bind_eq_ok.mp h
    obtain ⟨_, -, h⟩ := bind_eq_ok.mp h
    obtain ⟨⟨f, _⟩, hf, h⟩ := bind_eq_ok.mp h
    cases h
    rw [words_shift]
    exact reads_shift hf
  | branch ccc =>
    obtain ⟨_, -, h⟩ := bind_eq_ok.mp h
    obtain ⟨⟨f, _⟩, hf, h⟩ := bind_eq_ok.mp h
    cases h
    rw [words_branch]
    exact reads_branch hf
  | brk =>
    obtain ⟨⟨_, _⟩, hword, h⟩ := bind_eq_ok.mp h
    cases h
    exact ⟨rfl, after_of_takeHalf hword⟩
  | jmpDirect | jmpIndirect | jsr =>
    obtain ⟨_, -, h⟩ := bind_eq_ok.mp h
    obtain ⟨⟨_, _⟩, haddr, h⟩ := bind_eq_ok.mp h
    cases h
    exact ⟨rfl, after_of_takeWord haddr⟩
  | rti | rts =>
    obtain ⟨_, -, h⟩ := bind_eq_ok.mp h
    cases h
    exact ⟨rfl, after_zero ext⟩
  | bitReg p g =>
    obtain ⟨_, -, h⟩ := bind_eq_ok.mp h
    obtain ⟨_, -, h⟩ := bind_eq_ok.mp h
    obtain ⟨_, -, h⟩ := bind_eq_ok.mp h
    cases h
    exact ⟨words_bitop _ _ _, after_zero ext⟩
  | bitMem p g =>
    obtain ⟨_, -, h⟩ := bind_eq_ok.mp h
    obtain ⟨_, -, h⟩ := bind_eq_ok.mp h
    obtain ⟨_, -, h⟩ := bind_eq_ok.mp h
    obtain ⟨⟨_, _⟩, haddr, h⟩ := bind_eq_ok.mp h
    cases h
    exact ⟨words_bitop _ _ _, after_of_takeWord haddr⟩
  | mov row =>
    obtain ⟨_, -, h⟩ := bind_eq_ok.mp h
    obtain ⟨_, -, h⟩ := bind_eq_ok.mp h
    obtain ⟨_, -, h⟩ := bind_eq_ok.mp h
    cases h
    exact ⟨rfl, after_zero ext⟩
  | psh row | pul row =>
    obtain ⟨⟨_, _, _⟩, -, h⟩ := bind_eq_ok.mp h
    cases h
    exact ⟨rfl, after_zero ext⟩

/-! What of the first word the length depends on. -/

/-- The rows `rd, #imm`, whose length depends on `DD`. -/
def isImm : Shape → Bool
  | .alu _ .imm | .ldrImm => true
  | _ => false

/-- The low bytes of the rows `rd, #imm`. -/
def immLows : List Nat := [0x09, 0x29, 0x49, 0x69, 0xA9, 0xE9]

/-- The branches, whose length depends on `D`. -/
def isBranch : Shape → Bool
  | .branch _ => true
  | _ => false

/-- Every other row has one length. -/
theorem extWords_eq_zero_word {sh : Shape} (hi : isImm sh = false) (hb : isBranch sh = false) (w : Half) :
    sh.extWords w = sh.extWords 0 := by
  cases sh with
  | alu p row => cases row <;> first | rfl | cases hi
  | test row | ldr row | str row => cases row <;> rfl
  | unary row | inc row | shift p row => cases row <;> rfl
  | ldrImm => cases hi
  | branch ccc => cases hb
  | _ => rfl

theorem extWords_of_isImm {sh : Shape} (h : isImm sh = true) (w : Half) :
    sh.extWords w = if field w 9 8 = 2 then 2 else 1 := by
  unfold isImm at h
  split at h
  · rfl
  · rfl
  · cases h

theorem extWords_of_isBranch {sh : Shape} (h : isBranch sh = true) (w : Half) :
    sh.extWords w = if w.getLsbD 14 then 2 else 1 := by
  unfold isBranch at h
  split at h
  · have hbit : w.getLsbD 14 = decide (field w 14 14 = 1) := Nat.testBit_eq_decide_div_mod_eq
    have hlt : field w 14 14 < 2 := field_lt w 14 14
    rw [Shape.extWords, hbit]
    by_cases hd : field w 14 14 = 1
    · simp [hd]
    · simp [show field w 14 14 = 0 by omega]
  · cases h

/-- The low bytes of the rows whose length is not fixed by the low byte alone, and of NOP. -/
theorem kind_of_lowByte {lo : Nat} {sh : Shape} (h : shapeOf lo = some sh) :
    (isImm sh = true ↔ lo ∈ immLows) ∧ (isBranch sh = true ↔ lo % 32 = 0x10) ∧ (sh = .nop ↔ lo = 0xEA) := by
  have all : ∀ r ∈ opcodeMap, (isImm r.2 = true ↔ r.1 ∈ immLows) ∧ (isBranch r.2 = true ↔ r.1 % 32 = 0x10) ∧
      (r.2 = .nop ↔ r.1 = 0xEA) := by decide +kernel
  exact all _ (mem_opcodeMap_of_shapeOf h)

/-- The words that follow a first word with a given low byte, where the low byte alone fixes them. -/
def fixedExtWords (lo : Nat) : Nat := (shapeOf lo).elim 0 (Shape.extWords 0)

theorem fixedExtWords_le (lo : Nat) : fixedExtWords lo ≤ 2 := by
  have all : ∀ r ∈ opcodeMap, Shape.extWords 0 r.2 ≤ 2 := by decide +kernel
  unfold fixedExtWords
  cases h : shapeOf lo with
  | none => exact Nat.zero_le 2
  | some sh => exact all _ (mem_opcodeMap_of_shapeOf h)

/-- The length by low byte, with the footnotes of an immediate and of a branch. -/
theorem extWords_of_lowByte {w : Half} {lo : Nat} {sh : Shape} (h : shapeOf lo = some sh) :
    sh.extWords w =
      if lo ∈ immLows then (if field w 9 8 = 2 then 2 else 1)
      else if lo % 32 = 0x10 then (if w.getLsbD 14 then 2 else 1)
      else fixedExtWords lo := by
  obtain ⟨himm, hbranch, -⟩ := kind_of_lowByte h
  split
  next hi => exact extWords_of_isImm (himm.mpr hi) w
  next hi =>
    split
    next hb => exact extWords_of_isBranch (hbranch.mpr hb) w
    next hb =>
      rw [fixedExtWords, h]
      exact extWords_eq_zero_word (by simpa using mt himm.mp hi) (by simpa using mt hbranch.mp hb) w

/-- NOP is as long as its count says, and leaves the words it skips in place (43_control R202). -/
theorem words_of_decodeShape_nop {w : Half} {ext rest : List Half} {i : Instr}
    (h : decodeShape w .nop ext = .ok (i, rest)) : i.words = 1 + w.toNat / 256 ∧ rest = ext := by
  cases h
  refine ⟨?_, rfl⟩
  have := w.isLt
  simp only [Instr.words, field, BitVec.toNat_ofNat]
  omega

/-- Settles O3, by the row the low byte selects: NOP by its count, every other row by what it reads. -/
theorem lengthFromFirstWord : Obligations.LengthFromFirstWord := by
  refine ⟨fixedExtWords, fixedExtWords_le, ?_⟩
  intro w ext i rest h lo
  obtain ⟨sh, hs, hd⟩ := shapeOf_of_decode h
  obtain ⟨-, -, hnop⟩ := kind_of_lowByte hs
  by_cases hlo : lo = 0xEA
  · obtain rfl := hnop.mpr hlo
    obtain ⟨hw, hrest⟩ := words_of_decodeShape_nop hd
    exact ⟨by rw [if_pos hlo, hw], fun hne => absurd hlo hne, fun _ => hrest⟩
  · obtain ⟨hw, hrest, hle⟩ := reads_of_decodeShape (mt hnop.mp hlo) hd
    have hn : i.words - 1 = sh.extWords w := by omega
    refine ⟨?_, fun _ => ?_, fun he => absurd he hlo⟩
    · rw [if_neg hlo, hw, extWords_of_lowByte hs]
      rfl
    · rw [hn]
      exact ⟨hrest, hle⟩

/-! The bit instructions, Formats E and F (30_encoding R87). -/

/-- A word of a bit instruction on a register, by the names of its fields. -/
theorem decode_bitReg {p : BitPair} {g : BitGroup} {op : BitOp} {b : BitVec 5} {rd : Reg} {t k r lo : Nat}
    (hs : shapeOf lo = some (.bitReg p g)) (hop : nameOf p.list t = some op) (hb : nameOf g.list k = some b)
    (hrd : nameOf listBitR r = some rd) (ht : t < 2) (hk : k < 8) (hr : r < 16) (hl : lo < 256) (ext : List Half) :
    decode (formatF t k r lo :: ext) = .ok (.bitop op (.reg rd) b, ext) := by
  obtain ⟨ht, hk, hr, hl⟩ := fields_formatF ht hk hr hl
  rw [decode_of_shapeOf (by rw [← field_lowByte, hl, hs]), decodeShape, ht, hk, hr, hop, hb, hrd]
  rfl

/-- A word of a bit instruction on memory, by the names of its fields, and its address. -/
theorem decode_bitMem {p : BitPair} {g : BitGroup} {op : BitOp} {b : BitVec 5} {ri : Index} {t k r lo : Nat}
    (hs : shapeOf lo = some (.bitMem p g)) (hop : nameOf p.list t = some op) (hb : nameOf g.list k = some b)
    (hri : nameOf listBitX r = some ri) (ht : t < 2) (hk : k < 8) (hr : r < 16) (hl : lo < 256) (a : Word)
    (ext : List Half) :
    decode (formatF t k r lo :: (halvesOfWord a ++ ext)) = .ok (.bitop op (.mem a ri) b, ext) := by
  obtain ⟨ht, hk, hr, hl⟩ := fields_formatF ht hk hr hl
  rw [decode_of_shapeOf (by rw [← field_lowByte, hl, hs]), decodeShape, ht, hk, hr, hop, hb, hri]
  simp only [takeWord_halvesOfWord, must, bind, Except.bind]

/-- A low byte of the bit instructions selects its pair and group. -/
theorem shapeOf_bitMap {lo : Nat} {sh : Shape} (h : (lo, sh) ∈ bitMap) : shapeOf lo = some sh ∧ lo < 256 := by
  have all : ∀ r ∈ bitMap, shapeOf r.1 = some r.2 ∧ r.1 < 256 := by decide +kernel
  exact all _ h

/-- The four low bytes of a group, with bit 15 clear and set, select the four instructions on both operands. -/
theorem decode_group {g : BitGroup} {clearReg clearMem setReg setMem code : Nat} {b : BitVec 5}
    (hcr : (clearReg, .bitReg .clear g) ∈ bitMap) (hcm : (clearMem, .bitMem .clear g) ∈ bitMap)
    (hsr : (setReg, .bitReg .set g) ∈ bitMap) (hsm : (setMem, .bitMem .set g) ∈ bitMap)
    (hcode : code < 8) (hb : nameOf g.list code = some b) :
    decode [formatF 0 code 0 clearReg] = .ok (.cbt (.reg .p) b, []) ∧
    decode [formatF 1 code 0 clearReg] = .ok (.tbt (.reg .p) b, []) ∧
    decode [formatF 0 code 0 clearMem, 0, 0] = .ok (.cbt (.mem 0 (.reg .a0)) b, []) ∧
    decode [formatF 1 code 0 clearMem, 0, 0] = .ok (.tbt (.mem 0 (.reg .a0)) b, []) ∧
    decode [formatF 0 code 0 setReg] = .ok (.sbt (.reg .p) b, []) ∧
    decode [formatF 1 code 0 setReg] = .ok (.xbt (.reg .p) b, []) ∧
    decode [formatF 0 code 0 setMem, 0, 0] = .ok (.sbt (.mem 0 (.reg .a0)) b, []) ∧
    decode [formatF 1 code 0 setMem, 0, 0] = .ok (.xbt (.mem 0 (.reg .a0)) b, []) := by
  have onReg (op : BitOp) {t lo : Nat} (hm : (lo, .bitReg op.pair g) ∈ bitMap) (hop : nameOf op.pair.list t = some op)
      (ht : t < 2) : decode [formatF t code 0 lo] = .ok (.bitop op (.reg .p) b, []) :=
    decode_bitReg (shapeOf_bitMap hm).1 hop hb rfl ht hcode (by decide) (shapeOf_bitMap hm).2 []
  have onMem (op : BitOp) {t lo : Nat} (hm : (lo, .bitMem op.pair g) ∈ bitMap) (hop : nameOf op.pair.list t = some op)
      (ht : t < 2) : decode [formatF t code 0 lo, 0, 0] = .ok (.bitop op (.mem 0 (.reg .a0)) b, []) :=
    decode_bitMem (shapeOf_bitMap hm).1 hop hb rfl ht hcode (by decide) (shapeOf_bitMap hm).2 0 []
  exact ⟨onReg .cbt hcr rfl (by decide), onReg .tbt hcr rfl (by decide), onMem .cbt hcm rfl (by decide),
    onMem .tbt hcm rfl (by decide), onReg .sbt hsr rfl (by decide), onReg .xbt hsr rfl (by decide),
    onMem .sbt hsm rfl (by decide), onMem .xbt hsm rfl (by decide)⟩

/-- The bit number at a code of a group whose numbers are written out. -/
theorem nameOf_bitGroup {g : BitGroup} {numbers : List Nat}
    (h : g.list = numbers.map fun n => some (BitVec.ofNat 5 n)) {code : Nat} (hcode : code < numbers.length) :
    nameOf g.list code = some (BitVec.ofNat 5 (numbers.getD code 0)) := by
  rw [nameOf_eq_some, h, List.getElem?_map, List.getD_eq_getElem?_getD, List.getElem?_eq_getElem hcode]
  rfl

/-- Settles O7: each group by its list and its four low bytes, and a count over the four lists. -/
theorem bitNumberGroups : Obligations.BitNumberGroups := by
  unfold Obligations.BitNumberGroups
  intro groups
  refine ⟨?words, by decide⟩
  intro g hg code hcode b word
  have hword : ∀ t lo, word t lo = formatF t code 0 lo := fun t lo => by simp [word, formatF]
  simp only [hword]
  simp only [groups, List.mem_cons, List.not_mem_nil, or_false] at hg
  rcases hg with rfl | rfl | rfl | rfl
  · exact decode_group (g := .ga) (by decide) (by decide) (by decide) (by decide) hcode (nameOf_bitGroup rfl hcode)
  · exact decode_group (g := .gb) (by decide) (by decide) (by decide) (by decide) hcode (nameOf_bitGroup rfl hcode)
  · exact decode_group (g := .gc) (by decide) (by decide) (by decide) (by decide) hcode (nameOf_bitGroup rfl hcode)
  · exact decode_group (g := .gd) (by decide) (by decide) (by decide) (by decide) hcode (nameOf_bitGroup rfl hcode)

end Sys2Proof.EncodingFacts
end

section
/-! PROOFS. The control family (43_control): the sixteen conditions, from the word of a branch to what they say of
two numbers after their subtraction. -/

namespace Sys2Proof.ControlFacts

open Sys2Proof.Machine Sys2Proof.EncodingFacts

/-! The word of a branch, Format D (30_encoding R65). -/

/-- The low byte of a branch has the low three bits of the condition code in its bits 7:5. -/
theorem shapeOf_branch {k : Nat} (hk : k < 8) : shapeOf (k * 2 ^ 5 + 0x10) = some (.branch k) := by
  have all : ∀ k < 8, shapeOf (k * 2 ^ 5 + 0x10) = some (.branch k) := by decide
  exact all k hk

/-- A branch with a 16-bit offset, by the names of its fields. -/
theorem decode_branch_short {cc r : Nat} {c : Cond} {base : Index} (hc : nameOf listCCCC cc = some c)
    (hb : nameOf listBcc r = some base) (hcc : cc < 16) (hr : r < 16) (ind link : Bool) (h : Half) (ext : List Half) :
    decode (formatD (cc / 8) 0 ind.toNat link.toNat r (cc % 8 * 2 ^ 5 + 0x10) :: h :: ext)
      = .ok (.branch c ⟨.short h, base, ind, link⟩, ext) := by
  obtain ⟨h15, h14, h13, h12, h11, hlo⟩ := fields_formatD (c := cc / 8) (d := 0) (lo := cc % 8 * 2 ^ 5 + 0x10)
    (by omega) (by decide) ind.toNat_lt link.toNat_lt hr (by omega)
  have hcode : cc / 8 * 8 + cc % 8 = cc := by omega
  rw [decode_of_shapeOf (by rw [← field_lowByte, hlo, shapeOf_branch (by omega)])]
  simp only [decodeShape, decodeBranch, h15, h14, h13, h12, h11, hcode, hc, hb, must, takeHalf, bind, Except.bind,
    if_true]
  cases ind <;> cases link <;> rfl

/-! The conditions as propositions (43_control R191). -/

theorem cond_ge (s : State) : s.cond .ge = decide (s.flag Params.flagN = s.flag Params.flagV) := by
  simp only [State.cond, condHolds]
  cases s.flag Params.flagN <;> cases s.flag Params.flagV <;> rfl

theorem cond_lt (s : State) : s.cond .lt = decide (s.flag Params.flagN ≠ s.flag Params.flagV) := by
  simp only [State.cond, condHolds]
  cases s.flag Params.flagN <;> cases s.flag Params.flagV <;> rfl

theorem cond_le (s : State) :
    s.cond .le = decide (s.flag Params.flagZ = true ∨ s.flag Params.flagN ≠ s.flag Params.flagV) := by
  rw [Bool.decide_or, Bool.decide_eq_true, ← cond_lt]
  rfl

theorem cond_gt (s : State) :
    s.cond .gt = decide (s.flag Params.flagZ = false ∧ s.flag Params.flagN = s.flag Params.flagV) := by
  rw [Bool.decide_and, Bool.decide_eq_false, ← cond_ge]
  rfl

/-- BGT is BLE negated. -/
theorem cond_gt_eq_not_le (s : State) : s.cond .gt = !s.cond .le := by
  rw [cond_gt, cond_le, ← decide_not, decide_eq_decide, not_or, not_not, Bool.not_eq_true]

theorem cond_ls (s : State) :
    s.cond .ls = decide (s.flag Params.flagC = true ∨ s.flag Params.flagZ = true) := by
  rw [Bool.decide_or, Bool.decide_eq_true, Bool.decide_eq_true]
  rfl

theorem cond_hi (s : State) :
    s.cond .hi = decide (s.flag Params.flagC = false ∧ s.flag Params.flagZ = false) := by
  rw [Bool.decide_and, Bool.decide_eq_false, Bool.decide_eq_false]
  rfl

/-! Signed numbers on `s` bits. -/

theorem two_pow_bits (sz : Size) : 2 ^ sz.bits = 2 * 2 ^ (sz.bits - 1) := by cases sz <;> rfl

/-- The two's complement reading, in terms of the weight of the sign bit alone. -/
theorem signedOf_eq (sz : Size) (a : Nat) :
    signedOf sz a = if a < 2 ^ (sz.bits - 1) then (a : Int) else a - 2 * (2 ^ (sz.bits - 1) : Nat) := by
  cases sz <;> rfl

theorem signedOf_inj {sz : Size} {a b : Nat} (ha : a < 2 ^ sz.bits) (hb : b < 2 ^ sz.bits) :
    signedOf sz a = signedOf sz b ↔ a = b := by
  rw [two_pow_bits] at ha hb
  rw [signedOf_eq, signedOf_eq]
  split <;> split <;> omega

/-! Subtraction of `s`-bit numbers, `subFlags` with `cin` = 1 (41_alu R133, D19; R142). -/

theorem toNat_trunc_not {sz : Size} {b : Word} (hb : b.toNat < 2 ^ sz.bits) :
    (trunc sz (~~~ b)).toNat = 2 ^ sz.bits - 1 - b.toNat := by
  rw [toNat_trunc, BitVec.toNat_not]
  cases sz <;> simp only [Size.bits] at hb ⊢ <;> omega

/-- The sum that `subFlags` forms: the carry out is worth `2^s`. -/
theorem toNat_add_trunc_not {sz : Size} {a b : Word} (hb : b.toNat < 2 ^ sz.bits) :
    a.toNat + (trunc sz (~~~ b)).toNat + true.toNat = a.toNat + 2 ^ sz.bits - b.toNat := by
  rw [toNat_trunc_not hb, Bool.toNat_true]
  omega

/-- The difference, with one borrow of `2^s` where it is negative. -/
theorem toNat_subFlags_r {sz : Size} {a b : Word} (ha : a.toNat < 2 ^ sz.bits) (hb : b.toNat < 2 ^ sz.bits) :
    (subFlags sz a b true).r.toNat
      = if b.toNat ≤ a.toNat then a.toNat - b.toNat else a.toNat + 2 ^ sz.bits - b.toNat := by
  have hword : 2 ^ sz.bits ≤ 2 ^ 32 := Nat.pow_le_pow_right (by decide) sz.bits_le
  have hlt := Nat.mod_lt (a.toNat + 2 ^ sz.bits - b.toNat) (Nat.two_pow_pos sz.bits)
  simp only [subFlags, addFlags, toNat_add_trunc_not hb, BitVec.toNat_ofNat]
  rw [Nat.mod_eq_of_lt (by omega)]
  split
  · rw [show a.toNat + 2 ^ sz.bits - b.toNat = a.toNat - b.toNat + 2 ^ sz.bits by omega, Nat.add_mod_right,
      Nat.mod_eq_of_lt (by omega)]
  · exact Nat.mod_eq_of_lt (by omega)

theorem subFlags_r_lt {sz : Size} {a b : Word} (ha : a.toNat < 2 ^ sz.bits) (hb : b.toNat < 2 ^ sz.bits) :
    (subFlags sz a b true).r.toNat < 2 ^ sz.bits := by
  rw [toNat_subFlags_r ha hb]
  split <;> omega

/-- C is not borrow. -/
theorem subFlags_c {sz : Size} {a b : Word} (hb : b.toNat < 2 ^ sz.bits) :
    (subFlags sz a b true).c = decide (b.toNat ≤ a.toNat) := by
  have hborrow : (a.toNat + 2 ^ sz.bits - b.toNat) / 2 ^ sz.bits ≠ 0 ↔ b.toNat ≤ a.toNat := by
    rw [Nat.div_ne_zero_iff]
    have := Nat.two_pow_pos sz.bits
    omega
  simp only [subFlags, addFlags, toNat_add_trunc_not hb]
  rw [Bool.eq_iff_iff, bne_iff_ne, decide_eq_true_eq, hborrow]

theorem signBit_trunc_not (sz : Size) (b : Word) : signBit sz (trunc sz (~~~ b)) = !signBit sz b := by
  have hle := sz.bits_le
  have hpos := sz.bits_pos
  have hbit : sz.bits - 1 < 32 := by omega
  rw [signBit_trunc, signBit, signBit, BitVec.getLsbD_not, decide_eq_true hbit, Bool.true_and]

/-- N of a difference against its V, by the signs of the operands: of one sign, the difference cannot overflow and N
is its sign; of two signs, the sign of the first decides. -/
theorem sign_eq_overflow_iff (signA signB n : Bool) :
    n = (signA == !signB && n != signA) ↔ if signA = signB then n = false else signA = false := by
  cases signA <;> cases signB <;> cases n <;> decide

/-- V corrects N: the two agree where the signed difference is not negative. -/
theorem signBit_eq_subFlags_v_iff {sz : Size} {a b : Word} (ha : a.toNat < 2 ^ sz.bits)
    (hb : b.toNat < 2 ^ sz.bits) :
    signBit sz (subFlags sz a b true).r = (subFlags sz a b true).v ↔ signedOf sz b.toNat ≤ signedOf sz a.toNat := by
  have hv : (subFlags sz a b true).v = (signBit sz a == signBit sz (trunc sz (~~~ b))
      && signBit sz (subFlags sz a b true).r != signBit sz a) := rfl
  rw [hv, signBit_trunc_not, sign_eq_overflow_iff, signBit_eq_decide _ _ (subFlags_r_lt ha hb),
    signBit_eq_decide _ a ha, signBit_eq_decide _ b hb, toNat_subFlags_r ha hb, signedOf_eq, signedOf_eq]
  rw [two_pow_bits] at ha hb ⊢
  generalize 2 ^ (sz.bits - 1) = half at ha hb ⊢
  simp only [decide_eq_decide, decide_eq_false_iff_not]
  split
  · -- one sign: the sign of the difference, with or without a borrow
    split_ifs <;> omega
  · -- two signs
    split_ifs <;> omega

/-! SUB (41_alu R142). -/

theorem exec_sub (sz : Size) (f : AluForm) (s : State) : exec (.sub sz f) s = aluMeaning subFn sz f s := rfl

/-- The second operand is an `s`-bit number (41_alu R131). -/
theorem aluSource_lt {s : State} {next : Addr} {sz : Size} {f : AluForm} {y : Word}
    (h : s.aluSource next sz f = .ok y) : y.toNat < 2 ^ sz.bits := by
  cases f with
  | reg rd rs =>
    cases h
    exact toNat_trunc_lt sz _
  | imm rd v =>
    cases h
    exact toNat_trunc_lt sz v
  | mem rd m =>
    simp only [State.aluSource, State.readMem, bind, Except.bind] at h
    split at h
    · cases h
    · obtain ⟨-, rfl⟩ := State.load_ok h
      rw [← State.trunc_peek]
      exact toNat_trunc_lt sz _

/-- What Z, C, N and V say of `a` and `b` where they come from `a - b` on `s` bits. -/
structure FlagsCompare (t : State) (sz : Size) (a b : Nat) : Prop where
  zero : t.flag Params.flagZ = true ↔ a = b
  carry : t.flag Params.flagC = true ↔ b ≤ a
  signed : t.flag Params.flagN = t.flag Params.flagV ↔ signedOf sz b ≤ signedOf sz a

/-- The flags of `subFlags` are those of the comparison. -/
theorem flagsCompare_of_subFlags {t : State} {sz : Size} {a b : Word} (ha : a.toNat < 2 ^ sz.bits)
    (hb : b.toNat < 2 ^ sz.bits) (hn : t.flag Params.flagN = signBit sz (subFlags sz a b true).r)
    (hz : t.flag Params.flagZ = (trunc sz (subFlags sz a b true).r == 0))
    (hc : t.flag Params.flagC = (subFlags sz a b true).c) (hv : t.flag Params.flagV = (subFlags sz a b true).v) :
    FlagsCompare t sz a.toNat b.toNat where
  zero := by
    obtain ⟨-, hzero⟩ := flagsNZ_of_flag (subFlags_r_lt ha hb) hn hz
    rw [hzero, decide_eq_true_eq, toNat_subFlags_r ha hb]
    split <;> omega
  carry := by rw [hc, subFlags_c hb, decide_eq_true_eq]
  signed := by rw [hn, hv, signBit_eq_subFlags_v_iff ha hb]

/-- SUB leaves the flags of its operands' comparison. -/
theorem flagsCompare_of_sub {sz : Size} {f : AluForm} {s t : State} {y : Word}
    (hy : s.aluSource (s.nextPc (f.words sz)) sz f = .ok y) (h : exec (.sub sz f) s = .next t) :
    FlagsCompare t sz (s.readReg (aluDest f) sz).toNat y.toNat := by
  obtain ⟨b, hb, rfl⟩ := aluMeaning_next (exec_sub sz f s ▸ h)
  obtain rfl : b = y := Except.ok.inj (hb.symm.trans hy)
  refine flagsCompare_of_subFlags (toNat_trunc_lt sz _) (aluSource_lt hy) ?n ?z ?c ?v
  case n => exact State.flag_setNZ _ _ sz Params.flagN
  case z => exact State.flag_setNZ _ _ sz Params.flagZ
  case c => exact (State.flag_setNZ _ _ sz Params.flagC).trans (State.flag_setCV _ _ _ Params.flagC)
  case v => exact (State.flag_setNZ _ _ sz Params.flagV).trans (State.flag_setCV _ _ _ Params.flagV)

/-! What the conditions say after a comparison (43_control R191). -/

section
variable {t : State} {sz : Size} {a b : Nat}

theorem FlagsCompare.cond_eq (h : FlagsCompare t sz a b) : t.cond .eq = decide (a = b) := by
  rw [Bool.eq_iff_iff, decide_eq_true_eq]
  exact h.zero

theorem FlagsCompare.cond_cs (h : FlagsCompare t sz a b) : t.cond .cs = decide (b ≤ a) := by
  rw [Bool.eq_iff_iff, decide_eq_true_eq]
  exact h.carry

theorem FlagsCompare.cond_ge (h : FlagsCompare t sz a b) :
    t.cond .ge = decide (signedOf sz b ≤ signedOf sz a) := by
  rw [ControlFacts.cond_ge, decide_eq_decide, h.signed]

theorem FlagsCompare.cond_lt (h : FlagsCompare t sz a b) :
    t.cond .lt = decide (signedOf sz a < signedOf sz b) := by
  rw [ControlFacts.cond_lt, decide_eq_decide, ne_eq, h.signed, not_le]

/-- BLE adds equality to BLT; equal readings are equal numbers. -/
theorem FlagsCompare.cond_le (h : FlagsCompare t sz a b) (ha : a < 2 ^ sz.bits) (hb : b < 2 ^ sz.bits) :
    t.cond .le = decide (signedOf sz a ≤ signedOf sz b) := by
  rw [ControlFacts.cond_le, decide_eq_decide, ne_eq, h.zero, h.signed, not_le, ← signedOf_inj ha hb,
    le_iff_eq_or_lt]

theorem FlagsCompare.cond_gt (h : FlagsCompare t sz a b) (ha : a < 2 ^ sz.bits) (hb : b < 2 ^ sz.bits) :
    t.cond .gt = decide (signedOf sz b < signedOf sz a) := by
  rw [cond_gt_eq_not_le, h.cond_le ha hb, ← decide_not, decide_eq_decide, not_le]

theorem FlagsCompare.cond_hi (h : FlagsCompare t sz a b) : t.cond .hi = decide (a < b) := by
  rw [ControlFacts.cond_hi, decide_eq_decide, ← Bool.not_eq_true, ← Bool.not_eq_true, h.carry, h.zero]
  omega

theorem FlagsCompare.cond_ls (h : FlagsCompare t sz a b) : t.cond .ls = decide (b ≤ a) := by
  rw [ControlFacts.cond_ls, decide_eq_decide, h.carry, h.zero]
  omega

end

/-- Settles O37: the code by the fields of the word, the table by the truth tables of N, Z, C and V, and the
comparisons by what SUB leaves in the flags. -/
theorem conditions : Obligations.Conditions := by
  refine ⟨?code, ?table, ?sub⟩
  case code =>
    intro code c hc
    have hname : nameOf listCCCC code = some c := by
      rw [nameOf_eq_some]
      exact (List.getElem?_map ..).trans (congrArg (Option.map some) hc)
    have hlt : code < 16 := (List.getElem?_eq_some_iff.mp hc).1
    have hword : BitVec.ofNat 16 (code / 8 * 2 ^ 15 + code % 8 * 2 ^ 5 + 0x10)
        = formatD (code / 8) 0 0 0 0 (code % 8 * 2 ^ 5 + 0x10) := by
      simp [formatD, Nat.add_assoc]
    rw [hword]
    exact decode_branch_short hname (base := .pc) rfl hlt (by decide) false false 0 []
  case table =>
    intro s
    exact ⟨rfl, rfl, rfl, rfl, rfl, rfl, rfl, rfl, cond_ge s, cond_lt s, cond_le s, cond_gt s, cond_ls s, cond_hi s,
      rfl, rfl⟩
  case sub =>
    intro sz f s t y _ hy h
    have hflags := flagsCompare_of_sub hy h
    have ha := toNat_trunc_lt sz (s.reg (aluDest f))
    have hb := aluSource_lt hy
    exact ⟨hflags.cond_eq, hflags.cond_ge, hflags.cond_lt, hflags.cond_le ha hb, hflags.cond_gt ha hb,
      hflags.cond_cs, hflags.cond_hi, hflags.cond_ls⟩

end Sys2Proof.ControlFacts
end

section
/-! PROOFS. The families of instructions: every instruction is a member of one of seventeen, and each fact about a
family is said once (30_encoding R108). -/

namespace Sys2Proof.FamilyFacts

open Sys2Proof.Machine

/-- A statement about every instruction, family by family. -/
theorem instr_cases {motive : Instr → Prop}
    (unary : ∀ op sz f, motive (.unary op sz f)) (alu : ∀ op sz f, motive (.alu op sz f))
    (bit : ∀ sz f, motive (.bit sz f)) (shift : ∀ op sz f, motive (.shift op sz f))
    (branch : ∀ c f, motive (.branch c f)) (brk : ∀ w q v, motive (.brk w q v)) (jmp : ∀ f, motive (.jmp f))
    (jsr : ∀ rs a, motive (.jsr rs a)) (nop : ∀ n, motive (.nop n)) (rti : ∀ rs, motive (.rti rs))
    (rts : ∀ rs, motive (.rts rs)) (bitop : ∀ op f b, motive (.bitop op f b)) (ldr : ∀ sz f, motive (.ldr sz f))
    (mov : ∀ sz row rd rs, motive (.mov sz row rd rs)) (psh : ∀ sz rd rs, motive (.psh sz rd rs))
    (pul : ∀ sz rd rs, motive (.pul sz rd rs)) (str : ∀ sz rd m, motive (.str sz rd m)) (i : Instr) : motive i := by
  cases i with
  | abs sz f => exact unary .abs sz f
  | dec sz nn f => exact unary (.dec nn) sz f
  | ext sz f => exact unary .ext sz f
  | inc sz nn f => exact unary (.inc nn) sz f
  | neg sz f => exact unary .neg sz f
  | not sz f => exact unary .not sz f
  | adc sz f => exact alu .adc sz f
  | add sz f => exact alu .add sz f
  | and sz f => exact alu .and sz f
  | bic sz f => exact alu .bic sz f
  | bit sz f => exact bit sz f
  | eor sz f => exact alu .eor sz f
  | ora sz f => exact alu .ora sz f
  | sbc sz f => exact alu .sbc sz f
  | sub sz f => exact alu .sub sz f
  | asl sz f => exact shift .asl sz f
  | asr sz f => exact shift .asr sz f
  | esl sz f => exact shift .esl sz f
  | lsr sz f => exact shift .lsr sz f
  | rlb sz f => exact shift .rlb sz f
  | rol sz f => exact shift .rol sz f
  | ror sz f => exact shift .ror sz f
  | rrb sz f => exact shift .rrb sz f
  | bpl f => exact branch .pl f
  | bmi f => exact branch .mi f
  | bvc f => exact branch .vc f
  | bvs f => exact branch .vs f
  | bcc f => exact branch .cc f
  | bcs f => exact branch .cs f
  | bne f => exact branch .ne f
  | beq f => exact branch .eq f
  | bge f => exact branch .ge f
  | blt f => exact branch .lt f
  | ble f => exact branch .le f
  | bgt f => exact branch .gt f
  | bls f => exact branch .ls f
  | bhi f => exact branch .hi f
  | bnv f => exact branch .nv f
  | bra f => exact branch .ra f
  | brk w q v => exact brk w q v
  | jmp f => exact jmp f
  | jsr rs a => exact jsr rs a
  | nop n => exact nop n
  | rti rs => exact rti rs
  | rts rs => exact rts rs
  | cbt f b => exact bitop .cbt f b
  | sbt f b => exact bitop .sbt f b
  | tbt f b => exact bitop .tbt f b
  | xbt f b => exact bitop .xbt f b
  | ldr sz f => exact ldr sz f
  | mov sz row rd rs => exact mov sz row rd rs
  | psh sz rd rs => exact psh sz rd rs
  | pul sz rd rs => exact pul sz rd rs
  | str sz rd m => exact str sz rd m

/-! The meaning of each member of a family. -/

/-- The result function of a one-operand instruction. -/
def unaryFn : UnaryOp → Size → Word → Word
  | .abs => absValue
  | .dec nn => decValue nn
  | .ext => extValue
  | .inc nn => incValue nn
  | .neg => negValue
  | .not => notValue

/-- The result function of a two-operand instruction. -/
def aluFn : AluOp → AluFn
  | .adc => adcFn
  | .add => addFn
  | .and => andFn
  | .bic => bicFn
  | .eor => eorFn
  | .ora => oraFn
  | .sbc => sbcFn
  | .sub => subFn

/-- The one-bit step of a shift or rotate. -/
def shiftStep : ShiftOp → OpenStep
  | .asl => aslStep
  | .asr => asrStep
  | .esl => Config.eslStep
  | .lsr => lsrStep
  | .rlb => Config.rlbStep
  | .rol => rolStep
  | .ror => rorStep
  | .rrb => Config.rrbStep

/-- What a bit instruction makes of its operand and the mask; TBT makes nothing of it. -/
def bitFn : BitOp → Word → Word → Word
  | .cbt => fun v mask => v &&& ~~~ mask
  | .sbt => fun v mask => v ||| mask
  | .tbt => fun v _ => v
  | .xbt => fun v mask => v ^^^ mask

theorem exec_unary (op : UnaryOp) (sz : Size) (f : UnaryForm) (s : State) :
    exec (.unary op sz f) s = unaryMeaning (unaryFn op) sz f s := by cases op <;> rfl

theorem exec_alu (op : AluOp) (sz : Size) (f : AluForm) (s : State) :
    exec (.alu op sz f) s = aluMeaning (aluFn op) sz f s := by cases op <;> rfl

/-- A shift whose step is missing is refused; every other runs its step. -/
theorem exec_shift (op : ShiftOp) (sz : Size) (f : ShiftForm) (s : State) :
    exec (.shift op sz f) s
      = (stepMissing s op).elim (shiftMeaning (shiftStep op) sz f s) Host.Outcome.refused := by
  cases op with
  | esl => show openMeaning _ _ _ _ _ _ = _; unfold openMeaning stepMissing; split <;> rfl
  | rlb => show openMeaning _ _ _ _ _ _ = _; unfold openMeaning stepMissing; split <;> rfl
  | rrb => show openMeaning _ _ _ _ _ _ = _; unfold openMeaning stepMissing; split <;> rfl
  | _ => rfl

theorem exec_shift_of_supplied {op : ShiftOp} {s : State} (h : stepMissing s op = none) (sz : Size) (f : ShiftForm) :
    exec (.shift op sz f) s = shiftMeaning (shiftStep op) sz f s := by rw [exec_shift, h]; rfl

theorem exec_branch (c : Cond) (f : BranchForm) (s : State) : exec (.branch c f) s = branchMeaning c f s := by
  cases c <;> rfl

theorem exec_bitop {op : BitOp} (h : op ≠ .tbt) (f : BitForm) (b : BitVec 5) (s : State) :
    exec (.bitop op f b) s = bitMeaning (bitFn op) f b s := by
  cases op with
  | tbt => exact absurd rfl h
  | _ => rfl

/-! Computations that answer, and computations that refuse. -/

theorem bind_eq_ok {α β : Type} {x : Except Refusal α} {f : α → Except Refusal β} {b : β} :
    (x >>= f) = .ok b ↔ ∃ a, x = .ok a ∧ f a = .ok b := by
  cases x <;> simp [bind, Except.bind]

theorem bind_eq_error {α β : Type} {x : Except Refusal α} {f : α → Except Refusal β} {r : Refusal} :
    (x >>= f) = .error r ↔ x = .error r ∨ ∃ a, x = .ok a ∧ f a = .error r := by
  cases x <;> simp [bind, Except.bind]

@[simp] theorem ok_bind {α β : Type} (a : α) (f : α → Except Refusal β) : ((.ok a : Except Refusal α) >>= f) = f a := rfl

theorem outcome_ne_fault (x : Except Refusal State) (f : Fault) : outcome x ≠ .fault f := by
  cases x <;> simp [outcome]

/-! What each family may write (10_state R21, R30; 20_memory R46, R48). -/

/-- The register a one-operand instruction writes. -/
def unaryDest : UnaryForm → List Reg
  | .reg rd => [rd]
  | .mem _ => []

/-- The register CBT, SBT and XBT write. -/
def bitDest : BitForm → List Reg
  | .reg rd => [rd]
  | .mem _ _ => []

@[simp] theorem regsWritten_unary (op : UnaryOp) (sz : Size) (f : UnaryForm) :
    regsWritten (.unary op sz f) = unaryDest f := by cases op <;> cases f <;> rfl
@[simp] theorem flagsWritten_unary (op : UnaryOp) (sz : Size) (f : UnaryForm) :
    flagsWritten (.unary op sz f) = [Params.flagN, Params.flagZ] := by cases op <;> rfl
@[simp] theorem storedBytes_unary (s : State) (op : UnaryOp) (sz : Size) (f : UnaryForm) :
    storedBytes s (.unary op sz f) = unaryBytes s sz f := by cases op <;> rfl

/-- The flags a two-operand instruction writes. -/
def aluFlags : AluOp → List Nat
  | .adc | .add | .sbc | .sub => [Params.flagN, Params.flagZ, Params.flagC, Params.flagV]
  | _ => [Params.flagN, Params.flagZ]

@[simp] theorem regsWritten_alu (op : AluOp) (sz : Size) (f : AluForm) :
    regsWritten (.alu op sz f) = [aluDest f] := by cases op <;> rfl
@[simp] theorem flagsWritten_alu (op : AluOp) (sz : Size) (f : AluForm) :
    flagsWritten (.alu op sz f) = aluFlags op := by cases op <;> rfl
@[simp] theorem storedBytes_alu (s : State) (op : AluOp) (sz : Size) (f : AluForm) :
    storedBytes s (.alu op sz f) = [] := by cases op <;> rfl

@[simp] theorem regsWritten_shift (op : ShiftOp) (sz : Size) (f : ShiftForm) :
    regsWritten (.shift op sz f) = (shiftDest f).toList := by cases op <;> rfl
@[simp] theorem flagsWritten_shift (op : ShiftOp) (sz : Size) (f : ShiftForm) :
    flagsWritten (.shift op sz f) = [Params.flagN, Params.flagZ, Params.flagC] := by cases op <;> rfl
@[simp] theorem storedBytes_shift (s : State) (op : ShiftOp) (sz : Size) (f : ShiftForm) :
    storedBytes s (.shift op sz f) = shiftBytes s sz f := by cases op <;> rfl

@[simp] theorem regsWritten_branch (c : Cond) (f : BranchForm) :
    regsWritten (.branch c f) = if f.link then [.sp] else [] := by cases c <;> rfl
@[simp] theorem flagsWritten_branch (c : Cond) (f : BranchForm) : flagsWritten (.branch c f) = [] := by
  cases c <;> rfl
@[simp] theorem storedBytes_branch (s : State) (c : Cond) (f : BranchForm) :
    storedBytes s (.branch c f) = linkBytes s c f := by cases c <;> rfl

theorem regsWritten_bitop {op : BitOp} (h : op ≠ .tbt) (f : BitForm) (b : BitVec 5) :
    regsWritten (.bitop op f b) = bitDest f := by
  cases op with
  | tbt => exact absurd rfl h
  | _ => cases f <;> rfl
theorem flagsWritten_bitop {op : BitOp} (h : op ≠ .tbt) (f : BitForm) (b : BitVec 5) :
    flagsWritten (.bitop op f b) = [] := by
  cases op with
  | tbt => exact absurd rfl h
  | _ => rfl
theorem storedBytes_bitop {op : BitOp} (h : op ≠ .tbt) (s : State) (f : BitForm) (b : BitVec 5) :
    storedBytes s (.bitop op f b) = bitBytes s f := by
  cases op with
  | tbt => exact absurd rfl h
  | _ => rfl

end Sys2Proof.FamilyFacts
end

section
/-! PROOFS. What an instruction leaves unchanged: one frame for every instruction, put together from the frames of the
state's updates, and the statements about the whole machine that follow from it. -/

namespace Sys2Proof.FrameFacts

open Sys2Proof.Machine Sys2Proof.FamilyFacts

/-! Frames, and the updates that keep them. -/

/-- From `s` to `t` nothing is written but P, the registers `R`, of P the bits `F` where it is not among `R`, and the
pieces of memory `B`; what is written is neither text nor outside the launch memory, and leaves memory in its canonical
form. -/
structure Frame (R : List Reg) (F : List Nat) (B : List (Addr × Nat)) (s t : State) : Prop where
  regs : RegsExcept (.p :: R) s t
  bits : .p ∉ R → PBitsExcept F s t
  mem : ∀ x : Addr, (∀ b ∈ B, ¬ InBytes b.1 b.2 x) → t.byte x = s.byte x
  launch : SameLaunch s t
  text : ∀ x : Addr, inRegions s.text x = true ∨ inRegions s.mapped x = false → t.byte x = s.byte x
  inv : s.Inv → t.Inv

section
variable {R : List Reg} {F : List Nat} {B : List (Addr × Nat)} {s t u : State}

theorem Frame.refl (s : State) : Frame R F B s s where
  regs _ _ := rfl
  bits _ _ _ _ := rfl
  mem _ _ := rfl
  launch := ⟨rfl, rfl, rfl, rfl⟩
  text _ _ := rfl
  inv hs := hs

theorem Frame.trans (h : Frame R F B s t) (h' : Frame R F B t u) : Frame R F B s u where
  regs r hr := (h'.regs r hr).trans (h.regs r hr)
  bits hp i hi hF := (h'.bits hp i hi hF).trans (h.bits hp i hi hF)
  mem x hx := (h'.mem x hx).trans (h.mem x hx)
  launch := by
    obtain ⟨hm, ht, hh, hs⟩ := h.launch
    obtain ⟨hm', ht', hh', hs'⟩ := h'.launch
    exact ⟨hm'.trans hm, ht'.trans ht, hh'.trans hh, hs'.trans hs⟩
  text x hx := by
    obtain ⟨hm, ht, -, -⟩ := h.launch
    exact (h'.text x (by rwa [hm, ht])).trans (h.text x hx)
  inv hs := h'.inv (h.inv hs)

theorem Frame.setReg {r : Reg} (v : Word) (hr : r ∈ R) : Frame R F B s (s.setReg r v) where
  regs q hq := by
    rw [State.reg_setReg, if_neg]
    rintro rfl
    exact hq (List.mem_cons_of_mem _ hr)
  bits hp i _ _ := by
    rw [State.reg_setReg, if_neg]
    rintro rfl
    exact hp hr
  mem _ _ := rfl
  launch := ⟨rfl, rfl, rfl, rfl⟩
  text _ _ := rfl
  inv hs := hs

theorem Frame.setPc (a : Addr) : Frame R F B s (s.setPc a) where
  regs _ _ := rfl
  bits _ _ _ _ := rfl
  mem _ _ := rfl
  launch := ⟨rfl, rfl, rfl, rfl⟩
  text _ _ := rfl
  inv hs := hs

theorem Frame.draw : Frame R F B s s.draw where
  regs _ _ := rfl
  bits _ _ _ _ := rfl
  mem _ _ := rfl
  launch := ⟨rfl, rfl, rfl, rfl⟩
  text _ _ := rfl
  inv hs := hs

theorem Frame.writeReg {r : Reg} (sz : Size) (v : Word) (hr : r ∈ R) : Frame R F B s (s.writeReg r sz v) := by
  cases sz with
  | l => exact Frame.setReg v hr
  | b | w => exact (Frame.setReg _ hr).trans Frame.draw

theorem Frame.setFlag {i : Nat} (b : Bool) (hi : i < 32) (hF : i ∈ F) : Frame R F B s (s.setFlag i b) where
  regs r hr := State.reg_setFlag_ne s i b fun e => hr (e ▸ List.mem_cons_self)
  bits _ j _ hj := by
    rw [State.getLsbD_p_setFlag s i j b hi, if_neg]
    rintro rfl
    exact hj hF
  mem _ _ := rfl
  launch := ⟨rfl, rfl, rfl, rfl⟩
  text _ _ := rfl
  inv hs := hs

theorem Frame.setNZ (v : Word) (sz : Size) (hN : Params.flagN ∈ F) (hZ : Params.flagZ ∈ F) :
    Frame R F B s (s.setNZ v sz) := (Frame.setFlag _ (by decide) hN).trans (Frame.setFlag _ (by decide) hZ)

theorem Frame.setCV (c v : Bool) (hC : Params.flagC ∈ F) (hV : Params.flagV ∈ F) : Frame R F B s (s.setCV c v) :=
  (Frame.setFlag _ (by decide) hC).trans (Frame.setFlag _ (by decide) hV)

/-- The bytes of an access are those at an offset below its length. -/
theorem eq_add_of_inBytes {a x : Addr} {n : Nat} (h : InBytes a n x) : ∃ k < n, x = a + BitVec.ofNat 32 k :=
  ⟨(x - a).toNat, h, by rw [BitVec.ofNat_toNat, BitVec.setWidth_eq, BitVec.add_comm, BitVec.sub_add_cancel]⟩

/-- A byte of a writable access is mapped, and is not text. -/
theorem byte_of_writable {a x : Addr} {sz : Size} (hw : Writable s a sz) (hx : InBytes a sz.bytes x) :
    inRegions s.mapped x = true ∧ inRegions s.text x = false := by
  obtain ⟨k, hk, rfl⟩ := eq_add_of_inBytes hx
  exact ⟨hw.1.2 k hk, hw.2 k hk⟩

theorem Frame.poke {a : Addr} {sz : Size} (v : Word) (hw : Writable s a sz)
    (hB : ∀ x, InBytes a sz.bytes x → ∃ b ∈ B, InBytes b.1 b.2 x) : Frame R F B s (s.poke a sz v) where
  regs _ _ := rfl
  bits _ _ _ _ := rfl
  mem x hx := State.byte_poke_of_not_inBytes s a x sz v fun hin => by
    obtain ⟨b, hb, hbx⟩ := hB x hin
    exact hx b hb hbx
  launch := ⟨rfl, rfl, rfl, rfl⟩
  text x hx := State.byte_poke_of_not_inBytes s a x sz v fun hin => by
    obtain ⟨hm, ht⟩ := byte_of_writable hw hin
    rw [hm, ht] at hx
    simp at hx
  inv hs := State.inv_poke hs a sz v

/-- A piece of memory that is one of the pieces. -/
theorem covered_of_mem {a : Addr} {n : Nat} (h : (a, n) ∈ B) (x : Addr) (hx : InBytes a n x) :
    ∃ b ∈ B, InBytes b.1 b.2 x := ⟨_, h, hx⟩

theorem Frame.push {r : Reg} {sz : Size} {v : Word} (h : s.push r sz v = .ok t) (hr : r ∈ R)
    (hB : ∀ x, InBytes (pushAddr (s.reg r) sz) sz.bytes x → ∃ b ∈ B, InBytes b.1 b.2 x) : Frame R F B s t := by
  obtain ⟨hw, rfl⟩ := State.push_ok h
  exact (Frame.poke v hw hB).trans (Frame.setReg _ hr)

theorem Frame.pull {r : Reg} {sz : Size} {v : Word} (h : s.pull r sz = .ok (v, t)) (hr : r ∈ R) : Frame R F B s t := by
  obtain ⟨-, -, rfl⟩ := State.pull_ok h
  exact Frame.setReg _ hr

theorem Frame.putCV (cv : Option (Bool × Bool)) (h : cv ≠ none → Params.flagC ∈ F ∧ Params.flagV ∈ F) :
    Frame R F B s (s.putCV cv) := by
  cases cv with
  | none => exact Frame.refl s
  | some x => exact Frame.setCV x.1 x.2 (h (by simp)).1 (h (by simp)).2

theorem Frame.shiftFlags (v : Word) (c : Bool) (sz : Size) (hN : Params.flagN ∈ F) (hZ : Params.flagZ ∈ F)
    (hC : Params.flagC ∈ F) : Frame R F B s (s.shiftFlags v c sz) :=
  (Frame.setFlag c (by decide) hC).trans (Frame.setNZ v sz hN hZ)

/-! What a frame says of each part of the state. -/

/-- A frame that writes no flag says of P what it says of any register. -/
theorem Frame.regsExcept_of_no_flags (h : Frame R [] B s t) : RegsExcept R s t := by
  intro r hr
  by_cases hp : r = .p
  · subst hp
    exact BitVec.eq_of_getLsbD_eq fun i hi => h.bits hr i hi (by simp)
  · exact h.regs r (by simp [hp, hr])

theorem Frame.memSame (h : Frame R F [] s t) : MemSame s t := fun x => h.mem x (by simp)

theorem Frame.memExcept {a : Addr} {n : Nat} (h : Frame R F [(a, n)] s t) : MemExcept a n s t := fun x hx =>
  h.mem x (by simpa using hx)

/-- A list of registers matters only through its members. -/
theorem regsExcept_mono {l l' : List Reg} (h : RegsExcept l s t) (hl : l ⊆ l') : RegsExcept l' s t := fun r hr =>
  h r fun hm => hr (hl hm)

end

/-! The frame of each shared meaning. -/

section
variable {s t : State}

theorem frame_unary {fn : Size → Word → Word} {sz : Size} {f : UnaryForm} (h : unaryMeaning fn sz f s = .next t) :
    Frame (unaryDest f) [Params.flagN, Params.flagZ] (unaryBytes s sz f) s t := by
  cases f with
  | reg rd =>
    cases h
    exact (Frame.writeReg sz _ (by simp [unaryDest])).trans
      ((Frame.setNZ _ sz (by simp) (by simp)).trans (Frame.setPc _))
  | mem m =>
    obtain ⟨ea, he, hw, rfl⟩ := unaryMeaning_mem_next h
    exact (Frame.poke _ hw (covered_of_mem (by simp [unaryBytes, he, bytesAt]))).trans
      ((Frame.setNZ _ sz (by simp) (by simp)).trans (Frame.setPc _))

/-- The operations that answer a carry and an overflow are those that list C and V. -/
theorem aluFn_cv (op : AluOp) (sz : Size) (a b : Word) (c : Bool) (h : (aluFn op sz a b c).cv ≠ none) :
    Params.flagC ∈ aluFlags op ∧ Params.flagV ∈ aluFlags op := by
  cases op with
  | and | bic | eor | ora => exact absurd rfl h
  | adc | add | sbc | sub => exact ⟨by decide, by decide⟩

theorem frame_alu {op : AluOp} {sz : Size} {f : AluForm} (h : aluMeaning (aluFn op) sz f s = .next t) :
    Frame [aluDest f] (aluFlags op) [] s t := by
  obtain ⟨b, -, rfl⟩ := aluMeaning_next h
  exact (Frame.writeReg sz _ (by simp)).trans ((Frame.putCV _ (aluFn_cv op sz _ b _)).trans
    ((Frame.setNZ _ sz (by cases op <;> decide) (by cases op <;> decide)).trans (Frame.setPc _)))

theorem frame_bit {sz : Size} {f : TestForm} (h : execBit sz f s = .next t) :
    Frame [] [Params.flagN, Params.flagZ, Params.flagV] [] s t := by
  obtain ⟨b, -, h⟩ := bind_eq_ok.mp (outcome_eq_next.mp h)
  cases h
  exact (Frame.setFlag _ (by decide) (by simp)).trans ((Frame.setFlag _ (by decide) (by simp)).trans
    ((Frame.setFlag _ (by decide) (by simp)).trans (Frame.setPc _)))

theorem frame_shift {step : OpenStep} {sz : Size} {f : ShiftForm} (h : shiftMeaning step sz f s = .next t) :
    Frame (shiftDest f).toList [Params.flagN, Params.flagZ, Params.flagC] (shiftBytes s sz f) s t := by
  have onReg {rd : Reg} {k : Nat} {next : Addr} (hr : s.shiftReg step sz rd k next = .ok t) :
      Frame [rd] [Params.flagN, Params.flagZ, Params.flagC] [] s t := by
    obtain ⟨r, c, -, -, -, rfl⟩ := State.shiftReg_ok hr
    exact (Frame.writeReg sz r (by simp)).trans
      ((Frame.shiftFlags r c sz (by simp) (by simp) (by simp)).trans (Frame.setPc _))
  cases f with
  | one rd => exact onReg (outcome_eq_next.mp h)
  | imm rd count => exact onReg (outcome_eq_next.mp h)
  | reg rd rs => exact onReg (outcome_eq_next.mp h)
  | mem m nn =>
    obtain ⟨ea, r, c, he, hw, -, rfl⟩ := shiftMeaning_mem_next h
    exact (Frame.poke r hw (covered_of_mem (by simp [shiftBytes, he, bytesAt]))).trans
      ((Frame.shiftFlags r c sz (by simp) (by simp) (by simp)).trans (Frame.setPc _))

theorem frame_branch {c : Cond} {f : BranchForm} (h : branchMeaning c f s = .next t) :
    Frame (if f.link then [.sp] else []) [] (linkBytes s c f) s t := by
  rcases branchMeaning_next h with ⟨-, rfl⟩ | ⟨hc, u, target, hu, -, rfl⟩
  · exact Frame.setPc _
  · refine Frame.trans ?link (Frame.setPc target)
    cases hl : f.link with
    | false =>
      rw [hl] at hu
      cases hu
      exact Frame.refl s
    | true =>
      rw [hl] at hu
      exact Frame.push hu (by simp) (covered_of_mem (by simp [linkBytes, pushBytes, hc, hl]))

theorem frame_bitop {fn : Word → Word → Word} {f : BitForm} {b : BitVec 5} (h : bitMeaning fn f b s = .next t) :
    Frame (bitDest f) [] (bitBytes s f) s t := by
  cases f with
  | reg rd =>
    cases h
    exact (Frame.setReg _ (by simp [bitDest])).trans (Frame.setPc _)
  | mem a ri =>
    obtain ⟨hw, rfl⟩ := bitMeaning_mem_next h
    exact (Frame.poke _ hw (covered_of_mem (by simp [bitBytes]))).trans (Frame.setPc _)

theorem frame_tbt {f : BitForm} {b : BitVec 5} (h : execTbt f b s = .next t) : Frame [] [Params.flagZ] [] s t := by
  obtain ⟨v, -, h⟩ := bind_eq_ok.mp (outcome_eq_next.mp h)
  cases h
  exact (Frame.setFlag _ (by decide) (by simp)).trans (Frame.setPc _)

/-! The instructions that stand alone. -/

theorem stackReg_eq_ok {rs : Index} {r : Reg} (h : stackReg rs = .ok r) : rs = .reg r := by
  cases rs <;> cases h
  rfl

/-- The two pushes of a trap store into the eight bytes that end at SP. -/
theorem inBytes_trap {sp x : Word} (h : InBytes (sp - 3) 4 x ∨ InBytes (sp - 7) 4 x) : InBytes (sp - 7) 8 x := by
  unfold InBytes at *
  bv_omega

theorem frame_brk {w : Bool} (q : BitVec 3) {v : BitVec 4} (h : execBrk w q v s = .next t) :
    Frame [.sp] [] [(s.reg .sp - 7, 8)] s t := by
  unfold execBrk at h
  split at h
  · cases h
  · obtain ⟨s1, s2, h1, h2, -, rfl⟩ := State.trap_ok (outcome_eq_next.mp h)
    have hsp : s1.reg .sp = s.reg .sp - 4 := by
      obtain ⟨-, rfl⟩ := State.push_ok h1
      simp
    refine (Frame.push h1 (by simp) fun x hx => ?first).trans
      ((Frame.push h2 (by simp) fun x hx => ?second).trans (Frame.setPc _))
    case first =>
      rw [pushAddr_l] at hx
      exact ⟨_, List.mem_singleton.mpr rfl, inBytes_trap (.inl hx)⟩
    case second =>
      rw [pushAddr_l, hsp, show s.reg .sp - 4 - 3 = s.reg .sp - 7 by bv_omega] at hx
      exact ⟨_, List.mem_singleton.mpr rfl, inBytes_trap (.inr hx)⟩

theorem frame_jmp {f : JumpForm} (h : execJmp f s = .next t) : Frame [] [] [] s t := by
  cases f with
  | direct a =>
    cases h
    exact Frame.setPc a
  | indirect a =>
    obtain ⟨target, -, h⟩ := bind_eq_ok.mp (outcome_eq_next.mp h)
    cases h
    exact Frame.setPc target

theorem frame_jsr {rs : Index} {a : Word} (h : execJsr rs a s = .next t) :
    Frame (stackRegs rs) [] (pushBytes s .l rs) s t := by
  obtain ⟨r, hr, hx⟩ := bind_eq_ok.mp (outcome_eq_next.mp h)
  obtain rfl := stackReg_eq_ok hr
  obtain ⟨u, hu, hx⟩ := bind_eq_ok.mp hx
  cases hx
  exact (Frame.push hu (by simp [stackRegs]) (covered_of_mem (by simp [pushBytes]))).trans (Frame.setPc a)

theorem frame_rti {rs : Index} (h : execRti rs s = .next t) : Frame (.p :: stackRegs rs) [] [] s t := by
  obtain ⟨r, hr, hx⟩ := bind_eq_ok.mp (outcome_eq_next.mp h)
  obtain rfl := stackReg_eq_ok hr
  obtain ⟨v, s1, a, s2, h1, h2, rfl⟩ := State.trapReturn_ok hx
  exact (Frame.pull h1 (by simp [stackRegs])).trans ((Frame.setReg v (by simp)).trans
    ((Frame.pull h2 (by simp [stackRegs])).trans (Frame.setPc a)))

theorem frame_rts {rs : Index} (h : execRts rs s = .next t) : Frame (stackRegs rs) [] [] s t := by
  obtain ⟨r, hr, hx⟩ := bind_eq_ok.mp (outcome_eq_next.mp h)
  obtain rfl := stackReg_eq_ok hr
  obtain ⟨⟨a, u⟩, hu, hx⟩ := bind_eq_ok.mp hx
  cases hx
  exact (Frame.pull hu (by simp [stackRegs])).trans (Frame.setPc a)

theorem frame_ldr {sz : Size} {f : LoadForm} (h : execLdr sz f s = .next t) :
    Frame [loadDest f] [Params.flagN, Params.flagZ] [] s t := by
  obtain ⟨v, -, h⟩ := bind_eq_ok.mp (outcome_eq_next.mp h)
  cases h
  exact (Frame.writeReg sz v (by simp)).trans ((Frame.setNZ v sz (by simp) (by simp)).trans (Frame.setPc _))

theorem frame_mov {sz : Size} (row : MovRow) {rd rs : Reg} (h : execMov sz row rd rs s = .next t) :
    Frame [rd] [Params.flagN, Params.flagZ, Params.flagC, Params.flagV] [] s t := by
  cases h
  refine Frame.trans ?_ (Frame.setPc _)
  split
  · exact Frame.writeReg sz _ (by simp)
  · exact (Frame.writeReg sz _ (by simp)).trans ((Frame.setNZ _ sz (by simp) (by simp)).trans
      ((Frame.setCV _ _ (by simp) (by simp)).trans (Frame.draw.trans Frame.draw)))

theorem frame_psh {sz : Size} {rd : Slot} {rs : Index} (h : execPsh sz rd rs s = .next t) :
    Frame (stackRegs rs) [Params.flagN, Params.flagZ] (pushBytes s sz rs) s t := by
  obtain ⟨r, hr, hx⟩ := bind_eq_ok.mp (outcome_eq_next.mp h)
  obtain rfl := stackReg_eq_ok hr
  obtain ⟨u, hu, hx⟩ := bind_eq_ok.mp hx
  cases hx
  exact (Frame.push hu (by simp [stackRegs]) (covered_of_mem (by simp [pushBytes]))).trans
    ((Frame.setNZ _ sz (by simp) (by simp)).trans (Frame.setPc _))

theorem frame_pul {sz : Size} {rd : Slot} {rs : Index} (h : execPul sz rd rs s = .next t) :
    Frame (regsWritten (.pul sz rd rs)) [Params.flagN, Params.flagZ] [] s t := by
  obtain ⟨r, hr, hx⟩ := bind_eq_ok.mp (outcome_eq_next.mp h)
  obtain rfl := stackReg_eq_ok hr
  obtain ⟨⟨v, u⟩, hu, hx⟩ := bind_eq_ok.mp hx
  have pulled {R : List Reg} (hR : r ∈ R) : Frame R [Params.flagN, Params.flagZ] [] s u := Frame.pull hu hR
  dsimp only at hx
  split at hx <;> cases hx
  · exact (pulled (by simp [regsWritten, stackRegs])).trans
      ((Frame.setNZ v sz (by simp) (by simp)).trans (Frame.setPc v))
  · exact (pulled (by simp [regsWritten, stackRegs])).trans
      ((Frame.writeReg sz v (by simp [regsWritten])).trans (Frame.setPc _))
  · exact (pulled (by simp [regsWritten, stackRegs])).trans ((Frame.writeReg sz v (by simp [regsWritten])).trans
      ((Frame.setNZ v sz (by simp) (by simp)).trans (Frame.setPc _)))

theorem frame_str {sz : Size} {rd : Reg} {m : MemOp} (h : execStr sz rd m s = .next t) :
    Frame [] [Params.flagN, Params.flagZ] (bytesAt (s.effAddr (s.nextPc (1 + m.words)) m) sz) s t := by
  obtain ⟨ea, he, h⟩ := bind_eq_ok.mp (outcome_eq_next.mp h)
  obtain ⟨u, hu, h⟩ := bind_eq_ok.mp h
  obtain ⟨hw, rfl⟩ := State.store_ok hu
  cases h
  exact (Frame.poke _ hw (covered_of_mem (by simp [he, bytesAt]))).trans
    ((Frame.setNZ _ sz (by simp) (by simp)).trans (Frame.setPc _))

/-- Every instruction writes what the lists of the spec say, and nothing else. -/
theorem exec_frame {i : Instr} (h : exec i s = .next t) :
    Frame (regsWritten i) (flagsWritten i) (storedBytes s i) s t := by
  induction i using instr_cases with
  | unary op sz f =>
    rw [exec_unary] at h
    simpa using frame_unary h
  | alu op sz f =>
    rw [exec_alu] at h
    simpa using frame_alu h
  | bit sz f => exact frame_bit h
  | shift op sz f =>
    rw [exec_shift] at h
    cases hm : stepMissing s op with
    | some r => rw [hm] at h; cases h
    | none =>
      rw [hm] at h
      simpa using frame_shift h
  | branch c f =>
    rw [exec_branch] at h
    simpa using frame_branch h
  | brk w q v => exact frame_brk q h
  | jmp f => exact frame_jmp h
  | jsr rs a => exact frame_jsr h
  | nop n => cases h; exact Frame.setPc _
  | rti rs => exact frame_rti h
  | rts rs => exact frame_rts h
  | bitop op f b =>
    by_cases hop : op = .tbt
    · subst hop
      exact frame_tbt h
    · rw [exec_bitop hop] at h
      rw [regsWritten_bitop hop, flagsWritten_bitop hop, storedBytes_bitop hop]
      exact frame_bitop h
  | ldr sz f => exact frame_ldr h
  | mov sz row rd rs => exact frame_mov row h
  | psh sz rd rs => exact frame_psh h
  | pul sz rd rs => exact frame_pul h
  | str sz rd m => exact frame_str h

/-- A step that answers a next state executed an instruction. -/
theorem exec_of_step (h : step s = .next t) : ∃ i, s.nextInstr = .ok i ∧ exec i s = .next t := by
  unfold step at h
  split at h
  · cases h
  · split at h
    next i hi => exact ⟨i, hi, h⟩
    next => cases h

end

/-! The statements about the whole machine. -/

/-- Settles O20, by the frame of the instruction that the step executes. -/
theorem stepKeepsMemoryForm : Obligations.StepKeepsMemoryForm := by
  intro s t hs h
  obtain ⟨i, -, hi⟩ := exec_of_step h
  exact (exec_frame hi).inv hs

/-- Settles O21: an empty memory lists nothing out of order. -/
theorem resetMemoryForm : Obligations.ResetMemoryForm := State.reset_mem_wf

/-- Settles O22, by the frame of the instruction that the step executes: every store it makes is writable. -/
theorem stepKeepsText : Obligations.StepKeepsText := by
  intro s t h
  obtain ⟨i, -, hi⟩ := exec_of_step h
  exact ⟨(exec_frame hi).launch, (exec_frame hi).text⟩

/-- Settles O23, by the frame of the instruction. -/
theorem registerFrame : Obligations.RegisterFrame := fun _ _ _ h => (exec_frame h).regs

/-- Settles O24, by the frame of the instruction. -/
theorem flagFrame : Obligations.FlagFrame := fun _ _ _ h => (exec_frame h).bits

/-- Settles O25, by the frame of the instruction. -/
theorem memoryFrame : Obligations.MemoryFrame := fun _ _ _ x h => (exec_frame h).mem x

end Sys2Proof.FrameFacts
end

section
/-! PROOFS. The encoder and the decoder undo one another (30_encoding sections 1 to 6): what is encoded is read back,
family by family, and what is read is what the encoder writes, row by row. -/

namespace Sys2Proof.CodecFacts

open Sys2Proof.EncodingFacts
open Sys2Proof.FamilyFacts (instr_cases)

/-! Each family has one encoder. -/

/-- Bits 15 and 14:13 of a one-operand instruction (30_encoding R72, 40_unary R113, R115). -/
def unaryBits : UnaryOp → Nat × Nat
  | .abs => (1, 1)
  | .dec nn => (0, nn.toNat)
  | .ext => (1, 2)
  | .inc nn => (0, nn.toNat)
  | .neg => (1, 0)
  | .not => (1, 3)

/-- The low bytes of a one-operand instruction: INC has its own (40_unary R110). -/
def unaryShape : UnaryOp → UnaryRow → Shape
  | .inc _ => .inc
  | _ => .unary

theorem encode_unary (op : UnaryOp) (sz : Size) (f : UnaryForm) :
    encode (.unary op sz f) = encodeUnary (unaryBits op).1 (unaryBits op).2 (unaryShape op) sz f := by
  cases op <;> rfl
theorem encode_alu (op : AluOp) (sz : Size) (f : AluForm) : encode (.alu op sz f) = encodeAlu op sz f := by
  cases op <;> rfl
theorem encode_shift (op : ShiftOp) (sz : Size) (f : ShiftForm) : encode (.shift op sz f) = encodeShift op sz f := by
  cases op <;> rfl
theorem encode_branch (c : Cond) (f : BranchForm) : encode (.branch c f) = encodeBranch c f := by cases c <;> rfl
theorem encode_bitop (op : BitOp) (f : BitForm) (b : BitVec 5) : encode (.bitop op f b) = encodeBit op f b := by
  cases op <;> rfl

theorem wf_unary (op : UnaryOp) (sz : Size) (f : UnaryForm) : (Instr.unary op sz f).wf = f.wf := by cases op <;> rfl
theorem wf_alu (op : AluOp) (sz : Size) (f : AluForm) : (Instr.alu op sz f).wf = f.wf sz := by cases op <;> rfl
theorem wf_shift (op : ShiftOp) (sz : Size) (f : ShiftForm) : (Instr.shift op sz f).wf = f.wf := by cases op <;> rfl
theorem wf_branch (c : Cond) (f : BranchForm) : (Instr.branch c f).wf = f.wf := by cases c <;> rfl
theorem wf_bitop (op : BitOp) (f : BitForm) (b : BitVec 5) : (Instr.bitop op f b).wf = f.wf := by cases op <;> rfl

theorem unaryBits_lt (op : UnaryOp) : (unaryBits op).1 < 2 ∧ (unaryBits op).2 < 4 := by
  cases op with
  | dec nn | inc nn => exact ⟨by simp [unaryBits], nn.isLt⟩
  | _ => decide

/-! Well-formed instructions have words. -/

theorem hasWords_encode {i : Instr} (h : i.wf = true) : Laws.HasWords (encode i) := by
  induction i using instr_cases with
  | unary op sz f =>
    rw [wf_unary] at h
    obtain ⟨h1, h2⟩ := unaryBits_lt op
    rw [encode_unary]
    cases op with
    | inc nn => exact Laws.inc_hasWords nn.toNat sz f h nn.isLt
    | _ => exact Laws.unary_hasWords_pair _ _ sz f h h1 h2
  | alu op sz f => rw [wf_alu] at h; rw [encode_alu]; exact Laws.alu_hasWords op sz f h
  | bit sz f => exact Laws.test_hasWords sz f h
  | shift op sz f => rw [wf_shift] at h; rw [encode_shift]; exact Laws.shift_hasWords op sz f h
  | branch c f => rw [wf_branch] at h; rw [encode_branch]; exact Laws.branch_hasWords c f h
  | brk w q v => exact Laws.Encoding.brk w q v h
  | jmp f => exact Laws.Encoding.jmp f h
  | jsr rs a => exact Laws.Encoding.jsr rs a h
  | nop n => exact Laws.Encoding.nop n h
  | rti rs => exact Laws.Encoding.rti rs h
  | rts rs => exact Laws.Encoding.rts rs h
  | bitop op f b => rw [wf_bitop] at h; rw [encode_bitop]; exact Laws.bit_hasWords op f b h
  | ldr sz f => exact Laws.load_hasWords sz f h
  | mov sz row rd rs => exact Laws.Encoding.mov sz row rd rs h
  | psh sz rd rs => exact Laws.Encoding.psh sz rd rs h
  | pul sz rd rs => exact Laws.Encoding.pul sz rd rs h
  | str sz rd m => exact Laws.Encoding.str sz rd m h

/-! Reading a name back from its code. -/

section
variable {α : Type} [DecidableEq α]

theorem must_of_codeOf {l : List (Option α)} {x : α} {k n : Nat} (h : codeOf l x = some k) (hn : n = k) :
    must (nameOf l n) = .ok x := by
  rw [hn, (nameOf_of_codeOf h).1]
  rfl

/-- A code is smaller than the length of its list. -/
theorem code_lt {l : List (Option α)} {x : α} {k n : Nat} (h : codeOf l x = some k) (hl : l.length = n) : k < n :=
  hl ▸ (nameOf_of_codeOf h).2

end

theorem length_group (g : Group) : g.list.length = 4 := by cases g <;> rfl
theorem length_mode (m : AddrMode) : m.list.length = 8 := by
  obtain l | l | _ | _ := m
  · cases l <;> rfl
  · cases l <;> rfl
  · rfl
  · rfl
theorem length_unaryList (l : UnaryList) : l.list.length = 8 := by cases l <;> rfl
theorem length_bitGroup (g : BitGroup) : g.list.length = 8 := by cases g <;> rfl
theorem length_slotList (l : SlotList) : l.list.length = 4 := by cases l <;> rfl
theorem length_movRd (row : MovRow) : row.rdList.length = 8 := by cases row <;> rfl
theorem length_movRs (row : MovRow) : row.rsList.length = 8 := by cases row <;> rfl
theorem length_aluPair (p : AluPair) : p.list.length = 2 := by cases p <;> rfl
theorem length_shiftPair (p : ShiftPair) : p.list.length = 2 := by cases p <;> rfl
theorem length_bitPair (p : BitPair) : p.list.length = 2 := by cases p <;> rfl

theorem lowByteOf_lt {sh : Shape} {lo : Nat} (h : lowByteOf sh = some lo) : lo < 256 := (shapeOf_of_lowByteOf h).2

/-- A first word is read by the row whose low byte it has. -/
theorem decode_of_lowByteOf {w : Half} {sh : Shape} {lo : Nat} (h : lowByteOf sh = some lo) (hw : field w 7 0 = lo)
    (ext : List Half) : decode (w :: ext) = decodeShape w sh ext :=
  decode_of_shapeOf (by rw [← field_lowByte, hw, (shapeOf_of_lowByteOf h).1]) ext

theorem sizeField_of_code {w : Half} {sz : Size} {dd : Nat} (h : codeOf listDD sz = some dd) (hw : field w 9 8 = dd) :
    sizeField w = .ok sz := must_of_codeOf h hw

theorem decodeMem_of_code {w : Half} {m : MemOp} {k : Nat} (h : m.indexCode = some k) (hw : field w 12 10 = k)
    (rest : List Half) : decodeMem w m.mode (m.ext ++ rest) = .ok (m, rest) := by
  rw [decodeMem, must_of_codeOf h hw]
  exact takeMem_ext m rest

theorem decodeImm_of_code {w : Half} {sz : Size} {rd : Reg} {v : Word} {k : Nat} (h : codeOf listAAAA rd = some k)
    (hw : field w 14 11 = k) (h10 : field w 10 10 = 0) (hv : immWf sz v = true) (rest : List Half) :
    decodeImm w sz (encodeImm sz v ++ rest) = .ok (rd, v, rest) := by
  rw [decodeImm, must_of_codeOf h hw, h10]
  simp only [demand, beq_self_eq_true, if_true, takeImm_encodeImm hv, bind, Except.bind]

theorem ok_bind {α β : Type} (a : α) (f : α → Except Reject β) : ((.ok a : Except Reject α) >>= f) = f a := rfl

theorem demand_true : demand true = .ok () := rfl

/-- A Format A word whose fields have names: what the word gives back. -/
theorem encodeA_eq_some {t : Nat} {g : Group} {rd : Reg} {f3 : Nat} {sz : Size} {sh : Shape} {w : Half}
    (h : encodeA t g rd f3 sz sh = some w) (ht : t < 2) (h3 : f3 < 8) :
    field w 15 15 = t ∧ must (nameOf g.list (field w 14 13)) = .ok rd ∧ field w 12 10 = f3 ∧ sizeField w = .ok sz ∧
      ∀ ext, decode (w :: ext) = decodeShape w sh ext := by
  simp only [encodeA, Option.bind_eq_bind, Option.bind_eq_some_iff, Option.some.injEq] at h
  obtain ⟨f2, h2, dd, hdd, lo, hlo, rfl⟩ := h
  obtain ⟨f15, f14, f12, f9, f7, -⟩ := fields_formatA ht (code_lt h2 (length_group g)) h3 (code_lt hdd rfl)
    (lowByteOf_lt hlo)
  exact ⟨f15, must_of_codeOf h2 f14, f12, sizeField_of_code hdd f9, decode_of_lowByteOf hlo f7⟩

/-! What is encoded is read back. -/

theorem decode_encodeUnary {op : UnaryOp} {sz : Size} {f : UnaryForm} {ws : List Half}
    (h : encodeUnary (unaryBits op).1 (unaryBits op).2 (unaryShape op) sz f = some ws) (rest : List Half) :
    decode (ws ++ rest) = .ok (.unary op sz f, rest) := by
  obtain ⟨ht, h2⟩ := unaryBits_lt op
  -- the row gives the operand, and bits 15:13 the operation
  have whole {w : Half} {row : UnaryRow} {dd lo : Nat} {ext : List Half} (hdd : codeOf listDD sz = some dd)
      (hlo : lowByteOf (unaryShape op row) = some lo) (h15 : field w 15 15 = (unaryBits op).1)
      (h14 : field w 14 13 = (unaryBits op).2) (h9 : field w 9 8 = dd) (h7 : field w 7 0 = lo)
      (hf : decodeUnary w row (ext ++ rest) = .ok (f, rest)) :
      decode (w :: ext ++ rest) = .ok (.unary op sz f, rest) := by
    rw [List.cons_append, decode_of_lowByteOf hlo h7]
    have hsz := sizeField_of_code hdd h9
    cases op <;> simp only [unaryShape, decodeShape, hsz, hf, h15, h14, unaryBits, ok_bind, beq_self_eq_true,
      demand_true, if_true, BitVec.ofNat_toNat, BitVec.setWidth_eq] <;> rfl
  cases f with
  | reg rd =>
    simp only [encodeUnary, Option.bind_eq_bind, Option.bind_eq_some_iff, Option.some.injEq] at h
    obtain ⟨dd, hdd, f3, hf3, lo, hlo, rfl⟩ := h
    obtain ⟨f15, f14, f12, f9, f7, -⟩ := fields_formatA ht h2 (code_lt hf3 (length_unaryList _)) (code_lt hdd rfl)
      (lowByteOf_lt hlo)
    refine whole hdd hlo f15 f14 f9 f7 (ext := []) ?_
    rw [decodeUnary, must_of_codeOf hf3 f12]
    rfl
  | mem m =>
    simp only [encodeUnary, Option.bind_eq_bind, Option.bind_eq_some_iff, Option.some.injEq] at h
    obtain ⟨dd, hdd, f3, hf3, lo, hlo, rfl⟩ := h
    obtain ⟨f15, f14, f12, f9, f7, -⟩ := fields_formatA ht h2 (code_lt hf3 (length_mode _)) (code_lt hdd rfl)
      (lowByteOf_lt hlo)
    refine whole hdd hlo f15 f14 f9 f7 ?_
    rw [decodeUnary, decodeMem_of_code hf3 f12]
    rfl

theorem decode_encodeAlu {op : AluOp} {sz : Size} {f : AluForm} {ws : List Half} (h : encodeAlu op sz f = some ws)
    (hf : f.wf sz = true) (rest : List Half) : decode (ws ++ rest) = .ok (.alu op sz f, rest) := by
  cases f <;> simp only [encodeAlu, Option.bind_eq_bind, Option.bind_eq_some_iff, Option.some.injEq] at h
  case reg rd rs =>
    obtain ⟨t, ht, g, hg, f3, h3, w, hw, rfl⟩ := h
    obtain ⟨f15, hrd, f12, hsz, hdec⟩ := encodeA_eq_some hw (code_lt ht (length_aluPair _)) (code_lt h3 rfl)
    rw [List.cons_append, hdec, decodeShape, decodeAlu, must_of_codeOf ht f15, hsz, ok_bind, ok_bind]
    dsimp only
    rw [hrd, must_of_codeOf h3 f12]
    rfl
  case imm rd v =>
    obtain ⟨t, ht, r, hr, dd, hdd, lo, hlo, rfl⟩ := h
    obtain ⟨f15, f14, f10, f9, f7⟩ := fields_formatB (code_lt ht (length_aluPair _)) (code_lt hr rfl)
      (code_lt hdd rfl) (lowByteOf_lt hlo)
    rw [AluForm.wf, Bool.and_eq_true] at hf
    rw [List.cons_append, decode_of_lowByteOf hlo f7, decodeShape, decodeAlu, must_of_codeOf ht f15,
      sizeField_of_code hdd f9, ok_bind, ok_bind]
    dsimp only
    rw [decodeImm_of_code hr f14 f10 hf.2]
    rfl
  case mem rd m =>
    obtain ⟨t, ht, g, hg, f3, h3, w, hw, rfl⟩ := h
    obtain ⟨f15, hrd, f12, hsz, hdec⟩ := encodeA_eq_some hw (code_lt ht (length_aluPair _))
      (code_lt h3 (length_mode _))
    rw [List.cons_append, hdec, decodeShape, decodeAlu, must_of_codeOf ht f15, hsz, ok_bind, ok_bind]
    dsimp only
    rw [hrd, decodeMem_of_code h3 f12]
    rfl

theorem decode_encodeTest {sz : Size} {f : TestForm} {ws : List Half} (h : encodeTest sz f = some ws)
    (rest : List Half) : decode (ws ++ rest) = .ok (.bit sz f, rest) := by
  cases f <;> simp only [encodeTest, Option.bind_eq_bind, Option.bind_eq_some_iff, Option.some.injEq] at h
  case reg rd rs =>
    obtain ⟨g, hg, f3, h3, w, hw, rfl⟩ := h
    obtain ⟨f15, hrd, f12, hsz, hdec⟩ := encodeA_eq_some hw (by decide) (code_lt h3 rfl)
    rw [List.cons_append, hdec, decodeShape, decodeTest, f15, hsz, beq_self_eq_true, demand_true, ok_bind, ok_bind]
    dsimp only
    rw [hrd, must_of_codeOf h3 f12]
    rfl
  case mem rd m =>
    obtain ⟨g, hg, f3, h3, w, hw, rfl⟩ := h
    obtain ⟨f15, hrd, f12, hsz, hdec⟩ := encodeA_eq_some hw (by decide) (code_lt h3 (length_mode _))
    rw [List.cons_append, hdec, decodeShape, decodeTest, f15, hsz, beq_self_eq_true, demand_true, ok_bind, ok_bind]
    dsimp only
    rw [hrd, decodeMem_of_code h3 f12]
    rfl

theorem decode_encodeShift {op : ShiftOp} {sz : Size} {f : ShiftForm} {ws : List Half}
    (h : encodeShift op sz f = some ws) (rest : List Half) : decode (ws ++ rest) = .ok (.shift op sz f, rest) := by
  -- bit 15 and the row give the operation, the rest of the word and what follows it the operand
  have whole {w : Half} {row : ShiftRow} {t dd lo : Nat} {ext : List Half} (ht : codeOf op.pair.list op = some t)
      (hdd : codeOf listDD sz = some dd) (hlo : lowByteOf (.shift op.pair row) = some lo) (h15 : field w 15 15 = t)
      (h9 : field w 9 8 = dd) (h7 : field w 7 0 = lo) (hf : decodeShift w row (ext ++ rest) = .ok (f, rest)) :
      decode (w :: ext ++ rest) = .ok (.shift op sz f, rest) := by
    rw [List.cons_append, decode_of_lowByteOf hlo h7, decodeShape, must_of_codeOf ht h15, sizeField_of_code hdd h9,
      hf]
    rfl
  cases f <;> simp only [encodeShift, Option.bind_eq_bind, Option.bind_eq_some_iff, Option.some.injEq] at h
  case one rd =>
    obtain ⟨t, ht, dd, hdd, r, hr, lo, hlo, rfl⟩ := h
    obtain ⟨f15, f14, f13, f9, f7⟩ := fields_formatC (m := 0) (code_lt ht (length_shiftPair _)) (by decide)
      (code_lt hr rfl) (code_lt hdd rfl) (lowByteOf_lt hlo)
    refine whole ht hdd hlo f15 f9 f7 (ext := []) ?_
    rw [decodeShift, f14, must_of_codeOf hr f13]
    rfl
  case imm rd count =>
    obtain ⟨t, ht, dd, hdd, r, hr, lo, hlo, rfl⟩ := h
    obtain ⟨f15, f14, f13, f9, f7⟩ := fields_formatC (m := 0) (code_lt ht (length_shiftPair _)) (by decide)
      (code_lt hr rfl) (code_lt hdd rfl) (lowByteOf_lt hlo)
    refine whole ht hdd hlo f15 f9 f7 (ext := [count]) ?_
    rw [decodeShift, f14, must_of_codeOf hr f13]
    rfl
  case reg rd rs =>
    obtain ⟨t, ht, dd, hdd, r, hr, c, hc, lo, hlo, rfl⟩ := h
    obtain ⟨f15, f14, f13, f9, f7⟩ := fields_formatC (m := 1) (code_lt ht (length_shiftPair _)) (by decide)
      (code_lt hr rfl) (code_lt hdd rfl) (lowByteOf_lt hlo)
    have hc16 : c < 16 := code_lt hc rfl
    have hhigh : field (BitVec.ofNat 16 c) 15 4 = 0 := by simp only [field, BitVec.toNat_ofNat]; omega
    have hlow : field (BitVec.ofNat 16 c) 3 0 = c := by simp only [field, BitVec.toNat_ofNat]; omega
    refine whole ht hdd hlo f15 f9 f7 (ext := [BitVec.ofNat 16 c]) ?_
    rw [decodeShift, f14, must_of_codeOf hr f13]
    simp only [List.cons_append, takeHalf, ok_bind, hhigh, must_of_codeOf hc hlow]
    rfl
  case mem m nn =>
    obtain ⟨t, ht, dd, hdd, f3, h3, lo, hlo, rfl⟩ := h
    obtain ⟨f15, f14, f12, f9, f7, -⟩ := fields_formatA (code_lt ht (length_shiftPair _)) nn.isLt
      (code_lt h3 (length_mode _)) (code_lt hdd rfl) (lowByteOf_lt hlo)
    refine whole ht hdd hlo f15 f9 f7 ?_
    rw [decodeShift, decodeMem_of_code h3 f12, f14, BitVec.ofNat_toNat, BitVec.setWidth_eq]
    rfl

theorem decode_encodeBranch {c : Cond} {f : BranchForm} {ws : List Half} (h : encodeBranch c f = some ws)
    (rest : List Half) : decode (ws ++ rest) = .ok (.branch c f, rest) := by
  obtain ⟨offset, base, ind, link⟩ := f
  have bit (b : Bool) : (b.toNat == 1) = b := by cases b <;> rfl
  cases offset <;> simp only [encodeBranch, Option.bind_eq_bind, Option.bind_eq_some_iff, Option.some.injEq] at h <;>
    obtain ⟨cc, hc, r, hr, lo, hlo, rfl⟩ := h <;> have hcc : cc < 16 := code_lt hc rfl <;>
    have hcode : cc / 8 * 8 + cc % 8 = cc := by omega
  case short v =>
    obtain ⟨f15, f14, f13, f12, f11, f7⟩ := fields_formatD (c := cc / 8) (d := 0) (by omega) (by decide) ind.toNat_lt
      link.toNat_lt (code_lt hr rfl) (lowByteOf_lt hlo)
    rw [List.cons_append, decode_of_lowByteOf hlo f7, decodeShape, f15, must_of_codeOf hc hcode, ok_bind, decodeBranch,
      must_of_codeOf hr f11, f14, f13, f12, bit, bit]
    rfl
  case long v =>
    obtain ⟨f15, f14, f13, f12, f11, f7⟩ := fields_formatD (c := cc / 8) (d := 1) (by omega) (by decide) ind.toNat_lt
      link.toNat_lt (code_lt hr rfl) (lowByteOf_lt hlo)
    rw [List.cons_append, decode_of_lowByteOf hlo f7, decodeShape, f15, must_of_codeOf hc hcode, ok_bind, decodeBranch,
      must_of_codeOf hr f11, f14, f13, f12, bit, bit]
    simp only [ok_bind, takeWord_halvesOfWord]
    rfl

/-- A Format K word: its stack pointer is read back. -/
theorem decode_encodeStack {sh : Shape} {rs : Index} {ext ws : List Half} (h : encodeStack sh rs ext = some ws) :
    ∃ w, ws = w :: ext ∧ decodeStack w = .ok rs ∧ ∀ l, decode (w :: l) = decodeShape w sh l := by
  simp only [encodeStack, Option.bind_eq_bind, Option.bind_eq_some_iff, Option.some.injEq] at h
  obtain ⟨f3, h3, lo, hlo, rfl⟩ := h
  obtain ⟨-, -, f12, f9, f7, f15⟩ := fields_formatA (t := 0) (f2 := 0) (dd := 0) (by decide) (by decide)
    (code_lt h3 rfl) (by decide) (lowByteOf_lt hlo)
  refine ⟨_, rfl, ?_, decode_of_lowByteOf hlo f7⟩
  rw [decodeStack, f15, f9, must_of_codeOf h3 f12]
  rfl

theorem decode_encodeBit {op : BitOp} {f : BitForm} {b : BitVec 5} {ws : List Half} (h : encodeBit op f b = some ws)
    (rest : List Half) : decode (ws ++ rest) = .ok (.bitop op f b, rest) := by
  cases f <;> simp only [encodeBit, Option.bind_eq_bind, Option.bind_eq_some_iff, Option.some.injEq] at h <;>
    obtain ⟨t, ht, b3, hb, r, hr, lo, hlo, rfl⟩ := h <;>
    obtain ⟨hs, hl⟩ := shapeOf_of_lowByteOf hlo <;>
    obtain ⟨hop, ht2⟩ := nameOf_of_codeOf ht <;> rw [length_bitPair] at ht2 <;>
    obtain ⟨hname, hb8⟩ := nameOf_of_codeOf hb <;> rw [length_bitGroup] at hb8 <;>
    obtain ⟨hreg, hr16⟩ := nameOf_of_codeOf hr
  case reg rd => exact decode_bitReg hs hop hname hreg ht2 hb8 hr16 hl rest
  case mem a ri => exact decode_bitMem hs hop hname hreg ht2 hb8 hr16 hl a rest

theorem decode_encodeLoad {sz : Size} {f : LoadForm} {ws : List Half} (h : encodeLoad sz f = some ws)
    (hf : f.wf sz = true) (rest : List Half) : decode (ws ++ rest) = .ok (.ldr sz f, rest) := by
  cases f <;> simp only [encodeLoad, Option.bind_eq_bind, Option.bind_eq_some_iff, Option.some.injEq] at h
  case imm rd v =>
    obtain ⟨r, hr, dd, hdd, lo, hlo, rfl⟩ := h
    obtain ⟨f15, f14, f10, f9, f7⟩ := fields_formatB (t := 0) (by decide) (code_lt hr rfl) (code_lt hdd rfl)
      (lowByteOf_lt hlo)
    rw [LoadForm.wf, Bool.and_eq_true] at hf
    rw [List.cons_append, decode_of_lowByteOf hlo f7, decodeShape, f15, sizeField_of_code hdd f9, beq_self_eq_true,
      demand_true, ok_bind, ok_bind, decodeImm_of_code hr f14 f10 hf.2]
    rfl
  case mem rd m =>
    obtain ⟨g, hg, f3, h3, w, hw, rfl⟩ := h
    obtain ⟨f15, hrd, f12, hsz, hdec⟩ := encodeA_eq_some hw (by decide) (code_lt h3 (length_mode _))
    rw [List.cons_append, hdec, decodeShape, decodeMove, f15, hsz, beq_self_eq_true, demand_true, ok_bind, ok_bind]
    dsimp only
    rw [hrd, decodeMem_of_code h3 f12]
    rfl

/-- A PSH or PUL word: its operands are read back. -/
theorem decode_encodeSlot {row : SlotList → Shape} {sz : Size} {rd : Slot} {rs : Index} {ws : List Half}
    (h : encodeSlot row sz rd rs = some ws) (hf : slotWf sz rd = true) :
    ∃ w, ws = [w] ∧ decodeSlot w rd.row = .ok (sz, rd, rs) ∧ ∀ l, decode (w :: l) = decodeShape w (row rd.row) l := by
  simp only [encodeSlot, Option.bind_eq_bind, Option.bind_eq_some_iff, Option.some.injEq] at h
  obtain ⟨f2, h2, f3, h3, dd, hdd, lo, hlo, rfl⟩ := h
  obtain ⟨f15, f14, f12, f9, f7, -⟩ := fields_formatA (t := 0) (by decide) (code_lt h2 (length_slotList _))
    (code_lt h3 rfl) (code_lt hdd rfl) (lowByteOf_lt hlo)
  refine ⟨_, rfl, ?_, decode_of_lowByteOf hlo f7⟩
  rw [decodeSlot, f15, sizeField_of_code hdd f9, must_of_codeOf h2 f14, must_of_codeOf h3 f12]
  simp only [ok_bind, hf]
  rfl

theorem decode_encodeMov {sz : Size} {row : MovRow} {rd rs : Reg} {ws : List Half}
    (h : encode (.mov sz row rd rs) = some ws) (rest : List Half) :
    decode (ws ++ rest) = .ok (.mov sz row rd rs, rest) := by
  simp only [encode, Option.bind_eq_bind, Option.bind_eq_some_iff, Option.some.injEq] at h
  obtain ⟨d, hd, r, hr, dd, hdd, lo, hlo, rfl⟩ := h
  obtain ⟨f15, f12, f9, f7⟩ := fields_formatG (code_lt hd (length_movRd _)) (code_lt hr (length_movRs _))
    (code_lt hdd rfl) (lowByteOf_lt hlo)
  rw [List.cons_append, decode_of_lowByteOf hlo f7, decodeShape, sizeField_of_code hdd f9, must_of_codeOf hd f15,
    must_of_codeOf hr f12]
  rfl

theorem decode_encodeStr {sz : Size} {rd : Reg} {m : MemOp} {ws : List Half} (h : encode (.str sz rd m) = some ws)
    (rest : List Half) : decode (ws ++ rest) = .ok (.str sz rd m, rest) := by
  simp only [encode, Option.bind_eq_bind, Option.bind_eq_some_iff, Option.some.injEq] at h
  obtain ⟨g, hg, f3, h3, w, hw, rfl⟩ := h
  obtain ⟨f15, hrd, f12, hsz, hdec⟩ := encodeA_eq_some hw (by decide) (code_lt h3 (length_mode _))
  rw [List.cons_append, hdec, decodeShape, decodeMove, f15, hsz, beq_self_eq_true, demand_true, ok_bind, ok_bind]
  dsimp only
  rw [hrd, decodeMem_of_code h3 f12]
  rfl

theorem decode_encodeBrk {w : Bool} {q : BitVec 3} {v : BitVec 4} {ws : List Half}
    (h : encode (.brk w q v) = some ws) (rest : List Half) : decode (ws ++ rest) = .ok (.brk w q v, rest) := by
  have bit (b : Bool) : (b.toNat == 1) = b := by cases b <;> rfl
  rw [encode, Option.map_eq_some_iff] at h
  obtain ⟨lo, hlo, rfl⟩ := h
  obtain ⟨f15, f14, f11, f7⟩ := fields_formatF w.toNat_lt q.isLt v.isLt (lowByteOf_lt hlo)
  rw [List.cons_append, decode_of_lowByteOf hlo f7, decodeShape, f15, f14, f11, bit, BitVec.ofNat_toNat,
    BitVec.ofNat_toNat, BitVec.setWidth_eq, BitVec.setWidth_eq]
  rfl

theorem decode_encodeJmp {f : JumpForm} {ws : List Half} (h : encode (.jmp f) = some ws) (rest : List Half) :
    decode (ws ++ rest) = .ok (.jmp f, rest) := by
  cases f <;> rw [encode, Option.map_eq_some_iff] at h <;> obtain ⟨lo, hlo, rfl⟩ := h <;> have hl := lowByteOf_lt hlo <;>
    have f7 : field (BitVec.ofNat 16 lo) 7 0 = lo := by simp only [field, BitVec.toNat_ofNat]; omega
  all_goals
    have f15 : field (BitVec.ofNat 16 lo) 15 8 = 0 := by simp only [field, BitVec.toNat_ofNat]; omega
    rw [List.cons_append, decode_of_lowByteOf hlo f7, decodeShape, f15, beq_self_eq_true, demand_true, ok_bind,
      takeWord_halvesOfWord]
    rfl

theorem decode_encodeNop {n : BitVec 8} {ws : List Half} (h : encode (.nop n) = some ws) (rest : List Half) :
    decode (ws ++ rest) = .ok (.nop n, rest) := by
  rw [encode, Option.map_eq_some_iff] at h
  obtain ⟨lo, hlo, rfl⟩ := h
  have hl := lowByteOf_lt hlo
  have hn := n.isLt
  have f7 : field (BitVec.ofNat 16 (n.toNat * 2 ^ 8 + lo)) 7 0 = lo := by
    simp only [field, BitVec.toNat_ofNat]; omega
  have f15 : field (BitVec.ofNat 16 (n.toNat * 2 ^ 8 + lo)) 15 8 = n.toNat := by
    simp only [field, BitVec.toNat_ofNat]; omega
  rw [List.cons_append, decode_of_lowByteOf hlo f7, decodeShape, f15, BitVec.ofNat_toNat, BitVec.setWidth_eq]
  rfl

/-- An encoding is read back as the instruction it was made from. -/
theorem decode_encode {i : Instr} {ws : List Half} (hw : i.wf = true) (h : encode i = some ws) (rest : List Half) :
    decode (ws ++ rest) = .ok (i, rest) := by
  induction i using instr_cases with
  | unary op sz f => rw [encode_unary] at h; exact decode_encodeUnary h rest
  | alu op sz f => rw [encode_alu] at h; rw [wf_alu] at hw; exact decode_encodeAlu h hw rest
  | bit sz f => exact decode_encodeTest h rest
  | shift op sz f => rw [encode_shift] at h; exact decode_encodeShift h rest
  | branch c f => rw [encode_branch] at h; exact decode_encodeBranch h rest
  | brk w q v => exact decode_encodeBrk h rest
  | jmp f => exact decode_encodeJmp h rest
  | jsr rs a =>
    obtain ⟨w, rfl, hs, hdec⟩ := decode_encodeStack h
    rw [List.cons_append, hdec, decodeShape, hs, ok_bind, takeWord_halvesOfWord]
    rfl
  | nop n => exact decode_encodeNop h rest
  | rti rs | rts rs =>
    obtain ⟨w, rfl, hs, hdec⟩ := decode_encodeStack h
    rw [List.cons_append, hdec, decodeShape, hs]
    rfl
  | bitop op f b => rw [encode_bitop] at h; exact decode_encodeBit h rest
  | ldr sz f => exact decode_encodeLoad h hw rest
  | mov sz row rd rs => exact decode_encodeMov h rest
  | psh sz rd rs | pul sz rd rs =>
    obtain ⟨w, rfl, hs, hdec⟩ := decode_encodeSlot h (Bool.and_eq_true_iff.mp hw).1
    rw [List.cons_append, hdec, decodeShape, hs]
    rfl
  | str sz rd m => exact decode_encodeStr h rest

/-- Settles O1: a well-formed instruction has words, and each family reads its own back. -/
theorem decodeOfEncode : Obligations.DecodeOfEncode := by
  intro i rest h
  obtain ⟨w, ext, he, -⟩ := hasWords_encode h
  exact ⟨_, he, decode_encode h he rest⟩

end Sys2Proof.CodecFacts
end

section
/-! PROOFS. What is read is what the encoder writes: each row of the decoder, from the names its fields have back to
the codes, and the first word from its fields (30_encoding sections 4 to 6). -/

namespace Sys2Proof.CodecFacts

open Sys2Proof.EncodingFacts

/-! What a row of the decoder reads. -/

/-- The words are those the encoder writes for a well-formed instruction, and what is left over. -/
def Encodes (i : Instr) (ws rest : List Half) : Prop := i.wf = true ∧ ∃ e, encode i = some e ∧ ws = e ++ rest

theorem demand_eq_ok {b : Bool} {u : Unit} : demand b = .ok u ↔ b = true := by cases b <;> simp [demand]

theorem code_of_must {α : Type} [DecidableEq α] {l : List (Option α)} (hl : Distinct l) {k : Nat} {x : α}
    (h : must (nameOf l k) = .ok x) : codeOf l x = some k := codeOf_of_nameOf hl (must_eq_ok.mp h)

/-- What holds of every name of a list holds of the name at a code. -/
theorem of_must {α : Type} (p : α → Bool) {l : List (Option α)} {k : Nat} {x : α} (h : must (nameOf l k) = .ok x)
    (hl : l.all (fun y => y.all p) = true) : p x = true :=
  List.all_eq_true.mp hl _ (List.mem_of_getElem? (nameOf_eq_some.mp (must_eq_ok.mp h)))

theorem code_of_sizeField {w : Half} {sz : Size} (h : sizeField w = .ok sz) : codeOf listDD sz = some (field w 9 8) :=
  code_of_must distinct_listDD h

theorem groupOf_of_must {g : Group} {k : Nat} {rd : Reg} (h : must (nameOf g.list k) = .ok rd) : groupOf rd = some g :=
  of_decide_eq_true (of_must (fun rd => decide (groupOf rd = some g)) h (by cases g <;> decide))

theorem isGeneral_of_must {k : Nat} {rd : Reg} (h : must (nameOf listAAAA k) = .ok rd) : rd.isGeneral = true :=
  of_must Reg.isGeneral h (by decide)

/-- The registers of a group, by the checks that accept it. -/
theorem isGroup_of_groupOf {rd : Reg} {g : Group} (h : groupOf rd = some g) :
    (match g with
      | .a => rd.isA
      | .x => rd.isX
      | .y => rd.isY) = true := by
  cases rd <;> cases h <;> rfl

/-- A memory operand that is read: its index has the code in the word, its form is the row's. -/
theorem of_decodeMem {w : Half} {m : AddrMode} {ext rest : List Half} {mo : MemOp}
    (h : decodeMem w m ext = .ok (mo, rest)) :
    mo.mode = m ∧ mo.indexWf = true ∧ mo.indexCode = some (field w 12 10) ∧ ext = mo.ext ++ rest := by
  obtain ⟨ri, hri, h⟩ := bind_eq_ok.mp h
  obtain ⟨rfl, rfl, rfl⟩ := takeMem_eq_ok h
  refine ⟨rfl, ?_, code_of_must (distinct_mode _) hri, rfl⟩
  obtain ⟨l, a, ri⟩ | ⟨l, a, ri⟩ | ⟨a, ri⟩ | ⟨a, ri⟩ := mo
  · exact of_must l.admits hri (by cases l <;> rfl)
  · exact of_must l.admits hri (by cases l <;> rfl)
  · exact of_must IxList.xxx.admits hri rfl
  · exact of_must IxList.yyy.admits hri rfl

theorem of_decodeImm {w : Half} {sz : Size} {ext rest : List Half} {rd : Reg} {v : Word}
    (h : decodeImm w sz ext = .ok (rd, v, rest)) :
    codeOf listAAAA rd = some (field w 14 11) ∧ rd.isGeneral = true ∧ field w 10 10 = 0 ∧ immWf sz v = true ∧
      ext = encodeImm sz v ++ rest := by
  obtain ⟨_, hrd, h⟩ := bind_eq_ok.mp h
  obtain ⟨_, h10, h⟩ := bind_eq_ok.mp h
  obtain ⟨⟨_, _⟩, himm, h⟩ := bind_eq_ok.mp h
  cases h
  obtain ⟨hv, he⟩ := takeImm_eq_ok himm
  exact ⟨code_of_must distinct_listAAAA hrd, isGeneral_of_must hrd, by simpa using demand_eq_ok.mp h10, hv, he⟩

/-- A Format A word is the one its fields write. -/
theorem encodeA_of_fields {w : Half} {t : Nat} {g : Group} {rd : Reg} {sz : Size} {sh : Shape}
    (hs : lowByteOf sh = some (field w 7 0)) (h15 : field w 15 15 = t)
    (hrd : must (nameOf g.list (field w 14 13)) = .ok rd) (hsz : sizeField w = .ok sz) :
    encodeA t g rd (field w 12 10) sz sh = some w := by
  simp only [encodeA, code_of_must (distinct_group g) hrd, code_of_sizeField hsz, hs, ← h15, bind, Option.bind,
    formatA_fields]

/-! The rows that stand in the map. -/

/-- The rows of BIT (41_alu R138). -/
def testRows : List OpRow :=
  [.reg .a, .mem .a (.abs16 .zzz), .mem .a (.abs32 .xxx), .mem .a (.abs32 .zzz)]

/-- The row of a shape is one of its table. -/
def Tabled : Shape → Bool
  | .alu _ row => decide (row ∈ aluRows.map (·.2))
  | .test row => decide (row ∈ testRows)
  | .ldr row | .str row => decide (row ∈ loadRows.map (·.2))
  | .unary row => decide (row ∈ unaryRows.map (·.2))
  | .inc row => decide (row ∈ incRows.map (·.2))
  | .shift _ row => decide (row ∈ shiftRows.map (·.2))
  | .branch ccc => decide (ccc < 8)
  | _ => true

theorem tabled_of_shapeOf {lo : Nat} {sh : Shape} (h : shapeOf lo = some sh) : Tabled sh = true := by
  have all : ∀ r ∈ opcodeMap, Tabled r.2 = true := by decide +kernel
  exact all _ (mem_opcodeMap_of_shapeOf h)

theorem aluMemWf_of_row {g : Group} {rd : Reg} {mo : MemOp} (hr : OpRow.mem g mo.mode ∈ aluRows.map (·.2))
    (hg : groupOf rd = some g) (hi : mo.indexWf = true) : aluMemWf rd mo = true := by
  refine Bool.and_eq_true_iff.mpr ⟨hi, ?_⟩
  obtain ⟨l, a, ri⟩ | ⟨l, a, ri⟩ | ⟨a, ri⟩ | ⟨a, ri⟩ := mo <;> dsimp only [MemOp.mode] at hr
  · cases l <;> cases rd <;> cases hg <;> first | rfl | exact absurd hr (by decide)
  · cases l <;> cases rd <;> cases hg <;> first | rfl | exact absurd hr (by decide)
  · cases rd <;> cases hg <;> first | rfl | exact absurd hr (by decide)
  · cases rd <;> cases hg <;> first | rfl | exact absurd hr (by decide)

theorem moveMemWf_of_row {g : Group} {rd : Reg} {mo : MemOp} (hr : OpRow.mem g mo.mode ∈ loadRows.map (·.2))
    (hg : groupOf rd = some g) (hi : mo.indexWf = true) : moveMemWf rd mo = true := by
  refine Bool.and_eq_true_iff.mpr ⟨hi, ?_⟩
  obtain ⟨l, a, ri⟩ | ⟨l, a, ri⟩ | ⟨a, ri⟩ | ⟨a, ri⟩ := mo <;> dsimp only [MemOp.mode] at hr
  · cases l <;> cases rd <;> cases hg <;> first | rfl | exact absurd hr (by decide)
  · cases l <;> cases rd <;> cases hg <;> first | rfl | exact absurd hr (by decide)
  · cases rd <;> cases hg <;> first | rfl | exact absurd hr (by decide)
  · cases rd <;> cases hg <;> first | rfl | exact absurd hr (by decide)

theorem testMemWf_of_row {g : Group} {rd : Reg} {mo : MemOp} (hr : OpRow.mem g mo.mode ∈ testRows)
    (hg : groupOf rd = some g) (hi : mo.indexWf = true) : testMemWf rd mo = true := by
  obtain rfl : g = .a := by
    simp only [testRows, List.mem_cons, OpRow.mem.injEq, List.not_mem_nil, reduceCtorEq, or_false, false_or] at hr
    rcases hr with h | h | h <;> exact h.1
  have ha : rd.isA = true := isGroup_of_groupOf hg
  refine Bool.and_eq_true_iff.mpr ⟨Bool.and_eq_true_iff.mpr ⟨hi, ha⟩, ?_⟩
  obtain ⟨l, a, ri⟩ | ⟨l, a, ri⟩ | ⟨a, ri⟩ | ⟨a, ri⟩ := mo <;> dsimp only [MemOp.mode] at hr
  · cases l <;> first | rfl | exact absurd hr (by decide)
  · cases l <;> first | rfl | exact absurd hr (by decide)
  · exact absurd hr (by decide)
  · exact absurd hr (by decide)

theorem modifyWf_of_form {mo : MemOp} (hi : mo.indexWf = true)
    (hm : mo.mode ∈ [.abs16 .xxx, .abs16 .zzz, .abs32 .xxx, .abs32 .zzz]) : mo.modifyWf = true := by
  refine Bool.and_eq_true_iff.mpr ⟨hi, ?_⟩
  obtain ⟨l, a, ri⟩ | ⟨l, a, ri⟩ | ⟨a, ri⟩ | ⟨a, ri⟩ := mo <;> dsimp only [MemOp.mode] at hm
  · cases l <;> first | rfl | exact absurd hm (by decide)
  · cases l <;> first | rfl | exact absurd hm (by decide)
  · exact absurd hm (by decide)
  · exact absurd hm (by decide)

/-- The memory rows of the one-operand instructions and of the shifts are of the same four forms. -/
theorem modify_forms (m : AddrMode) :
    (UnaryRow.mem m ∈ unaryRows.map (·.2) → m ∈ [.abs16 .xxx, .abs16 .zzz, .abs32 .xxx, .abs32 .zzz]) ∧
    (UnaryRow.mem m ∈ incRows.map (·.2) → m ∈ [.abs16 .xxx, .abs16 .zzz, .abs32 .xxx, .abs32 .zzz]) ∧
    (ShiftRow.mem m ∈ shiftRows.map (·.2) → m ∈ [.abs16 .xxx, .abs16 .zzz, .abs32 .xxx, .abs32 .zzz]) := by
  obtain l | l | _ | _ := m
  · cases l <;> decide
  · cases l <;> decide
  · decide
  · decide

/-! The rows, family by family. `lowByteOf sh = some (field w 7 0)` says that the row is that of the first word. -/

section
variable {w : Half} {ext rest : List Half}

theorem encodes_alu {p : AluPair} {row : OpRow} {i : Instr} (hs : lowByteOf (.alu p row) = some (field w 7 0))
    (ht : row ∈ aluRows.map (·.2)) (hd : decodeAlu w p row ext = .ok (i, rest)) : Encodes i (w :: ext) rest := by
  obtain ⟨op, hop, h⟩ := bind_eq_ok.mp hd
  have hcode := code_of_must (distinct_aluPair p) hop
  obtain rfl : op.pair = p := of_decide_eq_true
    (of_must (fun op : AluOp => decide (op.pair = p)) hop (by cases p <;> rfl))
  obtain ⟨sz, hsz, h⟩ := bind_eq_ok.mp h
  cases row with
  | reg g =>
    obtain ⟨rd, hrd, h⟩ := bind_eq_ok.mp h
    obtain ⟨rs, hrs, h⟩ := bind_eq_ok.mp h
    cases h
    have hg := groupOf_of_must hrd
    refine ⟨?_, [w], ?_, rfl⟩
    · have hdst : (rd.isA || rd.isX || rd.isY) = true :=
        of_must (fun r => r.isA || r.isX || r.isY) hrd (by cases g <;> rfl)
      have hsrc : (rs.isA || rs.isX) = true := of_must (fun r => r.isA || r.isX) hrs rfl
      rw [wf_alu, AluForm.wf, hdst, hsrc]
      rfl
    · simp only [encode_alu, encodeAlu, hcode, hg, code_of_must distinct_listSSS hrs, bind, Option.bind,
        encodeA_of_fields hs rfl hrd hsz]
  | imm =>
    obtain ⟨⟨rd, v, _⟩, himm, h⟩ := bind_eq_ok.mp h
    cases h
    obtain ⟨hrd, hgen, h10, hv, rfl⟩ := of_decodeImm himm
    refine ⟨by rw [wf_alu, AluForm.wf, hgen, hv]; rfl, w :: encodeImm sz v, ?_, rfl⟩
    simp only [encode_alu, encodeAlu, hcode, hrd, code_of_sizeField hsz, hs, bind, Option.bind, formatB_fields w h10]
  | mem g m =>
    obtain ⟨rd, hrd, h⟩ := bind_eq_ok.mp h
    obtain ⟨⟨mo, _⟩, hmem, h⟩ := bind_eq_ok.mp h
    cases h
    obtain ⟨rfl, hix, hic, rfl⟩ := of_decodeMem hmem
    have hg := groupOf_of_must hrd
    refine ⟨by rw [wf_alu]; exact aluMemWf_of_row ht hg hix, w :: mo.ext, ?_, rfl⟩
    simp only [encode_alu, encodeAlu, hcode, hg, hic, bind, Option.bind, encodeA_of_fields hs rfl hrd hsz]

theorem encodes_test {row : OpRow} {i : Instr} (hs : lowByteOf (.test row) = some (field w 7 0))
    (ht : row ∈ testRows) (h : decodeTest w row ext = .ok (i, rest)) : Encodes i (w :: ext) rest := by
  obtain ⟨_, h15, h⟩ := bind_eq_ok.mp h
  obtain ⟨sz, hsz, h⟩ := bind_eq_ok.mp h
  have h15 : field w 15 15 = 0 := by simpa using demand_eq_ok.mp h15
  cases row with
  | reg g =>
    obtain ⟨rd, hrd, h⟩ := bind_eq_ok.mp h
    obtain ⟨rs, hrs, h⟩ := bind_eq_ok.mp h
    cases h
    have hg := groupOf_of_must hrd
    refine ⟨?_, [w], ?_, rfl⟩
    · obtain rfl : g = .a := by simpa [testRows] using ht
      have hd : rd.isA = true := isGroup_of_groupOf hg
      have hsrc : (rs.isA || rs.isX) = true := of_must (fun r => r.isA || r.isX) hrs rfl
      rw [Instr.wf, TestForm.wf, hd, hsrc]
      rfl
    · simp only [encode, encodeTest, hg, code_of_must distinct_listSSS hrs, bind, Option.bind,
        encodeA_of_fields hs h15 hrd hsz]
  | imm => cases h
  | mem g m =>
    obtain ⟨rd, hrd, h⟩ := bind_eq_ok.mp h
    obtain ⟨⟨mo, _⟩, hmem, h⟩ := bind_eq_ok.mp h
    cases h
    obtain ⟨rfl, hix, hic, rfl⟩ := of_decodeMem hmem
    have hg := groupOf_of_must hrd
    refine ⟨testMemWf_of_row ht hg hix, w :: mo.ext, ?_, rfl⟩
    simp only [encode, encodeTest, hg, hic, bind, Option.bind, encodeA_of_fields hs h15 hrd hsz]

theorem encodes_ldrImm {i : Instr} (hs : lowByteOf .ldrImm = some (field w 7 0))
    (h : decodeShape w .ldrImm ext = .ok (i, rest)) : Encodes i (w :: ext) rest := by
  obtain ⟨_, h15, h⟩ := bind_eq_ok.mp h
  obtain ⟨sz, hsz, h⟩ := bind_eq_ok.mp h
  obtain ⟨⟨rd, v, _⟩, himm, h⟩ := bind_eq_ok.mp h
  cases h
  have h15 : field w 15 15 = 0 := by simpa using demand_eq_ok.mp h15
  obtain ⟨hrd, hgen, h10, hv, rfl⟩ := of_decodeImm himm
  refine ⟨by rw [Instr.wf, LoadForm.wf, hgen, hv]; rfl, w :: encodeImm sz v, ?_, rfl⟩
  have hw := formatB_fields w h10
  rw [h15] at hw
  simp only [encode, encodeLoad, hrd, code_of_sizeField hsz, hs, bind, Option.bind, hw]

/-- The operands of LDR and STR: admitted together, and coded in the first word. -/
theorem of_decodeMove {row : OpRow} {sz : Size} {rd : Reg} {mo : MemOp} (ht : row ∈ loadRows.map (·.2))
    (h : decodeMove w row ext = .ok (sz, rd, mo, rest)) :
    ∃ g, groupOf rd = some g ∧ row = .mem g mo.mode ∧ moveMemWf rd mo = true ∧
      mo.indexCode = some (field w 12 10) ∧ ext = mo.ext ++ rest ∧
      ∀ sh, lowByteOf sh = some (field w 7 0) → encodeA 0 g rd (field w 12 10) sz sh = some w := by
  obtain ⟨_, h15, h⟩ := bind_eq_ok.mp h
  obtain ⟨sz, hsz, h⟩ := bind_eq_ok.mp h
  have h15 : field w 15 15 = 0 := by simpa using demand_eq_ok.mp h15
  cases row with
  | mem g m =>
    obtain ⟨rd, hrd, h⟩ := bind_eq_ok.mp h
    obtain ⟨⟨mo, _⟩, hmem, h⟩ := bind_eq_ok.mp h
    cases h
    obtain ⟨rfl, hix, hic, rfl⟩ := of_decodeMem hmem
    have hg := groupOf_of_must hrd
    exact ⟨g, hg, rfl, moveMemWf_of_row ht hg hix, hic, rfl, fun sh hs => encodeA_of_fields hs h15 hrd hsz⟩
  | _ => cases h

/-- A row of the one-operand instructions: the operand is admitted, and is written with the rest of the word. -/
theorem encodes_unary {op : UnaryOp} {row : UnaryRow} {sz : Size} {f : UnaryForm}
    (hs : lowByteOf (unaryShape op row) = some (field w 7 0))
    (ht : row ∈ unaryRows.map (·.2) ∨ row ∈ incRows.map (·.2))
    (hop : unaryBits op = (field w 15 15, field w 14 13)) (hsz : sizeField w = .ok sz)
    (h : decodeUnary w row ext = .ok (f, rest)) : Encodes (.unary op sz f) (w :: ext) rest := by
  cases row with
  | reg l =>
    obtain ⟨rd, hrd, h⟩ := bind_eq_ok.mp h
    cases h
    obtain rfl : unaryListOf rd = l :=
      of_decide_eq_true (of_must (fun rd => decide (unaryListOf rd = l)) hrd (by cases l <;> rfl))
    refine ⟨?_, [w], ?_, rfl⟩
    · rw [wf_unary]
      exact of_must Reg.isGeneral hrd (by cases unaryListOf rd <;> rfl)
    · simp only [encode_unary, hop, encodeUnary, code_of_sizeField hsz, code_of_must (distinct_unary _) hrd, hs, bind,
        Option.bind, formatA_fields]
  | mem m =>
    obtain ⟨⟨mo, _⟩, hmem, h⟩ := bind_eq_ok.mp h
    cases h
    obtain ⟨rfl, hix, hic, rfl⟩ := of_decodeMem hmem
    refine ⟨?_, w :: mo.ext, ?_, rfl⟩
    · rw [wf_unary]
      exact modifyWf_of_form hix (ht.elim (modify_forms _).1 (modify_forms _).2.1)
    · simp only [encode_unary, hop, encodeUnary, code_of_sizeField hsz, hic, hs, bind, Option.bind, formatA_fields]

theorem encodes_shift {op : ShiftOp} {row : ShiftRow} {sz : Size} {f : ShiftForm}
    (hs : lowByteOf (.shift op.pair row) = some (field w 7 0)) (ht : row ∈ shiftRows.map (·.2))
    (hop : codeOf op.pair.list op = some (field w 15 15)) (hsz : sizeField w = .ok sz)
    (hd : decodeShift w row ext = .ok (f, rest)) : Encodes (.shift op sz f) (w :: ext) rest := by
  have hdd := code_of_sizeField hsz
  have hw := formatC_fields w
  cases row with
  | one =>
    obtain ⟨_, h14, h⟩ := bind_eq_ok.mp hd
    obtain ⟨rd, hrd, h⟩ := bind_eq_ok.mp h
    cases h
    have h14 : field w 14 14 = 0 := by simpa using demand_eq_ok.mp h14
    refine ⟨by rw [wf_shift]; exact isGeneral_of_must hrd, [w], ?_, rfl⟩
    rw [h14] at hw
    simp only [encode_shift, encodeShift, hop, hdd, code_of_must distinct_listAAAA hrd, hs, bind, Option.bind, hw]
  | count =>
    obtain ⟨rd, hrd, h⟩ := bind_eq_ok.mp hd
    obtain ⟨⟨c, _⟩, hc, h⟩ := bind_eq_ok.mp h
    have hext := takeHalf_eq_ok hc
    dsimp only at h
    split at h
    next h14 =>
      cases h
      refine ⟨by rw [wf_shift]; exact isGeneral_of_must hrd, [w, c], ?_, by rw [hext]; rfl⟩
      rw [h14] at hw
      simp only [encode_shift, encodeShift, hop, hdd, code_of_must distinct_listAAAA hrd, hs, bind, Option.bind, hw]
    next h14 =>
      obtain ⟨_, hhigh, h⟩ := bind_eq_ok.mp h
      obtain ⟨rs, hrs, h⟩ := bind_eq_ok.mp h
      cases h
      have hlt : field w 14 14 < 2 := field_lt w 14 14
      have h14 : field w 14 14 = 1 := by omega
      have hhigh : field c 15 4 = 0 := by simpa using demand_eq_ok.mp hhigh
      have hcode : BitVec.ofNat 16 (field c 3 0) = c := by
        apply BitVec.eq_of_toNat_eq
        simp only [field, BitVec.toNat_ofNat] at hhigh ⊢
        have := c.isLt
        omega
      refine ⟨by rw [wf_shift, ShiftForm.wf, isGeneral_of_must hrd, isGeneral_of_must hrs]; rfl, [w, c], ?_, by rw [hext]; rfl⟩
      rw [h14] at hw
      simp only [encode_shift, encodeShift, hop, hdd, code_of_must distinct_listAAAA hrd,
        code_of_must distinct_listAAAA hrs, hs, bind, Option.bind, hw, hcode]
  | mem m =>
    obtain ⟨⟨mo, _⟩, hmem, h⟩ := bind_eq_ok.mp hd
    cases h
    obtain ⟨rfl, hix, hic, rfl⟩ := of_decodeMem hmem
    have h14 : (BitVec.ofNat 2 (field w 14 13)).toNat = field w 14 13 :=
      Nat.mod_eq_of_lt (field_lt w 14 13)
    refine ⟨by rw [wf_shift]; exact modifyWf_of_form hix ((modify_forms _).2.2 ht), w :: mo.ext, ?_, rfl⟩
    simp only [encode_shift, encodeShift, hop, hdd, hic, hs, bind, Option.bind, h14, formatA_fields]

/-- A one-bit field, as the bit it is. -/
theorem toNat_bit {k : Nat} (h : k < 2) : (k == 1).toNat = k := by interval_cases k <;> rfl

theorem encodes_branch {ccc : Nat} {c : Cond} {f : BranchForm} (hs : lowByteOf (.branch ccc) = some (field w 7 0))
    (ht : ccc < 8) (hc : must (nameOf listCCCC (field w 15 15 * 8 + ccc)) = .ok c)
    (h : decodeBranch w ext = .ok (f, rest)) : Encodes (.branch c f) (w :: ext) rest := by
  obtain ⟨base, hb, h⟩ := bind_eq_ok.mp h
  have hcode := code_of_must distinct_listCCCC hc
  have hbase := code_of_must distinct_listBcc hb
  have h13 : (field w 13 13 == 1).toNat = field w 13 13 := toNat_bit (field_lt w 13 13)
  have h12 : (field w 12 12 == 1).toNat = field w 12 12 := toNat_bit (field_lt w 12 12)
  have hdiv : (field w 15 15 * 8 + ccc) / 8 = field w 15 15 := by omega
  have hmod : (field w 15 15 * 8 + ccc) % 8 = ccc := by omega
  have hwf : ∀ o : BranchOffset, (Instr.branch c ⟨o, base, field w 13 13 == 1, field w 12 12 == 1⟩).wf = true := by
    intro o
    rw [wf_branch, BranchForm.wf]
    have := of_must (fun b => match b with
      | Index.zero => false
      | .pc => true
      | .reg r => r.isGeneral) hb rfl
    exact this
  have hlt : field w 14 14 < 2 := field_lt w 14 14
  have hw := formatD_fields w
  dsimp only at h
  split at h
  next h14 =>
    obtain ⟨⟨v, _⟩, hv, h⟩ := bind_eq_ok.mp h
    cases h
    obtain rfl := takeHalf_eq_ok hv
    refine ⟨hwf _, [w, v], ?_, rfl⟩
    rw [h14] at hw
    simp only [encode_branch, encodeBranch, hcode, hbase, hmod, hdiv, hs, bind, Option.bind, h13, h12, hw]
  next h14 =>
    obtain ⟨⟨v, _⟩, hv, h⟩ := bind_eq_ok.mp h
    cases h
    obtain rfl := takeWord_eq_ok hv
    have h14 : field w 14 14 = 1 := by omega
    refine ⟨hwf _, w :: halvesOfWord v, ?_, rfl⟩
    rw [h14] at hw
    simp only [encode_branch, encodeBranch, hcode, hbase, hmod, hdiv, hs, bind, Option.bind, h13, h12, hw]

/-- A Format K word is the one its stack pointer writes. -/
theorem of_decodeStack {sh : Shape} {rs : Index} (hs : lowByteOf sh = some (field w 7 0))
    (h : decodeStack w = .ok rs) : stackWf rs = true ∧ ∀ l, encodeStack sh rs l = some (w :: l) := by
  obtain ⟨_, h15, h⟩ := bind_eq_ok.mp h
  obtain ⟨_, h9, h⟩ := bind_eq_ok.mp h
  have h15 : field w 15 13 = 0 := by simpa using demand_eq_ok.mp h15
  have h9 : field w 9 8 = 0 := by simpa using demand_eq_ok.mp h9
  have h1514 : field w 15 15 = 0 ∧ field w 14 13 = 0 := by simp only [field] at h15 ⊢; omega
  refine ⟨of_must stackWf h rfl, fun l => ?_⟩
  have hw := formatA_fields w
  rw [h1514.1, h1514.2, h9] at hw
  simp only [encodeStack, code_of_must distinct_listStack h, hs, bind, Option.bind, hw]

theorem of_decodeSlot {row : SlotList} {sh : SlotList → Shape} {sz : Size} {rd : Slot} {rs : Index}
    (hs : lowByteOf (sh row) = some (field w 7 0)) (h : decodeSlot w row = .ok (sz, rd, rs)) :
    (slotWf sz rd && stackWf rs) = true ∧ encodeSlot sh sz rd rs = some [w] := by
  obtain ⟨_, h15, h⟩ := bind_eq_ok.mp h
  obtain ⟨sz, hsz, h⟩ := bind_eq_ok.mp h
  obtain ⟨rd, hrd, h⟩ := bind_eq_ok.mp h
  obtain ⟨rs, hrs, h⟩ := bind_eq_ok.mp h
  obtain ⟨_, hslot, h⟩ := bind_eq_ok.mp h
  cases h
  have h15 : field w 15 15 = 0 := by simpa using demand_eq_ok.mp h15
  obtain rfl : rd.row = row :=
    of_decide_eq_true (of_must (fun rd : Slot => decide (rd.row = row)) hrd (by cases row <;> rfl))
  refine ⟨by rw [demand_eq_ok.mp hslot, of_must stackWf hrs rfl]; rfl, ?_⟩
  have hw := formatA_fields w
  rw [h15] at hw
  simp only [encodeSlot, code_of_must (distinct_slot _) hrd, code_of_must distinct_listStack hrs,
    code_of_sizeField hsz, hs, bind, Option.bind, hw]

/-- A bit number stands in one group alone (30_encoding R87). -/
theorem bitGroupOf_of_must {g : BitGroup} {k : Nat} {b : BitVec 5} (h : must (nameOf g.list k) = .ok b) :
    bitGroupOf b = g :=
  of_decide_eq_true (of_must (fun b => decide (bitGroupOf b = g)) h (by cases g <;> decide +kernel))

theorem encodes_bitReg {p : BitPair} {g : BitGroup} {i : Instr} (hs : lowByteOf (.bitReg p g) = some (field w 7 0))
    (h : decodeShape w (.bitReg p g) ext = .ok (i, rest)) : Encodes i (w :: ext) rest := by
  obtain ⟨op, hop, h⟩ := bind_eq_ok.mp h
  obtain ⟨b, hb, h⟩ := bind_eq_ok.mp h
  obtain ⟨rd, hrd, h⟩ := bind_eq_ok.mp h
  cases h
  have hcode := code_of_must (distinct_bitPair p) hop
  obtain rfl : op.pair = p := of_decide_eq_true
    (of_must (fun op : BitOp => decide (op.pair = p)) hop (by cases p <;> rfl))
  obtain rfl := bitGroupOf_of_must hb
  refine ⟨by rw [wf_bitop]; rfl, [w], ?_, rfl⟩
  simp only [encode_bitop, encodeBit, hcode, code_of_must (distinct_bitGroup _) hb, code_of_must distinct_listBitR hrd,
    hs, bind, Option.bind, formatF_fields]

theorem encodes_bitMem {p : BitPair} {g : BitGroup} {i : Instr} (hs : lowByteOf (.bitMem p g) = some (field w 7 0))
    (h : decodeShape w (.bitMem p g) ext = .ok (i, rest)) : Encodes i (w :: ext) rest := by
  obtain ⟨op, hop, h⟩ := bind_eq_ok.mp h
  obtain ⟨b, hb, h⟩ := bind_eq_ok.mp h
  obtain ⟨ri, hri, h⟩ := bind_eq_ok.mp h
  obtain ⟨⟨a, _⟩, ha, h⟩ := bind_eq_ok.mp h
  cases h
  obtain rfl := takeWord_eq_ok ha
  have hcode := code_of_must (distinct_bitPair p) hop
  obtain rfl : op.pair = p := of_decide_eq_true
    (of_must (fun op : BitOp => decide (op.pair = p)) hop (by cases p <;> rfl))
  obtain rfl := bitGroupOf_of_must hb
  refine ⟨by rw [wf_bitop]; exact of_must (fun ri => (BitForm.mem a ri).wf) hri rfl, w :: halvesOfWord a, ?_, rfl⟩
  simp only [encode_bitop, encodeBit, hcode, code_of_must (distinct_bitGroup _) hb, code_of_must distinct_listBitX hri,
    hs, bind, Option.bind, formatF_fields]

theorem encodes_mov {row : MovRow} {i : Instr} (hs : lowByteOf (.mov row) = some (field w 7 0))
    (h : decodeShape w (.mov row) ext = .ok (i, rest)) : Encodes i (w :: ext) rest := by
  obtain ⟨sz, hsz, h⟩ := bind_eq_ok.mp h
  obtain ⟨rd, hrd, h⟩ := bind_eq_ok.mp h
  obtain ⟨rs, hrs, h⟩ := bind_eq_ok.mp h
  cases h
  refine ⟨?_, [w], ?_, rfl⟩
  · -- both registers are admitted by the groups of the row's two lists
    cases row with
    | aa => exact Bool.and_eq_true_iff.mpr ⟨of_must Reg.isXS hrd rfl, of_must Reg.isAY hrs rfl⟩
    | a8 => exact Bool.and_eq_true_iff.mpr ⟨of_must Reg.isAY hrd rfl, of_must Reg.isAY hrs rfl⟩
    | ba => exact Bool.and_eq_true_iff.mpr ⟨of_must Reg.isXS hrd rfl, of_must Reg.isXS hrs rfl⟩
    | r8a => exact Bool.and_eq_true_iff.mpr ⟨of_must Reg.isAY hrd rfl, of_must Reg.isXS hrs rfl⟩
    | r9a => exact Bool.and_eq_true_iff.mpr ⟨of_must Reg.isXS hrd rfl, of_must Reg.isXS hrs rfl⟩
    | r98 => exact Bool.and_eq_true_iff.mpr ⟨of_must Reg.isAY hrd rfl, of_must Reg.isAY hrs rfl⟩
  · simp only [encode, code_of_must (distinct_movRd row) hrd, code_of_must (distinct_movRs row) hrs,
      code_of_sizeField hsz, hs, bind, Option.bind, formatG_fields]

theorem encodes_jmp {sh : Shape} {f : Word → JumpForm} {i : Instr} (hs : lowByteOf sh = some (field w 7 0))
    (hf : ∀ a, encode (.jmp (f a)) = (lowByteOf sh).map fun lo => BitVec.ofNat 16 lo :: halvesOfWord a)
    (h : (do
      demand (field w 15 8 == 0)
      let (a, rest) ← takeWord ext
      .ok (Instr.jmp (f a), rest)) = .ok (i, rest)) : Encodes i (w :: ext) rest := by
  obtain ⟨_, h15, h⟩ := bind_eq_ok.mp h
  obtain ⟨⟨a, _⟩, ha, h⟩ := bind_eq_ok.mp h
  cases h
  obtain rfl := takeWord_eq_ok ha
  have hw : BitVec.ofNat 16 (field w 7 0) = w := by
    have h15 := demand_eq_ok.mp h15
    apply BitVec.eq_of_toNat_eq
    simp only [field, BitVec.toNat_ofNat, beq_iff_eq] at h15 ⊢
    have := w.isLt
    omega
  refine ⟨rfl, w :: halvesOfWord a, ?_, rfl⟩
  rw [hf, hs, Option.map_some, hw]

theorem encodes_nop {i : Instr} (hs : lowByteOf .nop = some (field w 7 0))
    (h : decodeShape w .nop ext = .ok (i, rest)) : Encodes i (w :: ext) rest := by
  cases h
  refine ⟨rfl, [w], ?_, rfl⟩
  rw [encode, hs, Option.map_some]
  congr 2
  apply BitVec.eq_of_toNat_eq
  simp only [field, BitVec.toNat_ofNat]
  have := w.isLt
  omega

/-- Every row but that of BRK: what is read is what the encoder writes. -/
theorem encodes_of_decodeShape {sh : Shape} {i : Instr} (hlo : shapeOf (field w 7 0) = some sh) (hb : sh ≠ .brk)
    (h : decodeShape w sh ext = .ok (i, rest)) : Encodes i (w :: ext) rest := by
  have hs := lowByteOf_of_shapeOf hlo
  have ht := tabled_of_shapeOf hlo
  cases sh with
  | alu p row => exact encodes_alu hs (of_decide_eq_true ht) h
  | test row => exact encodes_test hs (of_decide_eq_true ht) h
  | ldrImm => exact encodes_ldrImm hs h
  | ldr row =>
    obtain ⟨⟨sz, rd, mo, _⟩, hmove, h⟩ := bind_eq_ok.mp h
    cases h
    obtain ⟨g, hg, rfl, hwf, hic, rfl, hw⟩ := of_decodeMove (of_decide_eq_true ht) hmove
    refine ⟨hwf, w :: mo.ext, ?_, rfl⟩
    simp only [encode, encodeLoad, hg, hic, hw _ hs, bind, Option.bind]
  | str row =>
    obtain ⟨⟨sz, rd, mo, _⟩, hmove, h⟩ := bind_eq_ok.mp h
    cases h
    obtain ⟨g, hg, rfl, hwf, hic, rfl, hw⟩ := of_decodeMove (of_decide_eq_true ht) hmove
    refine ⟨hwf, w :: mo.ext, ?_, rfl⟩
    simp only [encode, hg, hic, hw _ hs, bind, Option.bind]
  | unary row =>
    obtain ⟨sz, hsz, h⟩ := bind_eq_ok.mp h
    obtain ⟨⟨f, _⟩, hf, h⟩ := bind_eq_ok.mp h
    dsimp only at h
    have h14 : field w 14 13 < 4 := field_lt w 14 13
    have h15 : field w 15 15 < 2 := field_lt w 15 15
    split at h
    next h0 =>
      cases h
      refine encodes_unary (op := .dec _) hs (.inl (of_decide_eq_true ht)) ?_ hsz hf
      rw [unaryBits, h0, BitVec.toNat_ofNat, Nat.mod_eq_of_lt h14]
    next h0 =>
      obtain ⟨op, hop, h⟩ := bind_eq_ok.mp h
      cases h
      have hname := must_eq_ok.mp hop
      have hbits : unaryBits op = (1, field w 14 13) ∧ unaryShape op = .unary := by
        generalize field w 14 13 = k at hname h14
        interval_cases k <;> cases hname <;> exact ⟨rfl, rfl⟩
      exact encodes_unary (by rw [hbits.2]; exact hs) (.inl (of_decide_eq_true ht))
        (by rw [hbits.1, show field w 15 15 = 1 by omega]) hsz hf
  | inc row =>
    obtain ⟨_, h15, h⟩ := bind_eq_ok.mp h
    obtain ⟨sz, hsz, h⟩ := bind_eq_ok.mp h
    obtain ⟨⟨f, _⟩, hf, h⟩ := bind_eq_ok.mp h
    cases h
    have h15 : field w 15 15 = 0 := by simpa using demand_eq_ok.mp h15
    refine encodes_unary (op := .inc _) hs (.inr (of_decide_eq_true ht)) ?_ hsz hf
    rw [unaryBits, h15, BitVec.toNat_ofNat, Nat.mod_eq_of_lt (field_lt w 14 13)]
  | shift p row =>
    obtain ⟨op, hop, h⟩ := bind_eq_ok.mp h
    obtain ⟨sz, hsz, h⟩ := bind_eq_ok.mp h
    obtain ⟨⟨f, _⟩, hf, h⟩ := bind_eq_ok.mp h
    cases h
    have hcode := code_of_must (distinct_shiftPair p) hop
    obtain rfl : op.pair = p := of_decide_eq_true
      (of_must (fun op : ShiftOp => decide (op.pair = p)) hop (by cases p <;> rfl))
    exact encodes_shift hs (of_decide_eq_true ht) hcode hsz hf
  | branch ccc =>
    obtain ⟨c, hc, h⟩ := bind_eq_ok.mp h
    obtain ⟨⟨f, _⟩, hf, h⟩ := bind_eq_ok.mp h
    cases h
    exact encodes_branch hs (of_decide_eq_true ht) hc hf
  | brk => exact absurd rfl hb
  | jmpDirect => exact encodes_jmp (f := .direct) hs (fun _ => rfl) h
  | jmpIndirect => exact encodes_jmp (f := .indirect) hs (fun _ => rfl) h
  | jsr =>
    obtain ⟨rs, hrs, h⟩ := bind_eq_ok.mp h
    obtain ⟨⟨a, _⟩, ha, h⟩ := bind_eq_ok.mp h
    cases h
    obtain rfl := takeWord_eq_ok ha
    obtain ⟨hwf, he⟩ := of_decodeStack hs hrs
    exact ⟨hwf, w :: halvesOfWord a, he _, rfl⟩
  | nop => exact encodes_nop hs h
  | rti | rts =>
    obtain ⟨rs, hrs, h⟩ := bind_eq_ok.mp h
    cases h
    obtain ⟨hwf, he⟩ := of_decodeStack hs hrs
    exact ⟨hwf, [w], he _, rfl⟩
  | bitReg p g => exact encodes_bitReg hs h
  | bitMem p g => exact encodes_bitMem hs h
  | mov row => exact encodes_mov hs h
  | psh row =>
    obtain ⟨⟨sz, rd, rs⟩, hslot, h⟩ := bind_eq_ok.mp h
    cases h
    obtain ⟨hwf, he⟩ := of_decodeSlot (sh := .psh) hs hslot
    exact ⟨hwf, [w], he, rfl⟩
  | pul row =>
    obtain ⟨⟨sz, rd, rs⟩, hslot, h⟩ := bind_eq_ok.mp h
    cases h
    obtain ⟨hwf, he⟩ := of_decodeSlot (sh := .pul) hs hslot
    exact ⟨hwf, [w], he, rfl⟩

/-- BRK: its second word is read and not used, and is written as 0 (43_control R195). -/
theorem of_decode_brk {i : Instr} (hlo : shapeOf (field w 7 0) = some .brk)
    (h : decodeShape w .brk ext = .ok (i, rest)) :
    ∃ wait q v c, i = .brk wait q v ∧ ext = c :: rest ∧ encode i = some [w, 0] := by
  obtain ⟨⟨c, _⟩, hc, h⟩ := bind_eq_ok.mp h
  cases h
  obtain rfl := takeHalf_eq_ok hc
  refine ⟨_, _, _, c, rfl, rfl, ?_⟩
  have h14 : field w 14 12 < 8 := field_lt w 14 12
  have h11 : field w 11 8 < 16 := field_lt w 11 8
  rw [encode, lowByteOf_of_shapeOf hlo, Option.map_some, toNat_bit (field_lt w 15 15), BitVec.toNat_ofNat,
    BitVec.toNat_ofNat, Nat.mod_eq_of_lt h14, Nat.mod_eq_of_lt h11, formatF_fields]

end

/-- Settles O2: BRK apart, the words read are the words written; of BRK, all but the second. -/
theorem encodeOfDecode : Obligations.EncodeOfDecode := by
  intro ws i rest h
  obtain _ | ⟨w, ext⟩ := ws
  · cases h
  obtain ⟨sh, hlo, hd⟩ := shapeOf_of_decode h
  rw [← field_lowByte] at hlo
  by_cases hb : sh = .brk
  · subst hb
    obtain ⟨wait, q, v, c, rfl, rfl, he⟩ := of_decode_brk hlo hd
    exact ⟨rfl, _, he, rfl, rfl, fun hne => absurd rfl (hne wait q v)⟩
  · obtain ⟨hwf, e, he, heq⟩ := encodes_of_decodeShape hlo hb hd
    obtain ⟨w', ext', he', -⟩ := hasWords_encode hwf
    obtain rfl : e = w' :: ext' := Option.some.inj (he.symm.trans he')
    exact ⟨hwf, _, he, by rw [heq]; rfl, by rw [heq, List.drop_left], fun _ => heq⟩

end Sys2Proof.CodecFacts
end

section
/-! PROOFS. The other words that are no instruction: a fixed bit that is not as printed, a low byte no row has, an
extension word that no operand has (30_encoding R91, R102); and words the spec writes out. -/

namespace Sys2Proof.CodecFacts

open Sys2Proof.EncodingFacts

/-! A fixed bit. -/

theorem demand_of_ne {k n : Nat} (h : k ≠ n) : demand (k == n) = .error .reserved := by
  rw [beq_eq_false_iff_ne.mpr h]
  rfl

/-- Each low byte of some has a row of a kind, so a word with one of them has. -/
theorem shape_of_lows {lows : List Nat} {p : Shape → Bool} (hrows : ∀ b ∈ lows, (shapeOf b).any p = true) {w : Half}
    (hlow : w.toNat % 256 ∈ lows) : ∃ sh, shapeOf (w.toNat % 256) = some sh ∧ p sh = true :=
  Option.any_eq_true _ _ |>.mp (hrows _ hlow)

theorem decode_of_undocumented {w : Half} (h : shapeOf (w.toNat % 256) = none) (ext : List Half) :
    decode (w :: ext) = .error .reserved := by
  rw [decode, field_lowByte, h]
  rfl

theorem decodeShape_of_bit10 {w : Half} {sh : Shape} (hi : isImm sh = true) (h : field w 10 10 = 1) (ext : List Half) :
    decodeShape w sh ext = .error .reserved := by
  have himm (sz : Size) : decodeImm w sz ext = .error .reserved :=
    must_bind_reserved fun _ _ => bind_of_reserved (demand_of_ne (by omega))
  unfold isImm at hi
  split at hi
  · exact must_bind_reserved fun _ _ => must_bind_reserved fun _ _ => bind_of_reserved (himm _)
  · exact demand_bind_reserved (must_bind_reserved fun _ _ => bind_of_reserved (himm _))
  · cases hi

/-- The rows of JMP. -/
def isJmp : Shape → Bool
  | .jmpDirect | .jmpIndirect => true
  | _ => false

theorem decodeShape_of_jmp_bits {w : Half} {sh : Shape} (hj : isJmp sh = true) (h : field w 15 8 ≠ 0)
    (ext : List Half) : decodeShape w sh ext = .error .reserved := by
  unfold isJmp at hj
  split at hj
  · exact bind_of_reserved (demand_of_ne h)
  · exact bind_of_reserved (demand_of_ne h)
  · cases hj

/-- The rows of Format K: JSR, RTI, RTS. -/
def isFormatK : Shape → Bool
  | .jsr | .rti | .rts => true
  | _ => false

theorem decodeStack_of_bits {w : Half} (h : field w 15 13 ≠ 0 ∨ field w 9 8 ≠ 0) :
    decodeStack w = .error .reserved := by
  rcases h with h | h
  · exact bind_of_reserved (demand_of_ne h)
  · exact demand_bind_reserved (bind_of_reserved (demand_of_ne h))

theorem decodeShape_of_stack_bits {w : Half} {sh : Shape} (hk : isFormatK sh = true)
    (h : field w 15 13 ≠ 0 ∨ field w 9 8 ≠ 0) (ext : List Half) : decodeShape w sh ext = .error .reserved := by
  unfold isFormatK at hk
  split at hk
  · exact bind_of_reserved (decodeStack_of_bits h)
  · exact bind_of_reserved (decodeStack_of_bits h)
  · exact bind_of_reserved (decodeStack_of_bits h)
  · cases hk

/-- The rows whose bit 15 is documented as 0 alone (30_encoding R72). -/
def bit15Zero : Shape → Bool
  | .alu .ora _ | .alu .eor _ | .test _ | .ldrImm | .ldr _ | .str _ | .inc _ | .psh _ | .pul _ => true
  | _ => false

theorem decodeShape_of_bit15 {w : Half} {sh : Shape} (hz : bit15Zero sh = true) (h : field w 15 15 = 1)
    (ext : List Half) : decodeShape w sh ext = .error .reserved := by
  have fixed : demand (field w 15 15 == 0) = .error .reserved := demand_of_ne (by omega)
  cases sh with
  | alu p row =>
    -- ORA and EOR have no partner at bit 15 = 1
    refine bind_of_reserved ?_
    rw [h]
    cases p with
    | ora | eor => rfl
    | _ => cases hz
  | test row => exact bind_of_reserved fixed
  | ldrImm => exact bind_of_reserved fixed
  | ldr row => exact bind_of_reserved (bind_of_reserved fixed)
  | str row => exact bind_of_reserved (bind_of_reserved fixed)
  | inc row => exact bind_of_reserved fixed
  | psh row => exact bind_of_reserved (bind_of_reserved fixed)
  | pul row => exact bind_of_reserved (bind_of_reserved fixed)
  | _ => cases hz

/-- The shifts by one. -/
def isShiftOne : Shape → Bool
  | .shift _ .one => true
  | _ => false

theorem decodeShape_of_shift_m {w : Half} {sh : Shape} (hs : isShiftOne sh = true) (h : field w 14 14 = 1)
    (ext : List Half) : decodeShape w sh ext = .error .reserved := by
  unfold isShiftOne at hs
  split at hs
  · exact must_bind_reserved fun _ _ => must_bind_reserved fun _ _ =>
      bind_of_reserved (bind_of_reserved (demand_of_ne (by omega)))
  · cases hs

/-! An extension word. -/

/-- The shifts by a count. -/
def isShiftCount : Shape → Bool
  | .shift _ .count => true
  | _ => false

/-- The extension word of the form `rd, rs` has nothing above the code of `rs` (30_encoding R96, D16). -/
theorem decodeShape_of_count_bits {w h : Half} {sh : Shape} (hs : isShiftCount sh = true) (hm : field w 14 14 = 1)
    (hh : field h 15 4 ≠ 0) (ext : List Half) : decodeShape w sh (h :: ext) = .error .reserved := by
  unfold isShiftCount at hs
  split at hs
  · refine must_bind_reserved fun _ _ => must_bind_reserved fun _ _ =>
      bind_of_reserved (must_bind_reserved fun _ _ => ?_)
    show (if field w 14 14 = 0 then _ else _) = _
    rw [if_neg (by omega)]
    exact bind_of_reserved (demand_of_ne hh)
  · cases hs

/-- The rows of PSH and PUL whose list holds PC (30_encoding R90). -/
def isSlotP : Shape → Bool
  | .psh .pp | .pul .pp => true
  | _ => false

/-- PC is pushed and pulled at size `l` alone (45_move R245, D36). -/
theorem decodeSlot_of_pc {w : Half} (hpc : field w 14 13 = 3) (hsz : field w 9 8 ≠ 2) :
    decodeSlot w .pp = .error .reserved := by
  refine demand_bind_reserved (must_bind_reserved fun sz hs => ?_)
  rw [hpc]
  refine must_bind_reserved fun rd hrd => must_bind_reserved fun rs _ => bind_of_reserved ?_
  cases hrd
  have hne : sz ≠ .l := by
    rintro rfl
    have := codeOf_of_nameOf distinct_listDD hs
    exact hsz (Option.some.inj this.symm)
  cases sz with
  | l => exact absurd rfl hne
  | b | w => rfl

theorem decodeShape_of_pc_size {w : Half} {sh : Shape} (hs : isSlotP sh = true) (hpc : field w 14 13 = 3)
    (hsz : field w 9 8 ≠ 2) (ext : List Half) : decodeShape w sh ext = .error .reserved := by
  unfold isSlotP at hs
  split at hs
  · exact bind_of_reserved (decodeSlot_of_pc hpc hsz)
  · exact bind_of_reserved (decodeSlot_of_pc hpc hsz)
  · cases hs

/-! An 8-bit immediate with a nonzero upper byte (30_encoding R91, D15). -/

theorem takeImm_of_upper {h : Half} (hh : h.toNat / 256 ≠ 0) (ext : List Half) :
    takeImm .b (h :: ext) = .error .immediate := by
  rw [takeImm, takeHalf, ok_bind]
  exact if_neg hh

/-- The row `rd, #imm` of an 8-bit operation: what stands before the immediate, the immediate, and the term. -/
theorem decodeShape_of_imm_byte {w : Half} {sh : Shape} (hi : isImm sh = true) (h0 : field w 9 8 = 0) :
    ∃ (pre : Except Reject (Option AluOp)) (mk : Option AluOp → Reg → Word → Instr), ∀ ext,
      decodeShape w sh ext = (do
        let op ← pre
        let (rd, v, rest) ← decodeImm w .b ext
        .ok (mk op rd v, rest)) := by
  have hsz : sizeField w = .ok .b := by rw [sizeField, h0]; rfl
  unfold isImm at hi
  split at hi
  next p =>
    refine ⟨(must (nameOf p.list (field w 15 15))).map some, fun op rd v => .alu (op.getD .ora) .b (.imm rd v), ?_⟩
    intro ext
    rw [decodeShape, decodeAlu, hsz]
    cases must (nameOf p.list (field w 15 15)) <;> rfl
  next =>
    refine ⟨(demand (field w 15 15 == 0)).map fun _ => none, fun _ rd v => .ldr .b (.imm rd v), ?_⟩
    intro ext
    rw [decodeShape, hsz]
    cases demand (field w 15 15 == 0) <;> rfl
  next => cases hi

/-- The immediate is read last: where a good one makes an instruction, a bad one is the only thing wrong. -/
theorem decodeShape_of_upper {w h : Half} {sh : Shape} (hi : isImm sh = true) (h0 : field w 9 8 = 0)
    (hh : h.toNat / 256 ≠ 0) (ext : List Half) :
    (∀ x, decodeShape w sh (h :: ext) ≠ .ok x) ∧
      ∀ (h' : Half) (x : Instr × List Half), decodeShape w sh (h' :: ext) = .ok x →
        decodeShape w sh (h :: ext) = .error .immediate := by
  obtain ⟨pre, mk, hdec⟩ := decodeShape_of_imm_byte hi h0
  refine ⟨fun x hx => ?_, fun h' x hx => ?_⟩
  · rw [hdec] at hx
    obtain ⟨_, -, hx⟩ := bind_eq_ok.mp hx
    obtain ⟨_, himm, -⟩ := bind_eq_ok.mp hx
    obtain ⟨_, -, himm⟩ := bind_eq_ok.mp himm
    obtain ⟨_, -, himm⟩ := bind_eq_ok.mp himm
    obtain ⟨_, himm, -⟩ := bind_eq_ok.mp himm
    rw [takeImm_of_upper hh] at himm
    cases himm
  · rw [hdec] at hx ⊢
    obtain ⟨op, hop, hx⟩ := bind_eq_ok.mp hx
    obtain ⟨_, himm, -⟩ := bind_eq_ok.mp hx
    obtain ⟨rd, hrd, himm⟩ := bind_eq_ok.mp himm
    obtain ⟨_, hbit, -⟩ := bind_eq_ok.mp himm
    rw [hop, ok_bind, decodeImm, hrd, ok_bind, hbit, ok_bind, takeImm_of_upper hh]
    rfl

/-- Settles O6: a clause per fixed field, each by the rows its low bytes select. -/
theorem reservedFixedBits : Obligations.ReservedFixedBits := by
  intro w ext lo
  have hw := w.isLt
  refine ⟨?undocumented, ?bit10, ?shiftM, ?jmp, ?stack, ?bit15, ?count, ?slot, ?imm⟩
  case undocumented =>
    intro hlo
    have none : ∀ b ∈ [0x04, 0x07, 0x0C, 0x14, 0x17, 0x1A, 0x27, 0x37, 0x47, 0x57, 0x5A, 0x67, 0x77, 0x7A, 0x80, 0x82,
        0x83, 0x87, 0x89, 0x8B, 0x93, 0x97, 0x9B, 0xA0, 0xA2, 0xA3, 0xA7, 0xAB, 0xB3, 0xB7, 0xBB, 0xBF, 0xC0, 0xC1,
        0xC2, 0xC3, 0xC4, 0xC5, 0xC7, 0xC9, 0xCB, 0xCC, 0xCD, 0xCF, 0xD1, 0xD3, 0xD4, 0xD5, 0xD7, 0xD9, 0xDA, 0xDB,
        0xDC, 0xDD, 0xDF, 0xE0, 0xE2, 0xE4, 0xE7, 0xEC, 0xF4, 0xF7, 0xFA], shapeOf b = none := by decide +kernel
    exact decode_of_undocumented (none lo hlo) ext
  case bit10 =>
    intro hlo hb
    obtain ⟨sh, hs, hp⟩ := shape_of_lows (p := isImm) (by decide +kernel) hlo
    rw [decode_of_shapeOf hs]
    exact decodeShape_of_bit10 hp (by simpa [field] using hb) ext
  case shiftM =>
    intro hlo hb
    obtain ⟨sh, hs, hp⟩ := shape_of_lows (p := isShiftOne) (by decide +kernel) hlo
    rw [decode_of_shapeOf hs]
    exact decodeShape_of_shift_m hp (by simpa [field] using hb) ext
  case jmp =>
    intro hlo hb
    obtain ⟨sh, hs, hp⟩ := shape_of_lows (p := isJmp) (by decide +kernel) hlo
    rw [decode_of_shapeOf hs]
    exact decodeShape_of_jmp_bits hp (by simp only [field]; omega) ext
  case stack =>
    intro hlo hb
    obtain ⟨sh, hs, hp⟩ := shape_of_lows (p := isFormatK) (by decide +kernel) hlo
    rw [decode_of_shapeOf hs]
    exact decodeShape_of_stack_bits hp (by simp only [field]; omega) ext
  case bit15 =>
    intro hlo hb
    obtain ⟨sh, hs, hp⟩ := shape_of_lows (p := bit15Zero) (by decide +kernel) hlo
    rw [decode_of_shapeOf hs]
    exact decodeShape_of_bit15 hp (by simp only [field]; omega) ext
  case count =>
    intro hlo hm h hh
    obtain ⟨sh, hs, hp⟩ := shape_of_lows (p := isShiftCount) (by decide +kernel) hlo
    rw [decode_of_shapeOf hs]
    have := h.isLt
    exact decodeShape_of_count_bits hp (by simpa [field] using hm) (by simp only [field]; omega) ext
  case slot =>
    intro hlo hpc hsz
    obtain ⟨sh, hs, hp⟩ := shape_of_lows (p := isSlotP) (by decide +kernel) hlo
    rw [decode_of_shapeOf hs]
    exact decodeShape_of_pc_size hp (by simpa [field] using hpc) (by simpa [field] using hsz) ext
  case imm =>
    intro hlo h0 h hh
    obtain ⟨sh, hs, hp⟩ := shape_of_lows (p := isImm) (by decide +kernel) hlo
    simp only [decode_of_shapeOf hs]
    exact decodeShape_of_upper hp (by simpa [field] using h0) hh ext

/-- Settles O8: each word is read by the row of its low byte. -/
theorem writtenWords : Obligations.WrittenWords :=
  ⟨rfl, rfl, rfl, rfl, rfl, rfl, rfl, rfl, rfl, rfl, rfl, rfl, rfl⟩

end Sys2Proof.CodecFacts
end

section
/-! PROOFS. The bits of P other than C, Z, V and N have no effect (10_state R29, R32): inverting them commutes with
every update of the state, so with every shared meaning of an instruction that does not name P. -/

namespace Sys2Proof.FlipFacts

open Sys2Proof.Machine Sys2Proof.FamilyFacts

/-- The bits are clear at C, Z, V and N. -/
def Clear (bits : Word) : Prop :=
  ∀ k ∈ [Params.flagC, Params.flagZ, Params.flagV, Params.flagN], bits.getLsbD k = false

/-! What the inversion leaves alone. -/

section
variable (s : State) (bits : Word)

theorem reg_flipP_ne {r : Reg} (h : r ≠ .p) : (s.flipP bits).reg r = s.reg r := by
  rw [State.flipP, State.reg_setReg, if_neg h]

theorem readReg_flipP_ne {r : Reg} (h : r ≠ .p) (sz : Size) : (s.flipP bits).readReg r sz = s.readReg r sz := by
  rw [State.readReg, reg_flipP_ne s bits h]
  rfl

@[simp] theorem nextPc_flipP (n : Nat) : (s.flipP bits).nextPc n = s.nextPc n := rfl
@[simp] theorem load_flipP (a : Addr) (sz : Size) : (s.flipP bits).load a sz = s.load a sz := rfl

theorem indexValue_flipP {ri : Index} (h : ri ≠ .reg .p) (next : Addr) :
    (s.flipP bits).indexValue next ri = s.indexValue next ri := by
  cases ri with
  | zero | pc => rfl
  | reg r => exact reg_flipP_ne s bits fun e => h (e ▸ rfl)

theorem effAddr_flipP {m : MemOp} (h : m.index ≠ .reg .p) (next : Addr) :
    (s.flipP bits).effAddr next m = s.effAddr next m := by
  have hx := indexValue_flipP s bits h next
  cases m <;> simp only [MemOp.index] at hx <;> simp only [State.effAddr, load_flipP, hx]

theorem readMem_flipP {m : MemOp} (h : m.index ≠ .reg .p) (next : Addr) (sz : Size) :
    (s.flipP bits).readMem next m sz = s.readMem next m sz := by
  simp only [State.readMem, effAddr_flipP s bits h, load_flipP]

theorem flag_flipP {i : Nat} (h : bits.getLsbD i = false) : (s.flipP bits).flag i = s.flag i := by
  rw [State.flag, State.flipP, State.reg_setReg, if_pos rfl, BitVec.getLsbD_xor, h, Bool.xor_false]
  rfl

/-! The inversion and the updates commute. -/

theorem setPc_flipP (a : Addr) : (s.flipP bits).setPc a = (s.setPc a).flipP bits := rfl

theorem setReg_flipP {r : Reg} (h : r ≠ .p) (v : Word) :
    (s.flipP bits).setReg r v = (s.setReg r v).flipP bits := by
  cases r with
  | p => exact absurd rfl h
  | _ => rfl

theorem writeReg_flipP {r : Reg} (h : r ≠ .p) (sz : Size) (v : Word) :
    (s.flipP bits).writeReg r sz v = (s.writeReg r sz v).flipP bits := by
  cases sz with
  | l => exact setReg_flipP s bits h v
  | b | w => exact congrArg State.draw (setReg_flipP s bits h _)

theorem setBit_xor (x m : Word) {i : Nat} (b : Bool) (hi : i < 32) (h : m.getLsbD i = false) :
    setBit (x ^^^ m) i b = setBit x i b ^^^ m := by
  refine BitVec.eq_of_getLsbD_eq fun j _ => ?_
  rw [BitVec.getLsbD_xor, getLsbD_setBit _ _ _ _ hi, getLsbD_setBit _ _ _ _ hi, BitVec.getLsbD_xor]
  by_cases hj : j = i
  · rw [if_pos hj, if_pos hj, hj, h, Bool.xor_false]
  · rw [if_neg hj, if_neg hj]

theorem setFlag_flipP {i : Nat} (b : Bool) (hi : i < 32) (h : bits.getLsbD i = false) :
    (s.flipP bits).setFlag i b = (s.setFlag i b).flipP bits := by
  have hp : (s.flipP bits).reg .p = s.reg .p ^^^ bits := by rw [State.flipP, State.reg_setReg, if_pos rfl]
  have hq : (s.setFlag i b).reg .p = setBit (s.reg .p) i b := by rw [State.setFlag, State.reg_setReg, if_pos rfl]
  rw [State.setFlag, hp, setBit_xor _ _ _ hi h, State.flipP, State.flipP, hq]
  rfl

end

section
variable {bits : Word} (hb : Clear bits) (s : State)
include hb

theorem cond_flipP (c : Cond) : (s.flipP bits).cond c = s.cond c := by
  simp only [State.cond, flag_flipP s bits (hb Params.flagN (by simp)), flag_flipP s bits (hb Params.flagZ (by simp)),
    flag_flipP s bits (hb Params.flagC (by simp)), flag_flipP s bits (hb Params.flagV (by simp))]

theorem setNZ_flipP (v : Word) (sz : Size) : (s.flipP bits).setNZ v sz = (s.setNZ v sz).flipP bits := by
  rw [State.setNZ, setFlag_flipP _ _ _ (by decide) (hb _ (by simp)), setFlag_flipP _ _ _ (by decide) (hb _ (by simp))]
  rfl

theorem setCV_flipP (c v : Bool) : (s.flipP bits).setCV c v = (s.setCV c v).flipP bits := by
  rw [State.setCV, setFlag_flipP _ _ _ (by decide) (hb _ (by simp)), setFlag_flipP _ _ _ (by decide) (hb _ (by simp))]
  rfl

theorem putCV_flipP (cv : Option (Bool × Bool)) : (s.flipP bits).putCV cv = (s.putCV cv).flipP bits := by
  cases cv with
  | none => rfl
  | some x => exact setCV_flipP hb s x.1 x.2

theorem shiftFlags_flipP (r : Word) (c : Bool) (sz : Size) :
    (s.flipP bits).shiftFlags r c sz = (s.shiftFlags r c sz).flipP bits := by
  rw [State.shiftFlags, setFlag_flipP _ _ _ (by decide) (hb _ (by simp)), setNZ_flipP hb]
  rfl

theorem movFlags_flipP (v : Word) (sz : Size) : (s.flipP bits).movFlags v sz = (s.movFlags v sz).flipP bits := by
  rw [State.movFlags, setNZ_flipP hb, setCV_flipP hb]
  rfl

end

/-! The operations that may refuse. -/

theorem bind_map {α β γ : Type} (x : Except Refusal α) (g : α → β) (f : β → Except Refusal γ) :
    ((x.map g) >>= f) = (x >>= fun a => f (g a)) := by cases x <;> rfl

theorem map_bind {α β γ : Type} (x : Except Refusal α) (f : α → Except Refusal β) (g : β → γ) :
    (x >>= f).map g = (x >>= fun a => (f a).map g) := by cases x <;> rfl

theorem outcome_map (x : Except Refusal State) (g : State → State) :
    outcome (x.map g) = Result.mapNext g (outcome x) := by cases x <;> rfl

section
variable (s : State) (bits : Word)

theorem store_flipP (a : Addr) (sz : Size) (v : Word) :
    (s.flipP bits).store a sz v = (s.store a sz v).map fun t => t.flipP bits := by
  rw [State.store, State.store, map_bind]
  refine congrArg₂ _ rfl (funext fun _ => ?_)
  show (if anyIn s.text a sz.units then _ else _) = _
  split <;> rfl

theorem push_flipP {r : Reg} (h : r ≠ .p) (sz : Size) (v : Word) :
    (s.flipP bits).push r sz v = (s.push r sz v).map fun t => t.flipP bits := by
  simp only [State.push, store_flipP, bind_map, map_bind, reg_flipP_ne s bits h, setReg_flipP _ bits h]
  rfl

theorem pull_flipP {r : Reg} (h : r ≠ .p) (sz : Size) :
    (s.flipP bits).pull r sz = (s.pull r sz).map fun x => (x.1, x.2.flipP bits) := by
  simp only [State.pull, load_flipP, map_bind, reg_flipP_ne s bits h, setReg_flipP _ bits h]
  rfl

end

/-! The shared meanings. -/

theorem isGeneral_ne {r : Reg} (h : r.isGeneral = true) : r ≠ .p := by rintro rfl; cases h

theorem admits_ne {l : IxList} {ri : Index} (h : l.admits ri = true) : ri ≠ .reg .p := by
  rintro rfl
  cases l <;> cases h

theorem indexWf_ne {m : MemOp} (h : m.indexWf = true) : m.index ≠ .reg .p := by
  cases m <;> exact admits_ne h

theorem stackWf_ne {r : Reg} (h : stackWf (.reg r) = true) : r ≠ .p := by rintro rfl; cases h

theorem ne_of_isA {r : Reg} (h : r.isA = true) : r ≠ .p := by rintro rfl; cases h

/-- A register that one of the operand groups names is not P. -/
theorem ne_of_groups {r : Reg} (h : (r.isA || r.isX || r.isY) = true) : r ≠ .p := by rintro rfl; cases h

section
variable {bits : Word} (hb : Clear bits) (s : State)
include hb

theorem unaryMeaning_flipP (fn : Size → Word → Word) (sz : Size) {f : UnaryForm} (h : f.wf = true) :
    unaryMeaning fn sz f (s.flipP bits) = Result.mapNext (fun t => t.flipP bits) (unaryMeaning fn sz f s) := by
  cases f with
  | reg rd =>
    have hp := isGeneral_ne h
    simp only [unaryMeaning_reg, readReg_flipP_ne s bits hp, nextPc_flipP, writeReg_flipP _ _ hp, setNZ_flipP hb,
      setPc_flipP]
    rfl
  | mem m =>
    have hi := indexWf_ne (Laws.modifyWf_index h)
    simp only [unaryMeaning, nextPc_flipP, effAddr_flipP s bits hi, load_flipP, store_flipP, bind_map, setNZ_flipP hb,
      setPc_flipP, ← outcome_map, map_bind]
    rfl

omit hb in
theorem aluSource_flipP (next : Addr) (sz : Size) {f : AluForm} (h : f.wf sz = true) :
    (s.flipP bits).aluSource next sz f = s.aluSource next sz f := by
  cases f with
  | reg rd rs =>
    have hs : rs ≠ .p := by
      rintro rfl
      exact absurd (Bool.and_eq_true_iff.mp h).2 (by decide)
    simp only [State.aluSource, readReg_flipP_ne s bits hs]
  | imm rd v => rfl
  | mem rd m => exact readMem_flipP s bits (indexWf_ne (Bool.and_eq_true_iff.mp h).1) next sz

omit hb in
theorem aluDest_ne {sz : Size} {f : AluForm} (h : f.wf sz = true) : aluDest f ≠ .p := by
  cases f with
  | reg rd rs => exact ne_of_groups (Bool.and_eq_true_iff.mp h).1
  | imm rd v => exact isGeneral_ne (Bool.and_eq_true_iff.mp h).1
  | mem rd m =>
    rintro (rfl : rd = .p)
    obtain ⟨g, hg, -⟩ := Laws.row_alu h
    cases hg

theorem aluMeaning_flipP (fn : AluFn) (sz : Size) {f : AluForm} (h : f.wf sz = true) :
    aluMeaning fn sz f (s.flipP bits) = Result.mapNext (fun t => t.flipP bits) (aluMeaning fn sz f s) := by
  have hd := aluDest_ne h
  simp only [aluMeaning, nextPc_flipP, aluSource_flipP s _ sz h, readReg_flipP_ne s bits hd,
    flag_flipP s bits (hb Params.flagC (by simp)), writeReg_flipP _ _ hd, putCV_flipP hb, setNZ_flipP hb, setPc_flipP,
    ← outcome_map, map_bind]
  rfl

theorem execBit_flipP (sz : Size) {f : TestForm} (h : f.wf = true) :
    execBit sz f (s.flipP bits) = Result.mapNext (fun t => t.flipP bits) (execBit sz f s) := by
  have hsource : ∀ next, (s.flipP bits).testSource next sz f = s.testSource next sz f := by
    intro next
    cases f with
    | reg rd rs =>
      have hs : rs ≠ .p := by
        rintro rfl
        exact absurd (Bool.and_eq_true_iff.mp h).2 (by decide)
      simp only [State.testSource, readReg_flipP_ne s bits hs]
    | mem rd m =>
      exact readMem_flipP s bits (indexWf_ne (Bool.and_eq_true_iff.mp (Bool.and_eq_true_iff.mp h).1).1) next sz
  have hd : testDest f ≠ .p := by
    cases f with
    | reg rd rs => exact ne_of_isA (Bool.and_eq_true_iff.mp h).1
    | mem rd m => exact ne_of_isA (Bool.and_eq_true_iff.mp (Bool.and_eq_true_iff.mp h).1).2
  have hflag (t : State) {i : Nat} (b : Bool) (hi : i < 32)
      (hm : i ∈ [Params.flagC, Params.flagZ, Params.flagV, Params.flagN]) :
      (t.flipP bits).setFlag i b = (t.setFlag i b).flipP bits := setFlag_flipP t bits b hi (hb i hm)
  simp only [execBit, nextPc_flipP, hsource, readReg_flipP_ne s bits hd, hflag _ _ (show Params.flagN < 32 by decide),
    hflag _ _ (show Params.flagV < 32 by decide), hflag _ _ (show Params.flagZ < 32 by decide), List.mem_cons, true_or,
    or_true, setPc_flipP, ← outcome_map, map_bind]
  rfl

theorem shiftReg_flipP (step : OpenStep) (sz : Size) {rd : Reg} (h : rd ≠ .p) (k : Nat) (next : Addr) :
    (s.flipP bits).shiftReg step sz rd k next = (s.shiftReg step sz rd k next).map fun t => t.flipP bits := by
  simp only [State.shiftReg, State.shiftValue, readReg_flipP_ne s bits h,
    flag_flipP s bits (hb Params.flagC (by simp)), writeReg_flipP _ _ h, shiftFlags_flipP hb, setPc_flipP, map_bind]
  rfl

theorem shiftMeaning_flipP (step : OpenStep) (sz : Size) {f : ShiftForm} (h : f.wf = true) :
    shiftMeaning step sz f (s.flipP bits) = Result.mapNext (fun t => t.flipP bits) (shiftMeaning step sz f s) := by
  cases f with
  | one rd | imm rd count =>
    simp only [shiftMeaning, ← outcome_map]
    exact congrArg outcome (shiftReg_flipP hb s step sz (isGeneral_ne h) _ _)
  | reg rd rs =>
    have hw := Bool.and_eq_true_iff.mp h
    simp only [shiftMeaning, ← outcome_map, reg_flipP_ne s bits (isGeneral_ne hw.2)]
    exact congrArg outcome (shiftReg_flipP hb s step sz (isGeneral_ne hw.1) _ _)
  | mem m nn =>
    have hi := indexWf_ne (Laws.modifyWf_index h)
    simp only [shiftMeaning, ← outcome_map, nextPc_flipP, effAddr_flipP s bits hi, load_flipP, State.shiftValue,
      flag_flipP s bits (hb Params.flagC (by simp)), store_flipP, bind_map, shiftFlags_flipP hb, setPc_flipP, map_bind]
    rfl

omit hb in
theorem link_flipP (link : Bool) (next : Addr) :
    (s.flipP bits).link link next = (s.link link next).map fun t => t.flipP bits := by
  cases link with
  | false => rfl
  | true => exact push_flipP s bits (by decide) .l next

theorem branchMeaning_flipP (c : Cond) {f : BranchForm} (h : f.wf = true) :
    branchMeaning c f (s.flipP bits) = Result.mapNext (fun t => t.flipP bits) (branchMeaning c f s) := by
  have hbase : f.base ≠ .reg .p := by
    intro e
    rw [BranchForm.wf, e] at h
    cases h
  have htarget (t : State) (next : Addr) : (t.flipP bits).branchTarget f next = t.branchTarget f next := by
    simp only [State.branchTarget, indexValue_flipP t bits hbase, load_flipP]
  simp only [branchMeaning, nextPc_flipP, cond_flipP hb, ← outcome_map, link_flipP, bind_map, htarget]
  split
  · simp only [setPc_flipP, map_bind]
    rfl
  · rfl

omit hb in
theorem bitMeaning_flipP (fn : Word → Word → Word) {f : BitForm} (b : BitVec 5) (h : f.wf = true) (hp : f ≠ .reg .p) :
    bitMeaning fn f b (s.flipP bits) = Result.mapNext (fun t => t.flipP bits) (bitMeaning fn f b s) := by
  cases f with
  | reg rd =>
    have hd : rd ≠ .p := fun e => hp (e ▸ rfl)
    simp only [bitMeaning_reg, nextPc_flipP, reg_flipP_ne s bits hd, setReg_flipP _ _ hd, setPc_flipP]
    rfl
  | mem a ri =>
    have hi : ri ≠ .reg .p := by rintro rfl; cases h
    simp only [bitMeaning, nextPc_flipP, State.bitAddr, indexValue_flipP s bits hi, load_flipP, store_flipP, bind_map,
      setPc_flipP, ← outcome_map, map_bind]
    rfl

theorem execTbt_flipP {f : BitForm} (b : BitVec 5) (h : f.wf = true) (hp : f ≠ .reg .p) :
    execTbt f b (s.flipP bits) = Result.mapNext (fun t => t.flipP bits) (execTbt f b s) := by
  have hop : ∀ next, (s.flipP bits).bitOperand next f = s.bitOperand next f := by
    intro next
    cases f with
    | reg rd => exact congrArg Except.ok (reg_flipP_ne s bits fun e => hp (e ▸ rfl))
    | mem a ri =>
      have hi : ri ≠ .reg .p := by rintro rfl; cases h
      simp only [State.bitOperand, State.bitAddr, indexValue_flipP s bits hi, load_flipP]
  simp only [execTbt, nextPc_flipP, hop, setFlag_flipP s bits _ (show Params.flagZ < 32 by decide) (hb _ (by simp)),
    setPc_flipP, ← outcome_map, map_bind]
  rfl

theorem execLdr_flipP (sz : Size) {f : LoadForm} (h : f.wf sz = true) :
    execLdr sz f (s.flipP bits) = Result.mapNext (fun t => t.flipP bits) (execLdr sz f s) := by
  have hsource : ∀ next, (s.flipP bits).loadSource next sz f = s.loadSource next sz f := by
    intro next
    cases f with
    | imm rd v => rfl
    | mem rd m => exact readMem_flipP s bits (indexWf_ne (Bool.and_eq_true_iff.mp h).1) next sz
  have hd : loadDest f ≠ .p := by
    cases f with
    | imm rd v => exact isGeneral_ne (Bool.and_eq_true_iff.mp h).1
    | mem rd m =>
      rintro (rfl : rd = .p)
      obtain ⟨g, hg, -⟩ := Laws.row_move h
      cases hg
  simp only [execLdr, nextPc_flipP, hsource, writeReg_flipP _ _ hd, setNZ_flipP hb, setPc_flipP, ← outcome_map, map_bind]
  rfl

theorem execMov_flipP (sz : Size) (row : MovRow) {rd rs : Reg} (hd : rd ≠ .p) (hs : rs ≠ .p) :
    execMov sz row rd rs (s.flipP bits) = Result.mapNext (fun t => t.flipP bits) (execMov sz row rd rs s) := by
  simp only [execMov, if_neg hd, readReg_flipP_ne s bits hs, writeReg_flipP _ _ hd, movFlags_flipP hb, nextPc_flipP,
    setPc_flipP]
  rfl

theorem execPsh_flipP (sz : Size) {rd : Slot} {rs : Index} (hs : stackWf rs = true) (hd : rd ≠ .reg .p) :
    execPsh sz rd rs (s.flipP bits) = Result.mapNext (fun t => t.flipP bits) (execPsh sz rd rs s) := by
  have hv (next : Addr) : (s.flipP bits).slotValue next sz rd = s.slotValue next sz rd := by
    cases rd with
    | pc => rfl
    | reg r => exact readReg_flipP_ne s bits (fun e => hd (e ▸ rfl)) sz
  cases rs with
  | zero | pc => rfl
  | reg r =>
    simp only [execPsh, stackReg, ok_bind, nextPc_flipP, hv, push_flipP s bits (stackWf_ne hs), bind_map,
      setNZ_flipP hb, setPc_flipP, ← outcome_map, map_bind]
    rfl

theorem execPul_flipP (sz : Size) {rd : Slot} {rs : Index} (hs : stackWf rs = true) (hd : rd ≠ .reg .p) :
    execPul sz rd rs (s.flipP bits) = Result.mapNext (fun t => t.flipP bits) (execPul sz rd rs s) := by
  cases rs with
  | zero | pc => rfl
  | reg r =>
    simp only [execPul, stackReg, ok_bind, nextPc_flipP, pull_flipP s bits (stackWf_ne hs), bind_map,
      setNZ_flipP hb, setPc_flipP, ← outcome_map, map_bind]
    refine congrArg outcome (congrArg _ (funext fun x => ?_))
    split
    · rfl
    · exact absurd rfl hd
    next r' hne =>
      have hp : r' ≠ .p := fun e => hd (e ▸ rfl)
      simp only [writeReg_flipP _ _ hp, setNZ_flipP hb, setPc_flipP]
      rfl

theorem execStr_flipP (sz : Size) {rd : Reg} {m : MemOp} (h : moveMemWf rd m = true) :
    execStr sz rd m (s.flipP bits) = Result.mapNext (fun t => t.flipP bits) (execStr sz rd m s) := by
  have hi := indexWf_ne (Bool.and_eq_true_iff.mp h).1
  have hd : rd ≠ .p := by
    rintro rfl
    obtain ⟨g, hg, -⟩ := Laws.row_move h
    cases hg
  simp only [execStr, nextPc_flipP, effAddr_flipP s bits hi, readReg_flipP_ne s bits hd, store_flipP, bind_map,
    setNZ_flipP hb, setPc_flipP, ← outcome_map, map_bind]
  rfl

omit hb in
theorem execJsr_flipP {rs : Index} (a : Word) (hs : stackWf rs = true) :
    execJsr rs a (s.flipP bits) = Result.mapNext (fun t => t.flipP bits) (execJsr rs a s) := by
  cases rs with
  | zero | pc => rfl
  | reg r =>
    simp only [execJsr, stackReg, ok_bind, nextPc_flipP, push_flipP s bits (stackWf_ne hs), bind_map, setPc_flipP,
      ← outcome_map, map_bind]
    rfl

omit hb in
theorem execRts_flipP {rs : Index} (hs : stackWf rs = true) :
    execRts rs (s.flipP bits) = Result.mapNext (fun t => t.flipP bits) (execRts rs s) := by
  cases rs with
  | zero | pc => rfl
  | reg r =>
    simp only [execRts, stackReg, ok_bind, pull_flipP s bits (stackWf_ne hs), bind_map, setPc_flipP, ← outcome_map,
      map_bind]
    rfl

omit hb in
theorem execJmp_flipP (f : JumpForm) :
    execJmp f (s.flipP bits) = Result.mapNext (fun t => t.flipP bits) (execJmp f s) := by
  cases f with
  | direct a => rfl
  | indirect a =>
    simp only [execJmp, load_flipP, setPc_flipP, ← outcome_map, map_bind]
    rfl

end

/-! Which operands name P. -/

theorem ne_of_namesP_bitop {op : BitOp} {f : BitForm} {b : BitVec 5} (h : namesP (.bitop op f b) = false) :
    f ≠ .reg .p := by
  rintro rfl
  cases op <;> cases h

/-- Settles O26, family by family: BRK and RTI move P, and every other instruction commutes with the inversion. -/
theorem otherBitsOfPHaveNoEffect : Obligations.OtherBitsOfPHaveNoEffect := by
  intro i s bits hw hp (hb : Clear bits)
  induction i using instr_cases with
  | unary op sz f =>
    rw [CodecFacts.wf_unary] at hw
    rw [exec_unary, exec_unary]
    exact unaryMeaning_flipP hb s _ sz hw
  | alu op sz f =>
    rw [CodecFacts.wf_alu] at hw
    rw [exec_alu, exec_alu]
    exact aluMeaning_flipP hb s _ sz hw
  | bit sz f => exact execBit_flipP hb s sz hw
  | shift op sz f =>
    rw [CodecFacts.wf_shift] at hw
    rw [exec_shift, exec_shift, shiftMeaning_flipP hb s _ sz hw]
    show (stepMissing s op).elim _ _ = _
    cases stepMissing s op <;> rfl
  | branch c f =>
    rw [CodecFacts.wf_branch] at hw
    rw [exec_branch, exec_branch]
    exact branchMeaning_flipP hb s c hw
  | brk w q v => cases hp
  | jmp f => exact execJmp_flipP s f
  | jsr rs a => exact execJsr_flipP s a hw
  | nop n => rfl
  | rti rs => cases hp
  | rts rs => exact execRts_flipP s hw
  | bitop op f b =>
    rw [CodecFacts.wf_bitop] at hw
    have hf := ne_of_namesP_bitop hp
    by_cases hop : op = .tbt
    · subst hop
      exact execTbt_flipP hb s b hw hf
    · rw [exec_bitop hop, exec_bitop hop]
      exact bitMeaning_flipP s _ b hw hf
  | ldr sz f => exact execLdr_flipP hb s sz hw
  | mov sz row rd rs =>
    obtain ⟨hd, hs⟩ : rd ≠ .p ∧ rs ≠ .p := by simpa [namesP] using hp
    exact execMov_flipP hb s sz row hd hs
  | psh sz rd rs =>
    exact execPsh_flipP hb s sz (Bool.and_eq_true_iff.mp hw).2 (by rintro rfl; cases hp)
  | pul sz rd rs =>
    exact execPul_flipP hb s sz (Bool.and_eq_true_iff.mp hw).2 (by rintro rfl; cases hp)
  | str sz rd m => exact execStr_flipP hb s sz hw

end Sys2Proof.FlipFacts
end

section
/-! PROOFS. Memory and the stack primitives (20_memory): what a load and a store do, which accesses are refused, and
that push and pull undo one another. -/

namespace Sys2Proof.MemoryFacts

open Sys2Proof.Machine Sys2Proof.FamilyFacts Sys2Proof.FrameFacts

/-! Accesses as their bytes. -/

theorem peek_b (s : State) (a : Addr) : s.peek a .b = (s.byte a).setWidth 32 := joinBytes_one _

theorem peek_w (s : State) (a : Addr) : s.peek a .w = (s.byte (a + 1) ++ s.byte a).setWidth 32 := joinBytes_two _ _

theorem peek_l (s : State) (a : Addr) :
    s.peek a .l = s.byte (a + 3) ++ s.byte (a + 2) ++ s.byte (a + 1) ++ s.byte a := by
  have h2 : a + 1 + 1 = a + 2 := by rw [BitVec.add_assoc]; rfl
  have h3 : a + 2 + 1 = a + 3 := by rw [BitVec.add_assoc]; rfl
  rw [State.peek_eq]
  simp only [Size.bytes, Memory.readBytes, h2, h3]
  exact joinBytes_four _ _ _ _

/-- Settles O15: a readable access is loaded, and its value is its bytes joined. -/
theorem loadBytes : Obligations.LoadBytes := fun s a =>
  ⟨fun h => ⟨_, State.load_of_readable h, peek_b s a⟩, fun h => ⟨_, State.load_of_readable h, peek_w s a⟩,
    fun h => ⟨_, State.load_of_readable h, peek_l s a⟩⟩

/-- The frame of a store: its bytes alone. -/
theorem frame_poke {s : State} {a : Addr} {sz : Size} (v : Word) (h : Writable s a sz) :
    Frame [] [] [(a, sz.bytes)] s (s.poke a sz v) := Frame.poke v h (covered_of_mem (by simp))

/-- Settles O16: a writable access is stored, byte by byte. -/
theorem storeBytes : Obligations.StoreBytes := by
  intro s a sz v hs hw
  have frame := frame_poke v hw
  exact ⟨_, State.store_of_writable hw, State.byte_poke hs a sz v, frame.memExcept, frame.regsExcept_of_no_flags,
    frame.launch, rfl⟩

/-- A narrower access inside a readable one, where it is aligned, is readable. -/
theorem readable_inside {s : State} {a : Addr} {sz sz' : Size} {k : Nat} (h : Readable s a sz)
    (hk : k + sz'.bytes ≤ sz.bytes) (ha : (a + BitVec.ofNat 32 k).toNat % sz'.bytes = 0) :
    Readable s (a + BitVec.ofNat 32 k) sz' := by
  refine ⟨ha, fun j hj => ?_⟩
  rw [BitVec.add_assoc, ← BitVec.ofNat_add]
  exact h.2 (k + j) (by omega)

/-- Settles O17: the bytes of the wide store, read one and two at a time. -/
theorem mixedWidths : Obligations.MixedWidths := by
  intro s a v hs hw
  have halign : a.toNat % 4 = 0 := hw.1.1
  have hb : Readable s (a + 1) .b := readable_inside (sz' := .b) (k := 1) hw.1 (by decide) (Nat.mod_one _)
  have hh : Readable s (a + 2) .w := readable_inside (sz' := .w) (k := 2) hw.1 (by decide) (by
    simp only [BitVec.toNat_add, BitVec.toNat_ofNat, Size.bytes]
    omega)
  have h1 : (s.poke a .l v).byte (a + 1) = (v >>> 8).setWidth 8 := State.byte_poke hs a .l v 1 (by decide)
  have h2 : (s.poke a .l v).byte (a + 2) = (v >>> 16).setWidth 8 := State.byte_poke hs a .l v 2 (by decide)
  have h3 : (s.poke a .l v).byte (a + 2 + 1) = (v >>> 24).setWidth 8 := by
    rw [BitVec.add_assoc]
    exact State.byte_poke hs a .l v 3 (by decide)
  refine ⟨_, State.store_of_writable hw, ?byte, ?half⟩
  case byte =>
    rw [State.load_of_readable (s := s.poke a .l v) hb, peek_b, h1]
    congr 1
    refine BitVec.eq_of_getLsbD_eq fun i hi => ?_
    rw [BitVec.getLsbD_setWidth, BitVec.getLsbD_setWidth, BitVec.getLsbD_and]
    interval_cases i <;> simp
  case half =>
    rw [State.load_of_readable (s := s.poke a .l v) hh, peek_w, h2, h3]
    congr 1
    refine BitVec.eq_of_getLsbD_eq fun i hi => ?_
    rw [BitVec.getLsbD_setWidth, BitVec.getLsbD_append]
    interval_cases i <;> simp

/-! Refused accesses. -/

theorem store_of_access_error {s : State} {a : Addr} {sz : Size} {v : Word} {r : Refusal}
    (h : s.access a sz = .error r) : s.load a sz = .error r ∧ s.store a sz v = .error r := by
  rw [State.load, State.store, h]
  exact ⟨rfl, rfl⟩

theorem access_of_misaligned {s : State} {a : Addr} {sz : Size} (h : a.toNat % sz.bytes ≠ 0) :
    s.access a sz = .error .misaligned := by rw [State.access_eq, if_pos h]

theorem access_of_unmapped {s : State} {a : Addr} {sz : Size} (h : a.toNat % sz.bytes = 0) (hr : ¬ Readable s a sz) :
    s.access a sz = .error .unmapped := by
  rw [State.access_eq, if_neg (by simpa using h), if_neg]
  rw [allIn_iff]
  exact fun hm => hr ⟨h, hm⟩

/-- An access that is not readable is not loaded. -/
theorem load_of_not_readable {s : State} {a : Addr} {sz : Size} (h : ¬ Readable s a sz) :
    ∃ r, s.load a sz = .error r := by
  cases hl : s.load a sz with
  | error r => exact ⟨r, rfl⟩
  | ok v => exact absurd (State.load_ok hl).1 h

theorem store_of_text {s : State} {a : Addr} {sz : Size} {v : Word} (hr : Readable s a sz) (hw : ¬ Writable s a sz) :
    s.store a sz v = .error .writeToText := by
  cases hs : s.store a sz v with
  | ok t => exact absurd (State.store_ok hs).1 hw
  | error r =>
    rcases State.store_error hs with h | rfl
    · rw [(State.access_ok_iff s a sz).2 hr] at h
      cases h
    · rfl

/-- Settles O18: the checks in their order. -/
theorem accessRefusals : Obligations.AccessRefusals := fun _ _ _ _ =>
  ⟨fun h => store_of_access_error (access_of_misaligned h),
    fun h hr => store_of_access_error (access_of_unmapped h hr), store_of_text⟩

/-! Stacks. -/

theorem pushAddr_eq (t : Word) (sz : Size) : pushAddr t sz = t - BitVec.ofNat 32 sz.bytes + 1 := rfl

/-- The state after a push on a writable stack. -/
def pushed (s : State) (r : Reg) (sz : Size) (v : Word) : State :=
  (s.poke (pushAddr (s.reg r) sz) sz v).setReg r (s.reg r - BitVec.ofNat 32 sz.bytes)

theorem push_eq_pushed {s : State} {r : Reg} {sz : Size} (h : Writable s (pushAddr (s.reg r) sz) sz) (v : Word) :
    s.push r sz v = .ok (pushed s r sz v) := State.push_of_writable h

@[simp] theorem reg_pushed_self (s : State) (r : Reg) (sz : Size) (v : Word) :
    (pushed s r sz v).reg r = s.reg r - BitVec.ofNat 32 sz.bytes := by simp [pushed]

theorem reg_pushed_ne (s : State) {r r' : Reg} (sz : Size) (v : Word) (h : r' ≠ r) :
    (pushed s r sz v).reg r' = s.reg r' := by simp [pushed, h]


/-- What was pushed stands in the bytes that end at the old pointer. -/
theorem peek_pushed {s : State} (hs : s.Inv) (r : Reg) (sz : Size) (v : Word) :
    (pushed s r sz v).peek (pushAddr (s.reg r) sz) sz = trunc sz v := State.peek_poke hs _ sz v

theorem frame_pushed {s : State} {r : Reg} {sz : Size} (h : Writable s (pushAddr (s.reg r) sz) sz) (v : Word)
    {R : List Reg} {F : List Nat} (hr : r ∈ R) : Frame R F [(pushAddr (s.reg r) sz, sz.bytes)] s (pushed s r sz v) :=
  Frame.push (push_eq_pushed h v) hr (covered_of_mem (by simp))

theorem inv_pushed {s : State} (hs : s.Inv) (r : Reg) (sz : Size) (v : Word) : (pushed s r sz v).Inv :=
  State.inv_poke hs _ sz v

/-- The bytes above the lowered pointer are those that were pushed. -/
theorem pointer_pushed (s : State) (r : Reg) (sz : Size) (v : Word) :
    (pushed s r sz v).reg r + 1 = pushAddr (s.reg r) sz := by rw [reg_pushed_self, pushAddr_eq]

/-- Pull gives the value above the pointer, wherever those bytes are the ones a push left. -/
theorem pull_after_push {s t : State} {r : Reg} {sz : Size} {v : Word} (hs : s.Inv)
    (hw : Writable s (pushAddr (s.reg r) sz) sz) (hreg : t.reg r = (pushed s r sz v).reg r)
    (hmapped : t.mapped = s.mapped) (hmem : t.mem = (pushed s r sz v).mem) :
    t.pull r sz = .ok (trunc sz v, t.setReg r (s.reg r)) := by
  have haddr : t.reg r + 1 = pushAddr (s.reg r) sz := by rw [hreg, pointer_pushed]
  have hread : Readable t (t.reg r + 1) sz := by
    rw [haddr, Readable, hmapped]
    exact hw.1
  have hpeek : t.peek (t.reg r + 1) sz = trunc sz v := by
    rw [haddr, ← peek_pushed hs r sz v, State.peek_eq, State.peek_eq, hmem]
  rw [State.pull_of_readable hread, hpeek, hreg, reg_pushed_self, BitVec.sub_add_cancel]

/-- Settles O19: the push stores and lowers, the pull that follows loads and raises. -/
theorem pushThenPull : Obligations.PushThenPull := by
  intro s r sz v hs hw
  have frame := frame_pushed (F := []) hw v (List.mem_singleton_self r)
  refine ⟨_, push_eq_pushed hw v, reg_pushed_self s r sz v, frame.regsExcept_of_no_flags,
    fun k hk => State.byte_poke hs _ sz v k hk, frame.memExcept, rfl,
    _, pull_after_push hs hw rfl rfl rfl, by simp, fun q _ => ?_, fun _ => rfl⟩
  by_cases hq : q = r
  · simp [hq]
  · rw [State.reg_setReg, if_neg hq, reg_pushed_ne s sz v hq]

end Sys2Proof.MemoryFacts
end

section
/-! PROOFS. The fetch and the step (00_scope R16, 20_memory R43, 10_state R27): what a step executes, and which fetches
are refused. -/

namespace Sys2Proof.StepFacts

open Sys2Proof.Machine Sys2Proof.FamilyFacts

/-! What a step answers, by what the fetch and the decoder answer. -/

section
variable {s : State} (hh : s.haltPc ≠ some s.pc)
include hh

theorem step_of_fetch_error {r : Refusal} (h : s.fetch = .error r) : step s = .refused r := by
  rw [step, if_neg hh, State.nextInstr, h]
  rfl

theorem step_of_decode {ws rest : List Half} {i : Instr} (hf : s.fetch = .ok ws) (hd : decode ws = .ok (i, rest)) :
    step s = exec i s := by
  rw [step, if_neg hh, State.nextInstr, hf, ok_bind, hd]
  rfl

theorem step_of_reject {ws : List Half} {r : Reject} (hf : s.fetch = .ok ws) (hd : decode ws = .error r) :
    step s = .refused (refusalOf r) := by
  rw [step, if_neg hh, State.nextInstr, hf, ok_bind, hd]
  rfl

end

/-- Settles O9: the step of a decoded word sequence is exec of what it decodes to. -/
theorem stepRunsDecoded : Obligations.StepRunsDecoded := fun _ _ _ _ hh hf hd => step_of_decode hh hf hd

/-! The end of the run. -/

theorem exec_ne_fault (i : Instr) (s : State) (f : Fault) : exec i s ≠ .fault f := by
  induction i using instr_cases with
  | unary op sz g => rw [exec_unary]; exact outcome_ne_fault _ f
  | alu op sz g => rw [exec_alu]; exact outcome_ne_fault _ f
  | shift op sz g =>
    rw [exec_shift]
    cases stepMissing s op with
    | none => exact outcome_ne_fault _ f
    | some r => exact nofun
  | branch c g => rw [exec_branch]; exact outcome_ne_fault _ f
  | brk w q v =>
    cases w with
    | false => exact outcome_ne_fault _ f
    | true => exact nofun
  | nop n => exact nofun
  | mov sz row rd rs => exact nofun
  | bitop op g b =>
    by_cases hop : op = .tbt
    · subst hop
      exact outcome_ne_fault _ f
    · rw [exec_bitop hop]
      exact outcome_ne_fault _ f
  | bit | jmp | jsr | rti | rts | ldr | psh | pul | str => exact outcome_ne_fault _ f

/-- Settles O11: no instruction ends in a fault, and at HALT_PC none is fetched. -/
theorem haltStops : Obligations.HaltStops := by
  intro s f
  constructor
  · intro h
    by_contra hh
    rw [step, if_neg hh] at h
    split at h
    · exact exec_ne_fault _ s f h
    · cases h
  · intro hh
    cases f
    rw [step, if_pos hh]

/-! The words at an address. -/

/-- The words stand from an address on, low byte first, and all their bytes exist. -/
def WordsAt (s : State) (a : Addr) (ws : List Half) : Prop :=
  ∀ (k : Nat) (h : k < ws.length),
    let b := a + BitVec.ofNat 32 (2 * k)
    inRegions s.mapped b = true ∧ inRegions s.mapped (b + 1) = true ∧
    s.byte b = ws[k].setWidth 8 ∧ s.byte (b + 1) = (ws[k] >>> 8).setWidth 8

theorem add_ofNat_zero (a : Addr) : a + BitVec.ofNat 32 0 = a := BitVec.add_zero a

/-- A word is its two bytes, high before low. -/
theorem append_bytes (w : Half) : (w >>> 8).setWidth 8 ++ w.setWidth 8 = w := by
  refine BitVec.eq_of_getLsbD_eq fun i hi => ?_
  rw [BitVec.getLsbD_append, BitVec.getLsbD_setWidth, BitVec.getLsbD_setWidth]
  interval_cases i <;> simp

theorem fetchHalf_of_wordsAt {s : State} {a : Addr} {w : Half} {ws : List Half} (h : WordsAt s a (w :: ws)) :
    s.fetchHalf a = .ok w ∧ s.byte (a + 1) ++ s.byte a = w := by
  obtain ⟨h0, h1, hlo, hhi⟩ := h 0 (Nat.succ_pos _)
  simp only [Nat.mul_zero, add_ofNat_zero, List.getElem_cons_zero] at h0 h1 hlo hhi
  have hw : s.byte (a + 1) ++ s.byte a = w := by rw [hhi, hlo, append_bytes]
  rw [State.fetchHalf_eq, if_pos ⟨h0, h1⟩, hw]
  exact ⟨rfl, rfl⟩

theorem wordsAt_tail {s : State} {a : Addr} {w : Half} {ws : List Half} (h : WordsAt s a (w :: ws)) :
    WordsAt s (a + 2) ws := by
  intro k hk
  have := h (k + 1) (Nat.succ_lt_succ hk)
  rwa [show a + BitVec.ofNat 32 (2 * (k + 1)) = a + 2 + BitVec.ofNat 32 (2 * k) by bv_omega] at this

theorem fetchHalves_of_wordsAt {s : State} {a : Addr} {ws : List Half} (h : WordsAt s a ws) :
    s.fetchHalves a ws.length = .ok ws := by
  induction ws generalizing a with
  | nil => rfl
  | cons w ws ih =>
    have hrest : s.fetchHalves (a + BitVec.ofNat 32 Params.ws) ws.length = .ok ws := ih (wordsAt_tail h)
    rw [List.length_cons, State.fetchHalves, (fetchHalf_of_wordsAt h).1, ok_bind, hrest]
    rfl

/-- The words of an instruction that end at or below the top of memory are fetched. -/
theorem fetch_of_wordsAt {s : State} {w : Half} {ext : List Half} (h : WordsAt s s.pc (w :: ext))
    (hpc : s.pc.toNat % 2 = 0) (hn : extWords w = .ok ext.length)
    (htop : s.pc.toNat + (1 + ext.length + skippedWords w) * 2 ≤ 2 ^ 32) : s.fetch = .ok (w :: ext) := by
  rw [State.fetch_eq, if_neg (by simpa using hpc), (fetchHalf_of_wordsAt h).1, ok_bind, hn]
  simp only [orRefuse, ok_bind]
  rw [if_neg (by omega), fetchHalves_of_wordsAt (wordsAt_tail h)]
  rfl

/-- The words written and the words skipped are the words of the instruction (43_control R202). -/
theorem words_eq_of_encode {i : Instr} {w : Half} {ext : List Half} (hw : i.wf = true)
    (h : encode i = some (w :: ext)) : 1 + ext.length + skippedWords w = i.words := by
  by_cases hn : ∃ n, i = .nop n
  · obtain ⟨n, rfl⟩ := hn
    obtain ⟨w', he, hs⟩ := Laws.skippedWords_nop h
    obtain ⟨rfl, rfl⟩ := List.cons.inj he
    rw [hs, Instr.words]
    simp [Nat.add_comm]
  · have hne : ∀ n, i ≠ .nop n := fun n e => hn ⟨n, e⟩
    have hlen := Laws.length_encode h hne
    have hskip := Laws.skippedWords_of_decode (CodecFacts.decode_encode hw h []) hne
    rw [hskip, ← hlen, List.length_cons]
    omega

/-- A step at the words of a well-formed instruction is exec of it. -/
theorem step_of_wordsAt {s : State} {i : Instr} {ws : List Half} (hw : i.wf = true) (he : encode i = some ws)
    (hh : s.haltPc ≠ some s.pc) (hpc : s.pc.toNat % 2 = 0) (htop : s.pc.toNat + 2 * i.words ≤ 2 ^ 32)
    (h : WordsAt s s.pc ws) : step s = exec i s := by
  obtain ⟨w, ext, he', hn⟩ := CodecFacts.hasWords_encode hw
  obtain rfl : ws = w :: ext := Option.some.inj (he.symm.trans he')
  have hlen := words_eq_of_encode hw he
  have hdec := CodecFacts.decode_encode hw he []
  rw [List.append_nil] at hdec
  exact step_of_decode hh (fetch_of_wordsAt h hpc hn (by omega)) hdec

/-- Settles O10: the words of the instruction are fetched, and decode to it. -/
theorem stepRunsEncoded : Obligations.StepRunsEncoded := fun _ _ _ hw he hh hpc htop h =>
  step_of_wordsAt hw he hh hpc htop h

/-! Refused fetches. -/

section
variable {s : State} (hpc : s.pc.toNat % 2 = 0)
include hpc

theorem fetch_of_unmapped (h : inRegions s.mapped s.pc = false ∨ inRegions s.mapped (s.pc + 1) = false) :
    s.fetch = .error .unmapped := by
  rw [State.fetch_eq, if_neg (by simpa using hpc), State.fetchHalf_eq, if_neg]
  · rfl
  · rintro ⟨h0, h1⟩
    rw [h0, h1] at h
    simp at h

variable (h0 : inRegions s.mapped s.pc = true) (h1 : inRegions s.mapped (s.pc + 1) = true)
include h0 h1

theorem fetch_of_mapped : s.fetch = (do
    let n ← orRefuse (extWords (s.byte (s.pc + 1) ++ s.byte s.pc))
    if 2 ^ 32 < s.pc.toNat + (1 + n + skippedWords (s.byte (s.pc + 1) ++ s.byte s.pc)) * 2 then .error .misalignedFetch
    else do
      let ext ← s.fetchHalves (s.pc + 2) n
      .ok ((s.byte (s.pc + 1) ++ s.byte s.pc) :: ext)) := by
  rw [State.fetch_eq, if_neg (by simpa using hpc), State.fetchHalf_eq, if_pos ⟨h0, h1⟩]
  rfl

variable {n : Nat} (hn : extWords (s.byte (s.pc + 1) ++ s.byte s.pc) = .ok n)
include hn

theorem fetch_of_straddle
    (ht : 2 ^ 32 < s.pc.toNat + 2 * (1 + n + skippedWords (s.byte (s.pc + 1) ++ s.byte s.pc))) :
    s.fetch = .error .misalignedFetch := by
  rw [fetch_of_mapped hpc h0 h1, hn]
  exact if_pos (by omega)

/-- Some byte of the words that are fetched does not exist, be it of the first or of the others. -/
theorem fetch_of_unmapped_word
    (ht : s.pc.toNat + 2 * (1 + n + skippedWords (s.byte (s.pc + 1) ++ s.byte s.pc)) ≤ 2 ^ 32)
    (hk : ∃ k < 2 * (n + 1), inRegions s.mapped (s.pc + BitVec.ofNat 32 k) = false) : s.fetch = .error .unmapped := by
  rw [fetch_of_mapped hpc h0 h1, hn]
  simp only [orRefuse, ok_bind]
  rw [if_neg (by omega)]
  cases he : s.fetchHalves (s.pc + 2) n with
  | error r => rw [State.fetchHalves_error he]; rfl
  | ok ext =>
    obtain ⟨k, hlt, hbad⟩ := hk
    have hall := (State.fetchHalves_ok he).2
    have hmapped : inRegions s.mapped (s.pc + BitVec.ofNat 32 k) = true := by
      match k with
      | 0 => simpa using h0
      | 1 => exact h1
      | k + 2 =>
        have := hall k (by omega)
        rwa [show s.pc + 2 + BitVec.ofNat 32 k = s.pc + BitVec.ofNat 32 (k + 2) by bv_omega] at this
    rw [hmapped] at hbad
    cases hbad

end

/-- Settles O12: the checks of the fetch in their order. -/
theorem fetchRefusals : Obligations.FetchRefusals := by
  intro s hh
  refine ⟨fun hodd => ?_, fun hpc hu => step_of_fetch_error hh (fetch_of_unmapped hpc hu), fun hpc h0 h1 n hn => ?_⟩
  · exact step_of_fetch_error hh (by rw [State.fetch_eq, if_pos (by omega)])
  · exact ⟨fun ht => step_of_fetch_error hh (fetch_of_straddle hpc h0 h1 hn ht),
      fun ht hk => step_of_fetch_error hh (fetch_of_unmapped_word hpc h0 h1 hn ht hk)⟩

/-- Settles O13: a rejected word is a refusal; a first word that nothing mends never comes to be executed. -/
theorem reservedWordRefused : Obligations.ReservedWordRefused := by
  intro s hh
  refine ⟨fun ws hf => ⟨step_of_reject hh hf, step_of_reject hh hf⟩, fun hpc h0 h1 he => ?low, fun hall => ?never⟩
  case low =>
    refine step_of_fetch_error hh ?_
    rw [fetch_of_mapped hpc h0 h1, he]
    rfl
  case never =>
    cases hf : s.fetch with
    | error r => exact ⟨r, step_of_fetch_error hh hf⟩
    | ok ws =>
      obtain ⟨-, ext, rfl, -⟩ := State.fetch_ok hf
      exact ⟨_, step_of_reject hh hf (hall ext)⟩

/-! NOP (43_control R202). -/

/-- The word of NOP has the low byte `0xEA` and its count above it. -/
theorem nopWord_eq (n : BitVec 8) : BitVec.ofNat 16 (n.toNat * 256 + 0xEA) = n ++ (0xEA : Byte) := by
  apply BitVec.eq_of_toNat_eq
  have := n.isLt
  rw [BitVec.toNat_append, ← Nat.shiftLeft_add_eq_or_of_lt (BitVec.isLt _), Nat.shiftLeft_eq, BitVec.toNat_ofNat]
  show _ = n.toNat * 2 ^ 8 + 234
  omega

theorem encode_nop (n : BitVec 8) : encode (.nop n) = some [BitVec.ofNat 16 (n.toNat * 256 + 0xEA)] := rfl

/-- Settles O48: the word, by the encoder; the step, by the words at pc; the straddle, by the fetch. -/
theorem nopSkips : Obligations.NopSkips := by
  intro n s
  have hexec : exec (.nop n) s = .next (s.setPc (s.pc + BitVec.ofNat 32 ((n.toNat + 1) * 2))) := rfl
  refine ⟨fun ext => CodecFacts.decode_encode rfl (encode_nop n) ext, rfl, rfl, hexec, fun hh hpc h0 h1 hlo hhi => ?_⟩
  have hword : s.byte (s.pc + 1) ++ s.byte s.pc = BitVec.ofNat 16 (n.toNat * 256 + 0xEA) := by
    rw [hlo, hhi, nopWord_eq]
  refine ⟨fun htop => ?_, fun htop => ?_⟩
  · rw [← hexec]
    refine step_of_wordsAt rfl (encode_nop n) hh hpc htop fun k hk => ?_
    obtain rfl : k = 0 := by simpa using hk
    simp only [Nat.mul_zero, add_ofNat_zero, List.getElem_cons_zero]
    have hn := n.isLt
    refine ⟨h0, h1, ?_, ?_⟩
    · rw [hlo]
      bv_omega
    · rw [hhi]
      bv_omega
  · have hlen := words_eq_of_encode (i := .nop n) rfl (encode_nop n)
    have hext := CodecFacts.hasWords_encode (i := .nop n) rfl
    obtain ⟨w, ext, he, hn⟩ := hext
    obtain ⟨rfl, rfl⟩ := List.cons.inj (Option.some.inj ((encode_nop n).symm.trans he))
    refine step_of_fetch_error hh (fetch_of_straddle hpc h0 h1 (n := 0) (by rw [hword]; exact hn) ?_)
    rw [hword]
    simp only [Instr.words, List.length_nil] at hlen
    omega

end Sys2Proof.StepFacts
end

section
/-! PROOFS. The reasons an instruction can be refused for (60_exceptions R271): each operation that may refuse, and then
each family. -/

namespace Sys2Proof.RefusalFacts

open Sys2Proof.Machine Sys2Proof.FamilyFacts Sys2Proof.FrameFacts

/-- The reasons of an access, where the pieces `B` are what is stored. -/
def AccessReason (B : List (Addr × Nat)) (r : Refusal) : Prop :=
  r = .misaligned ∨ r = .unmapped ∨ (r = .writeToText ∧ ∃ b ∈ B, 0 < b.2)

/-! The operations. -/

section
variable {s : State} {B : List (Addr × Nat)} {r : Refusal}

theorem reason_access {a : Addr} {sz : Size} (h : s.access a sz = .error r) : AccessReason B r :=
  (State.access_error h).elim .inl fun e => .inr (.inl e)

theorem reason_load {a : Addr} {sz : Size} (h : s.load a sz = .error r) : AccessReason B r :=
  reason_access (State.load_error h)

theorem reason_store {a : Addr} {sz : Size} {v : Word} (h : s.store a sz v = .error r) (hB : ∃ b ∈ B, 0 < b.2) :
    AccessReason B r :=
  (State.store_error h).elim reason_access fun e => .inr (.inr ⟨e, hB⟩)

theorem reason_push {q : Reg} {sz : Size} {v : Word} (h : s.push q sz v = .error r) (hB : ∃ b ∈ B, 0 < b.2) :
    AccessReason B r := by
  rcases State.push_error h with e | e | e
  · exact .inl e
  · exact .inr (.inl e)
  · exact .inr (.inr ⟨e, hB⟩)

theorem reason_pull {q : Reg} {sz : Size} (h : s.pull q sz = .error r) : AccessReason B r :=
  (State.pull_error h).elim .inl fun e => .inr (.inl e)

theorem reason_effAddr {next : Addr} {m : MemOp} (h : s.effAddr next m = .error r) : AccessReason B r := by
  cases m with
  | abs16 l a ri | abs32 l a ri => cases h
  | pre a ri => exact reason_load h
  | post a ri =>
    rcases bind_eq_error.mp h with h | ⟨_, -, h⟩
    · exact reason_load h
    · cases h

theorem reason_readMem {next : Addr} {m : MemOp} {sz : Size} (h : s.readMem next m sz = .error r) :
    AccessReason B r := by
  rcases bind_eq_error.mp h with h | ⟨_, -, h⟩
  · exact reason_effAddr h
  · exact reason_load h

theorem bytes_pos (sz : Size) : 0 < sz.bytes := by cases sz <;> decide

/-- A memory operand whose address is computed stores a piece. -/
theorem piece_at {ea : Except Refusal Addr} {a : Addr} (h : ea = .ok a) (sz : Size) : ∃ b ∈ bytesAt ea sz, 0 < b.2 :=
  ⟨(a, sz.bytes), by simp [h, bytesAt], bytes_pos sz⟩

theorem piece_pushed (q : Reg) (sz : Size) : ∃ b ∈ pushBytes s sz (.reg q), 0 < b.2 :=
  ⟨_, List.mem_singleton_self _, bytes_pos sz⟩

theorem stackReg_error {rs : Index} (h : stackReg rs = .error r) : r = .stackPointer ∧ (rs = .pc ∨ rs = .zero) := by
  cases rs <;> cases h <;> simp

end

/-! The families. -/

section
variable {s : State} {r : Refusal}

theorem unary_refused {fn : Size → Word → Word} {sz : Size} {f : UnaryForm} (h : unaryMeaning fn sz f s = .refused r) :
    AccessReason (unaryBytes s sz f) r := by
  cases f with
  | reg rd => cases h
  | mem m =>
    rcases bind_eq_error.mp (outcome_eq_refused.mp h) with h | ⟨ea, he, h⟩
    · exact reason_effAddr h
    rcases bind_eq_error.mp h with h | ⟨v, -, h⟩
    · exact reason_load h
    rcases bind_eq_error.mp h with h | ⟨_, -, h⟩
    · exact reason_store h (piece_at he sz)
    · cases h

theorem alu_refused {fn : AluFn} {sz : Size} {f : AluForm} (h : aluMeaning fn sz f s = .refused r) :
    AccessReason [] r := by
  rcases bind_eq_error.mp (outcome_eq_refused.mp h) with h | ⟨_, -, h⟩
  · cases f with
    | reg rd rs | imm rd v => cases h
    | mem rd m => exact reason_readMem h
  · cases h

theorem bit_refused {sz : Size} {f : TestForm} (h : execBit sz f s = .refused r) : AccessReason [] r := by
  rcases bind_eq_error.mp (outcome_eq_refused.mp h) with h | ⟨_, -, h⟩
  · cases f with
    | reg rd rs => cases h
    | mem rd m => exact reason_readMem h
  · cases h

/-- The count of a memory form is 1 to 4, and never refused. -/
theorem shiftValue_amount_ne_error (step : OpenStep) (sz : Size) (nn : BitVec 2) (v : Word) :
    s.shiftValue step sz (amount nn) v ≠ .error r := by
  intro h
  have hcount := (State.shiftValue_error h).2
  have hlt := nn.isLt
  cases sz <;> simp only [amount, Size.bits] at hcount <;> omega

theorem shift_refused {step : OpenStep} {sz : Size} {f : ShiftForm} (h : shiftMeaning step sz f s = .refused r) :
    (r = .shiftCount ∧ shiftDest f ≠ none ∧ (shiftCount s f = 0 ∨ sz.bits ≤ shiftCount s f)) ∨
      AccessReason (shiftBytes s sz f) r := by
  have h := outcome_eq_refused.mp h
  cases f with
  | one rd | imm rd count | reg rd rs =>
    obtain ⟨hr, hcount⟩ := State.shiftReg_error h
    exact .inl ⟨hr, by simp [shiftDest], hcount⟩
  | mem m nn =>
    refine .inr ?_
    rcases bind_eq_error.mp h with h | ⟨ea, he, h⟩
    · exact reason_effAddr h
    rcases bind_eq_error.mp h with h | ⟨v, -, h⟩
    · exact reason_load h
    rcases bind_eq_error.mp h with h | ⟨_, -, h⟩
    · exact absurd h (shiftValue_amount_ne_error step sz nn v)
    rcases bind_eq_error.mp h with h | ⟨_, -, h⟩
    · exact reason_store h (piece_at he sz)
    · cases h

theorem branch_refused {c : Cond} {f : BranchForm} (h : branchMeaning c f s = .refused r) :
    AccessReason (linkBytes s c f) r := by
  have h := outcome_eq_refused.mp h
  split at h
  next hc =>
    rcases bind_eq_error.mp h with h | ⟨u, -, h⟩
    · -- only a link pushes
      cases hl : f.link with
      | false => rw [hl] at h; cases h
      | true =>
        rw [hl] at h
        refine reason_push h ?_
        simp only [linkBytes, hc, hl, Bool.and_self, if_true]
        exact piece_pushed .sp .l
    rcases bind_eq_error.mp h with h | ⟨_, -, h⟩
    · unfold State.branchTarget at h
      dsimp only at h
      split at h
      · exact reason_load h
      · cases h
    · cases h
  next => cases h

theorem bitop_refused {fn : Word → Word → Word} {f : BitForm} {b : BitVec 5} (h : bitMeaning fn f b s = .refused r) :
    AccessReason (bitBytes s f) r := by
  cases f with
  | reg rd => cases h
  | mem a ri =>
    rcases bind_eq_error.mp (outcome_eq_refused.mp h) with h | ⟨v, -, h⟩
    · exact reason_load h
    rcases bind_eq_error.mp h with h | ⟨_, -, h⟩
    · exact reason_store h ⟨_, List.mem_singleton_self _, bytes_pos .l⟩
    · cases h

theorem tbt_refused {f : BitForm} {b : BitVec 5} (h : execTbt f b s = .refused r) : AccessReason [] r := by
  rcases bind_eq_error.mp (outcome_eq_refused.mp h) with h | ⟨_, -, h⟩
  · cases f with
    | reg rd => cases h
    | mem a ri => exact reason_load h
  · cases h

theorem trap_refused {v : BitVec 4} {next : Addr} {B : List (Addr × Nat)} (h : s.trap v next = .error r)
    (hB : ∃ b ∈ B, 0 < b.2) : AccessReason B r := by
  rcases bind_eq_error.mp h with h | ⟨_, -, h⟩
  · exact reason_push h hB
  rcases bind_eq_error.mp h with h | ⟨_, -, h⟩
  · exact reason_push h hB
  rcases bind_eq_error.mp h with h | ⟨_, -, h⟩
  · exact reason_load h
  · cases h

theorem jmp_refused {f : JumpForm} (h : execJmp f s = .refused r) : AccessReason [] r := by
  cases f with
  | direct a => cases h
  | indirect a =>
    rcases bind_eq_error.mp (outcome_eq_refused.mp h) with h | ⟨_, -, h⟩
    · exact reason_load h
    · cases h

theorem ldr_refused {sz : Size} {f : LoadForm} (h : execLdr sz f s = .refused r) : AccessReason [] r := by
  rcases bind_eq_error.mp (outcome_eq_refused.mp h) with h | ⟨_, -, h⟩
  · cases f with
    | imm rd v => cases h
    | mem rd m => exact reason_readMem h
  · cases h

theorem str_refused {sz : Size} {rd : Reg} {m : MemOp} (h : execStr sz rd m s = .refused r) :
    AccessReason (bytesAt (s.effAddr (s.nextPc (1 + m.words)) m) sz) r := by
  rcases bind_eq_error.mp (outcome_eq_refused.mp h) with h | ⟨ea, he, h⟩
  · exact reason_effAddr h
  rcases bind_eq_error.mp h with h | ⟨_, -, h⟩
  · exact reason_store h (piece_at he sz)
  · cases h

/-- An instruction on a stack is refused for the pointer it names, or for what it does on that stack. -/
theorem stack_refused {rs : Index} {k : Reg → Except Refusal State} {B : List (Addr × Nat)}
    (h : outcome (stackReg rs >>= k) = .refused r) (hk : ∀ q, rs = .reg q → k q = .error r → AccessReason B r) :
    (r = .stackPointer ∧ (rs = .pc ∨ rs = .zero)) ∨ AccessReason B r := by
  rcases bind_eq_error.mp (outcome_eq_refused.mp h) with h | ⟨q, hq, h⟩
  · exact .inl (stackReg_error h)
  · exact .inr (hk q (stackReg_eq_ok hq) h)

end

theorem reason_of_eq {B B' : List (Addr × Nat)} {r : Refusal} (hB : B' = B) (h : AccessReason B r) :
    AccessReason B' r := hB ▸ h

/-- The reasons of an access are the fifth of the statement. -/
theorem or_fifth {a b c d e : Prop} (h : e) : a ∨ b ∨ c ∨ d ∨ e := .inr (.inr (.inr (.inr h)))

/-- Settles O14, family by family. -/
theorem refusalReasons : Obligations.RefusalReasons := by
  intro i s r h
  induction i using instr_cases with
  | unary op sz f =>
    rw [exec_unary] at h
    exact or_fifth (reason_of_eq (storedBytes_unary ..) (unary_refused h))
  | alu op sz f =>
    rw [exec_alu] at h
    exact or_fifth (reason_of_eq (storedBytes_alu ..) (alu_refused h))
  | bit sz f => exact or_fifth (bit_refused h)
  | shift op sz f =>
    rw [exec_shift] at h
    cases hm : stepMissing s op with
    | some q =>
      rw [hm] at h
      cases h
      exact .inr (.inr (.inr (.inl ⟨op, sz, f, rfl, hm⟩)))
    | none =>
      rw [hm] at h
      rcases shift_refused h with ⟨hr, hd, hc⟩ | ha
      · exact .inr (.inr (.inl ⟨hr, op, sz, f, rfl, hd, hc⟩))
      · exact or_fifth (reason_of_eq (storedBytes_shift ..) ha)
  | branch c f =>
    rw [exec_branch] at h
    exact or_fifth (reason_of_eq (storedBytes_branch ..) (branch_refused h))
  | brk w q v =>
    cases w with
    | true =>
      cases h
      exact .inl ⟨rfl, q, v, rfl⟩
    | false => exact or_fifth (trap_refused (outcome_eq_refused.mp h) ⟨_, List.mem_singleton_self _, Nat.succ_pos 7⟩)
  | jmp f => exact or_fifth (jmp_refused h)
  | jsr rs a =>
    refine (stack_refused (B := pushBytes s .l rs) h fun q hq hk => ?_).elim
      (fun ⟨hr, hrs⟩ => .inr (.inl ⟨hr, rs, hrs, .inl ⟨a, rfl⟩⟩)) or_fifth
    rcases bind_eq_error.mp hk with hk | ⟨_, -, hk⟩
    · exact reason_push hk (by rw [hq]; exact piece_pushed q .l)
    · cases hk
  | nop n => cases h
  | rti rs =>
    refine (stack_refused (B := []) h fun q hq hk => ?_).elim
      (fun ⟨hr, hrs⟩ => .inr (.inl ⟨hr, rs, hrs, .inr (.inl rfl)⟩)) or_fifth
    rcases bind_eq_error.mp hk with hk | ⟨_, -, hk⟩
    · exact reason_pull hk
    rcases bind_eq_error.mp hk with hk | ⟨_, -, hk⟩
    · exact reason_pull hk
    · cases hk
  | rts rs =>
    refine (stack_refused (B := []) h fun q hq hk => ?_).elim
      (fun ⟨hr, hrs⟩ => .inr (.inl ⟨hr, rs, hrs, .inr (.inr (.inl rfl))⟩)) or_fifth
    rcases bind_eq_error.mp hk with hk | ⟨_, -, hk⟩
    · exact reason_pull hk
    · cases hk
  | bitop op f b =>
    by_cases hop : op = .tbt
    · subst hop
      exact or_fifth (tbt_refused h)
    · rw [exec_bitop hop] at h
      exact or_fifth (reason_of_eq (storedBytes_bitop hop ..) (bitop_refused h))
  | ldr sz f => exact or_fifth (ldr_refused h)
  | mov sz row rd rs => cases h
  | psh sz rd rs =>
    refine (stack_refused (B := pushBytes s sz rs) h fun q hq hk => ?_).elim
      (fun ⟨hr, hrs⟩ => .inr (.inl ⟨hr, rs, hrs, .inr (.inr (.inr (.inl ⟨sz, rd, rfl⟩)))⟩)) or_fifth
    rcases bind_eq_error.mp hk with hk | ⟨_, -, hk⟩
    · exact reason_push hk (by rw [hq]; exact piece_pushed q sz)
    · cases hk
  | pul sz rd rs =>
    refine (stack_refused (B := []) h fun q hq hk => ?_).elim
      (fun ⟨hr, hrs⟩ => .inr (.inl ⟨hr, rs, hrs, .inr (.inr (.inr (.inr ⟨sz, rd, rfl⟩)))⟩)) or_fifth
    rcases bind_eq_error.mp hk with hk | ⟨_, -, hk⟩
    · exact reason_pull hk
    · dsimp only at hk
      split at hk <;> cases hk
  | str sz rd m => exact or_fifth (str_refused h)

/-- Settles O42: BRK with `W` = 1 answers before anything is read. -/
theorem brkWaitRefused : Obligations.BrkWaitRefused := fun _ _ _ => rfl

/-- Settles O49: the stack pointer is asked for first. -/
theorem stackPointerRefused : Obligations.StackPointerRefused := by
  rintro rs s a sz rd (rfl | rfl) <;> exact ⟨rfl, rfl, rfl, rfl, rfl⟩

end Sys2Proof.RefusalFacts
end

section
/-! PROOFS. Operands (30_encoding R93 to R98) and control transfer (43_control, 60_exceptions): branches, the trap and
its return, jumps and calls. -/

namespace Sys2Proof.TransferFacts

open Sys2Proof.Machine Sys2Proof.FamilyFacts Sys2Proof.FrameFacts Sys2Proof.MemoryFacts

/-! Operands. -/

theorem indexValue_eq (s : State) (next : Addr) (ri : Index) :
    s.indexValue next ri = (match ri with
      | .zero => 0
      | .pc => next
      | .reg r => s.reg r) := by cases ri <;> rfl

theorem offsetValue_eq (o : BranchOffset) :
    offsetValue o = (match o with
      | .short h => h.signExtend 32
      | .long v => v) := by cases o <;> rfl

theorem readMem_of_readable {s : State} {next : Addr} {m : MemOp} {ea : Addr} {sz : Size}
    (he : s.effAddr next m = .ok ea) (h : Readable s ea sz) : s.readMem next m sz = .ok (s.peek ea sz) := by
  rw [State.readMem, he, ok_bind, State.load_of_readable h]

/-- Settles O29: the three kinds of second operand. -/
theorem secondOperand : Obligations.SecondOperand := by
  intro s next sz rd
  refine ⟨fun rs => ⟨rfl, rfl⟩, fun v hv => ?_, fun m ea he hr => ?_⟩
  · have hv : trunc sz v = v := (beq_iff_eq.mp hv).symm
    exact ⟨congrArg Except.ok hv, congrArg Except.ok hv⟩
  · have hm := readMem_of_readable he hr
    exact ⟨hm, hm, hm⟩

/-- Settles O30: each form by its definition, the indirect ones by their pointer. -/
theorem effectiveAddress : Obligations.EffectiveAddress := by
  intro s next l a16 a32 ri x z
  have hx : s.indexValue next ri = x := indexValue_eq s next ri
  refine ⟨congrArg (fun x => Except.ok (z + x)) hx, congrArg (fun x => Except.ok (a32 + x)) hx, fun h => ?_,
    fun h => ?_, fun h => ?_, fun h => ?_⟩
  · show s.load (z + s.indexValue next ri) .l = _
    rw [hx, State.load_of_readable h]
  · obtain ⟨r, hr⟩ := load_of_not_readable h
    refine ⟨r, ?_⟩
    show s.load (z + s.indexValue next ri) .l = _
    rw [hx, hr]
  · show (s.load z .l >>= fun ptr => Except.ok (ptr + s.indexValue next ri)) = _
    rw [State.load_of_readable h, ok_bind, hx]
  · obtain ⟨r, hr⟩ := load_of_not_readable h
    refine ⟨r, ?_⟩
    show (s.load z .l >>= fun ptr => Except.ok (ptr + s.indexValue next ri)) = _
    rw [hr]
    rfl

/-! Branches (43_control R192). -/

/-- Settles O38: a branch not taken sets pc alone. -/
theorem branchNotTaken : Obligations.BranchNotTaken := by
  intro c f s h
  rw [exec_branch, branchMeaning, if_neg (by simp [h])]
  rfl

/-- A branch taken: the link, then the target. -/
theorem exec_branch_taken {c : Cond} {f : BranchForm} {s u : State} {target : Addr} (hc : s.cond c = true)
    (hu : s.link f.link (s.nextPc f.words) = .ok u) (ht : u.branchTarget f (s.nextPc f.words) = .ok target) :
    exec (.branch c f) s = .next (u.setPc target) := by
  rw [exec_branch, branchMeaning, if_pos hc, hu, ok_bind, ht]
  rfl

theorem branchTarget_direct {s : State} {f : BranchForm} (h : f.indirect = false) (next : Addr) :
    s.branchTarget f next = .ok (s.indexValue next f.base + offsetValue f.offset) := by
  rw [State.branchTarget, h]
  rfl

theorem branchTarget_indirect {s : State} {f : BranchForm} {next a : Addr} (h : f.indirect = true)
    (ha : s.indexValue next f.base + offsetValue f.offset = a) (hr : Readable s a .l) :
    s.branchTarget f next = .ok (s.peek a .l) := by
  rw [State.branchTarget, h, ha]
  exact State.load_of_readable hr

/-- Settles O39: no link, and the target direct or through memory. -/
theorem branchTaken : Obligations.BranchTaken := by
  intro c f s hc hl base offset
  have hlink : s.link f.link (s.nextPc f.words) = .ok s := by rw [hl]; rfl
  have haddr : s.indexValue (s.nextPc f.words) f.base + offsetValue f.offset = base + offset :=
    congrArg₂ (· + ·) (indexValue_eq s _ f.base) (offsetValue_eq f.offset)
  refine ⟨fun hi => ?_, fun hi hr => ?_⟩
  · rw [← haddr]
    exact exec_branch_taken hc hlink (branchTarget_direct hi _)
  · exact exec_branch_taken hc hlink (branchTarget_indirect hi haddr hr)

theorem pushBytes_l (s : State) (r : Reg) : pushBytes s .l (.reg r) = [(s.reg r - 3, 4)] := by
  rw [pushBytes, pushAddr_l]
  rfl

/-- An access is checked against the launch alone. -/
theorem readable_congr {s t : State} (h : t.mapped = s.mapped) (a : Addr) (sz : Size) :
    Readable t a sz ↔ Readable s a sz := by rw [Readable, Readable, h]

theorem writable_congr {s t : State} (h : t.mapped = s.mapped) (ht : t.text = s.text) (a : Addr) (sz : Size) :
    Writable t a sz ↔ Writable s a sz := by rw [Writable, Writable, readable_congr h, ht]

/-- The index value of a base after the link: SP is lowered, every other base stands. -/
theorem indexValue_pushed (s : State) (next v : Addr) (ri : Index) :
    (pushed s .sp .l v).indexValue next ri = (match ri with
      | .zero => 0
      | .pc => next
      | .reg r => if r = .sp then s.reg .sp - 4 else s.reg r) := by
  cases ri with
  | zero | pc => rfl
  | reg r =>
    show (pushed s .sp .l v).reg r = if r = .sp then s.reg .sp - 4 else s.reg r
    split
    next h => subst h; exact reg_pushed_self s .sp .l v
    next h => exact reg_pushed_ne s .l v h

/-- Settles O40: the link is pushed first, and the base and the target are read after it. -/
theorem branchWithLink : Obligations.BranchWithLink := by
  intro c f s hs hc hl hw base offset hread
  have hpush : Writable s (pushAddr (s.reg .sp) .l) .l := by rwa [pushAddr_l]
  have hlink : s.link f.link (s.nextPc f.words) = .ok (pushed s .sp .l (s.nextPc f.words)) := by
    rw [hl]
    exact push_eq_pushed hpush _
  have haddr : (pushed s .sp .l (s.nextPc f.words)).indexValue (s.nextPc f.words) f.base + offsetValue f.offset
      = base + offset := congrArg₂ (· + ·) (indexValue_pushed s _ _ f.base) (offsetValue_eq f.offset)
  obtain ⟨target, htarget, hpc⟩ : ∃ target,
      (pushed s .sp .l (s.nextPc f.words)).branchTarget f (s.nextPc f.words) = .ok target ∧
        target = if f.indirect then (pushed s .sp .l (s.nextPc f.words)).peek (base + offset) .l else base + offset := by
    cases hi : f.indirect with
    | false => exact ⟨_, branchTarget_direct hi _, haddr⟩
    | true => exact ⟨_, branchTarget_indirect hi haddr ((readable_congr rfl _ _).mpr (hread hi)), rfl⟩
  have hexec := exec_branch_taken hc hlink htarget
  have frame := exec_frame hexec
  rw [regsWritten_branch, flagsWritten_branch, storedBytes_branch, hl, linkBytes, hc, hl,
    if_pos (by rfl), if_pos (by rfl), pushBytes_l] at frame
  refine ⟨_, hexec, reg_pushed_self s .sp .l _, ?_, hpc, frame.regsExcept_of_no_flags, frame.memExcept, frame.launch⟩
  have hpeek := peek_pushed hs .sp .l (s.nextPc f.words)
  rwa [pushAddr_l, trunc_l] at hpeek

/-! The trap and its return (60_exceptions R272, R278). -/

/-- The state after the two pushes of a trap. -/
def trapped (s : State) (next : Addr) : State := pushed (pushed s .sp .l next) .sp .l (s.reg .p)

theorem sp_trapped (s : State) (next : Addr) : (trapped s next).reg .sp = s.reg .sp - 8 := by
  rw [trapped, reg_pushed_self, reg_pushed_self]
  simp only [Size.bytes]
  bv_omega

theorem pushAddr_second (s : State) (next : Addr) :
    pushAddr ((pushed s .sp .l next).reg .sp) .l = s.reg .sp - 7 := by
  rw [pushAddr_l, reg_pushed_self]
  simp only [Size.bytes]
  bv_omega

section
variable {s : State} (hs : s.Inv)
include hs

/-- P stands in the four bytes below the return address. -/
theorem peek_trapped_p (next : Addr) : (trapped s next).peek (s.reg .sp - 7) .l = s.reg .p := by
  have h := peek_pushed (inv_pushed hs .sp .l next) .sp .l (s.reg .p)
  rwa [pushAddr_second, trunc_l] at h

/-- The return address stands in the four bytes that end at the old pointer. -/
theorem peek_trapped_next (next : Addr) : (trapped s next).peek (s.reg .sp - 3) .l = next := by
  have h := peek_pushed hs .sp .l next
  rw [pushAddr_l, trunc_l] at h
  rw [trapped, pushed, State.peek_setReg, State.peek_poke_of_disjoint, h]
  intro k hk
  rw [pushAddr_second, InBytes]
  simp only [Size.bytes] at hk ⊢
  bv_omega

end

section
variable {s : State} (h3 : Writable s (s.reg .sp - 3) .l) (h7 : Writable s (s.reg .sp - 7) .l)
include h3 h7

/-- BRK where both pushes are writable and the vector entry readable. -/
theorem exec_brk {v : BitVec 4} (q : BitVec 3) (hv : Readable s (vectorAddr v) .w) :
    exec (.brk false q v) s
      = .next ((trapped s (s.pc + 4)).setPc ((trapped s (s.pc + 4)).peek (vectorAddr v) .w)) := by
  have h1 : s.push .sp .l (s.pc + 4) = .ok (pushed s .sp .l (s.pc + 4)) := push_eq_pushed (by rwa [pushAddr_l]) _
  have h2 : (pushed s .sp .l (s.pc + 4)).push .sp .l (s.reg .p) = .ok (trapped s (s.pc + 4)) :=
    push_eq_pushed (by rw [pushAddr_second]; exact (writable_congr rfl rfl _ _).mpr h7) _
  have hp : (pushed s .sp .l (s.pc + 4)).readReg .p .l = s.reg .p := by
    rw [State.readReg, trunc_l, reg_pushed_ne _ _ _ (by decide)]
  show outcome (s.trap v (s.pc + 4)) = _
  rw [State.trap, h1, ok_bind]
  simp only [Params.pStackSize, hp, h2, ok_bind, Params.vecEntrySize]
  rw [State.load_of_readable (s := trapped s (s.pc + 4)) hv]
  rfl

end

theorem vectorAddr_eq (v : BitVec 4) : vectorAddr v = BitVec.ofNat 32 (0xFFE - 2 * v.toNat) := by
  have all : ∀ v : BitVec 4, vectorAddr v = BitVec.ofNat 32 (0xFFE - 2 * v.toNat) := by decide
  exact all v

/-- Settles O41: two pushes, and pc from the vector table read after them. -/
theorem brkTraps : Obligations.BrkTraps := by
  intro q v s hs h3 h7 hv
  rw [← vectorAddr_eq] at hv ⊢
  have hexec := exec_brk h3 h7 q hv
  have frame := exec_frame hexec
  exact ⟨_, hexec, peek_trapped_next hs _, peek_trapped_p hs _, sp_trapped s _, rfl, frame.regsExcept_of_no_flags,
    frame.memExcept, frame.launch⟩

/-- RTI where the eight bytes above the pointer are readable. -/
theorem exec_rti {s : State} {r : Reg} (hr : r ≠ .p) (h1 : Readable s (s.reg r + 1) .l)
    (h5 : Readable s (s.reg r + 5) .l) :
    exec (.rti (.reg r)) s
      = .next ((((s.setReg r (s.reg r + 4)).setReg .p (s.peek (s.reg r + 1) .l)).setReg r (s.reg r + 8)).setPc
          (s.peek (s.reg r + 5) .l)) := by
  let s1 : State := (s.setReg r (s.reg r + 4)).setReg .p (s.peek (s.reg r + 1) .l)
  have hpull1 : s.pull r .l = .ok (s.peek (s.reg r + 1) .l, s.setReg r (s.reg r + 4)) := State.pull_of_readable h1
  have hreg : s1.reg r = s.reg r + 4 := by simp [s1, hr]
  have haddr : s1.reg r + 1 = s.reg r + 5 := by rw [hreg]; bv_omega
  have hpull2 : s1.pull r .l = .ok (s.peek (s.reg r + 5) .l, s1.setReg r (s.reg r + 8)) := by
    have hraised : s.reg r + 4 + BitVec.ofNat 32 Size.l.bytes = s.reg r + 8 := by
      show s.reg r + 4 + 4 = _
      bv_omega
    rw [State.pull_of_readable (s := s1) (by rw [haddr]; exact h5), haddr, hreg, hraised]
    rfl
  show outcome (s.trapReturn r) = _
  rw [State.trapReturn, Params.pStackSize, hpull1, ok_bind]
  show outcome (s1.pull r .l >>= _) = _
  rw [hpull2]
  rfl

/-- Settles O47: P, then pc, from the eight bytes above the pointer. -/
theorem rtiReturns : Obligations.RtiReturns := by
  intro r s hr h1 h5
  have hexec := exec_rti hr h1 h5
  have frame := exec_frame hexec
  have hlisted : Reg.p :: regsWritten (.rti (.reg r)) ⊆ [r, .p] := by
    rw [show regsWritten (.rti (.reg r)) = [.p, r] from rfl]
    simp
  have hregs : RegsExcept [r, .p] s _ := regsExcept_mono frame.regs hlisted
  refine ⟨_, hexec, ?_, State.pc_setPc .., ?_, hregs, frame.memSame, frame.launch⟩
  · rw [State.reg_setPc, State.reg_setReg, if_neg (Ne.symm hr), State.reg_setReg, if_pos rfl]
  · rw [State.reg_setPc, State.reg_setReg, if_pos rfl]

/-- Settles O43: the return pulls what the trap pushed, in the opposite order. -/
theorem rtiUndoesBrk : Obligations.RtiUndoesBrk := by
  intro q v s hs h3 h7 hv
  obtain ⟨t, hbrk, hnext, hp, hsp, -, htregs, htmem, htlaunch⟩ := brkTraps q v s hs h3 h7 hv
  obtain ⟨hm, ht, hh, hsup⟩ := htlaunch
  have ha1 : t.reg .sp + 1 = s.reg .sp - 7 := by rw [hsp]; bv_omega
  have ha5 : t.reg .sp + 5 = s.reg .sp - 3 := by rw [hsp]; bv_omega
  obtain ⟨u, hrti, hup, hupc, husp, huregs, humem, hum, hut, huh, husup⟩ := rtiReturns .sp t (by decide)
    (by rw [ha1]; exact (readable_congr hm _ _).mpr h7.1) (by rw [ha5]; exact (readable_congr hm _ _).mpr h3.1)
  refine ⟨t, u, hbrk, hrti, fun r _ => ?_, by rw [hupc, ha5, hnext], fun b hb => (humem b).trans (htmem b hb),
    hum.trans hm, hut.trans ht, huh.trans hh, husup.trans hsup⟩
  -- SP is raised by the eight it was lowered by, P is pulled, and nothing else was written
  by_cases hr : r = .sp
  · subst hr
    rw [husp, hsp]
    bv_omega
  · by_cases hrp : r = .p
    · subst hrp
      rw [hup, ha1, hp]
    · rw [huregs r (by simp [hr, hrp]), htregs r (by simp [hr])]

/-! Jumps and calls (43_control R200, R201, R204). -/

/-- Settles O44: pc is the address, or what memory holds there. -/
theorem jumps : Obligations.Jumps := by
  intro a s
  refine ⟨rfl, fun h => ?_⟩
  show outcome (s.load a .l >>= fun target => Except.ok (s.setPc target)) = _
  rw [State.load_of_readable h]
  rfl

theorem exec_jsr {s : State} {r : Reg} (h : Writable s (s.reg r - 3) .l) (a : Word) :
    exec (.jsr (.reg r) a) s = .next ((pushed s r .l (s.pc + 6)).setPc a) := by
  show outcome (s.push r .l (s.pc + 6) >>= fun s' => Except.ok (s'.setPc a)) = _
  rw [push_eq_pushed (by rwa [pushAddr_l])]
  rfl

theorem exec_rts {s u : State} {r : Reg} {v : Word} (h : s.pull r .l = .ok (v, u)) :
    exec (.rts (.reg r)) s = .next (u.setPc v) := by
  show outcome (s.pull r .l >>= fun x => Except.ok (x.2.setPc x.1)) = _
  rw [h]
  rfl

/-- Settles O45: the call pushes the return address, and the return pulls it. -/
theorem jsrThenRts : Obligations.JsrThenRts := by
  intro r a s hs hw
  have hexec := exec_jsr hw a
  have frame := exec_frame hexec
  rw [show storedBytes s (.jsr (.reg r) a) = [(s.reg r - 3, 4)] from pushBytes_l s r] at frame
  have hpeek := peek_pushed hs r .l (s.pc + 6)
  rw [pushAddr_l, trunc_l] at hpeek
  have hpull : ((pushed s r .l (s.pc + 6)).setPc a).pull r .l = .ok (trunc .l (s.pc + 6), _) :=
    pull_after_push hs (by rwa [pushAddr_l]) rfl rfl rfl
  refine ⟨_, hexec, rfl, reg_pushed_self s r .l _, hpeek, frame.regsExcept_of_no_flags, frame.memExcept, frame.launch,
    _, exec_rts hpull, trunc_l _, fun q _ => ?_, fun _ => rfl⟩
  by_cases hq : q = r
  · simp [hq]
  · simp [hq, reg_pushed_ne s .l _ hq]

/-- Settles O46: pc from the four bytes above the pointer. -/
theorem rtsReturns : Obligations.RtsReturns := by
  intro r s h
  have hexec := exec_rts (State.pull_of_readable h)
  have frame := exec_frame hexec
  exact ⟨_, hexec, rfl, by simp, frame.regsExcept_of_no_flags, frame.memSame, frame.launch⟩

end Sys2Proof.TransferFacts
end

section
/-! PROOFS. The one-operand instructions (40_unary) and what every instruction that writes a result with its N and Z
says of it. -/

namespace Sys2Proof.UnaryFacts

open Sys2Proof.Machine Sys2Proof.FamilyFacts Sys2Proof.FrameFacts

/-! A result written, with N and Z from it. -/

theorem lt_of_trunc_eq {sz : Size} {v : Word} (h : trunc sz v = v) : v.toNat < 2 ^ sz.bits := by
  rw [← h]
  exact toNat_trunc_lt sz v

theorem trunc_eq_of_lt {sz : Size} {v : Word} (h : v.toNat < 2 ^ sz.bits) : trunc sz v = v :=
  BitVec.eq_of_toNat_eq (by rw [toNat_trunc, Nat.mod_eq_of_lt h])

theorem trunc_readReg (s : State) (r : Reg) (sz : Size) : trunc sz (s.readReg r sz) = s.readReg r sz :=
  trunc_trunc sz _

/-- N and Z come from the value they were last written from. -/
theorem flagsNZ_setNZ (s : State) {sz : Size} {v : Word} (h : trunc sz v = v) (next : Addr) :
    FlagsNZ ((s.setNZ v sz).setPc next) sz v.toNat :=
  flagsNZ_of_flag (lt_of_trunc_eq h) (State.flag_setNZ s v sz 7) (State.flag_setNZ s v sz 1)

theorem readReg_setNZ_ne (s : State) (v : Word) (sz sz' : Size) {r : Reg} (h : r ≠ .p) :
    (s.setNZ v sz).readReg r sz' = s.readReg r sz' := by
  rw [State.readReg, State.readReg, State.reg_setNZ_ne _ _ _ h]

/-- A register other than P keeps its result when N and Z are written from it. -/
theorem readReg_result (s : State) {r : Reg} {sz : Size} {v : Word} (hr : r ≠ .p) (h : trunc sz v = v) (next : Addr) :
    (((s.writeReg r sz v).setNZ v sz).setPc next).readReg r sz = v := by
  rw [State.readReg_setPc, readReg_setNZ_ne _ _ _ _ hr, State.readReg_writeReg, h]

/-- So does memory. -/
theorem peek_result {s : State} (hs : s.Inv) {ea : Addr} {sz : Size} {v : Word} (h : trunc sz v = v) (next : Addr) :
    (((s.poke ea sz v).setNZ v sz).setPc next).peek ea sz = v := by
  rw [State.peek_setPc, State.peek_setNZ, State.peek_poke hs, h]

/-! The six results as arithmetic. -/

/-- `s`-bit numbers are words, and the halves of their range meet at the weight of the sign bit. -/
theorem two_pow_bits_le (sz : Size) : 2 ^ sz.bits ≤ 2 ^ 32 := Nat.pow_le_pow_right (by decide) sz.bits_le

/-- The two's complement on `s` bits. -/
theorem toNat_trunc_zero_sub {sz : Size} {v : Word} (h : v.toNat < 2 ^ sz.bits) :
    (trunc sz (0 - v)).toNat = (2 ^ sz.bits - v.toNat) % 2 ^ sz.bits := by
  rw [show (0 : Word) - v = -v from BitVec.zero_sub v, toNat_trunc, BitVec.toNat_neg]
  cases sz <;> simp only [Size.bits] at h ⊢ <;> omega

theorem toNat_absValue {sz : Size} {v : Word} (h : v.toNat < 2 ^ sz.bits) :
    (absValue sz v).toNat = if v.toNat < 2 ^ (sz.bits - 1) then v.toNat else 2 ^ sz.bits - v.toNat := by
  rw [absValue, signBit_eq_decide sz v h]
  by_cases hv : v.toNat < 2 ^ (sz.bits - 1)
  · rw [if_neg (by simpa using hv), if_pos hv]
  · rw [if_pos (by simpa using hv), if_neg hv, toNat_trunc_zero_sub h]
    have := Nat.two_pow_pos (sz.bits - 1)
    exact Nat.mod_eq_of_lt (by omega)

theorem toNat_addConst (sz : Size) (v : Word) (n : Nat) :
    (trunc sz (v + BitVec.ofNat 32 n)).toNat = (v.toNat + n) % 2 ^ sz.bits := by
  rw [toNat_trunc, BitVec.toNat_add, BitVec.toNat_ofNat]
  cases sz <;> simp only [Size.bits] <;> omega

theorem toNat_subConst (sz : Size) (v : Word) (n : Nat) (hn : n ≤ 4) :
    (trunc sz (v - BitVec.ofNat 32 n)).toNat = (v.toNat + 2 ^ sz.bits - n) % 2 ^ sz.bits := by
  rw [toNat_trunc, BitVec.toNat_sub, BitVec.toNat_ofNat]
  cases sz <;> simp only [Size.bits] <;> omega

theorem amount_le (nn : BitVec 2) : amount nn ≤ 4 := nn.isLt

theorem toNat_notValue {sz : Size} {v : Word} (h : v.toNat < 2 ^ sz.bits) :
    (notValue sz v).toNat = 2 ^ sz.bits - 1 - v.toNat := by
  rw [notValue, toNat_trunc, BitVec.toNat_not]
  cases sz <;> simp only [Size.bits] at h ⊢ <;> omega

/-- The low `h` bits of a word, extended by their sign. -/
theorem toNat_signExtend_setWidth {h : Nat} (hpos : 0 < h) (v : Word) :
    ((v.setWidth h).signExtend 32).toNat
      = v.toNat % 2 ^ h % 2 ^ 32 + if v.toNat.testBit (h - 1) then 2 ^ 32 - 2 ^ h else 0 := by
  have hmsb : (v.setWidth h).msb = v.toNat.testBit (h - 1) := by
    rw [BitVec.msb_eq_getLsbD_last, BitVec.getLsbD_setWidth, decide_eq_true (by omega), Bool.true_and]
    rfl
  rw [BitVec.toNat_signExtend, hmsb, BitVec.toNat_setWidth, BitVec.toNat_setWidth]

theorem toNat_extValue (sz : Size) (v : Word) :
    (extValue sz v).toNat = unaryResult .ext sz v.toNat := by
  cases sz with
  | b =>
    show (trunc .b ((v.setWidth 1).signExtend 32)).toNat = extendedFrom 1 .b v.toNat
    rw [toNat_trunc, toNat_signExtend_setWidth (by decide), extendedFrom, Size.bits_b]
    split <;> omega
  | w =>
    show (trunc .w ((v.setWidth 8).signExtend 32)).toNat = extendedFrom 8 .w v.toNat
    rw [toNat_trunc, toNat_signExtend_setWidth (by decide), extendedFrom, Size.bits_w]
    split <;> omega
  | l =>
    show ((v.setWidth 16).signExtend 32).toNat = extendedFrom 16 .l v.toNat
    rw [toNat_signExtend_setWidth (by decide), extendedFrom, Size.bits_l]
    split <;> omega

/-- The result of each of the six. -/
theorem toNat_unaryFn (op : UnaryOp) {sz : Size} {v : Word} (h : v.toNat < 2 ^ sz.bits) :
    (unaryFn op sz v).toNat = unaryResult op sz v.toNat := by
  cases op with
  | abs => exact toNat_absValue h
  | dec nn => exact toNat_subConst sz v _ (amount_le nn)
  | ext => exact toNat_extValue sz v
  | inc nn => exact toNat_addConst sz v _
  | neg => exact toNat_trunc_zero_sub h
  | not => exact toNat_notValue h

/-- Each result is an `s`-bit number. -/
theorem trunc_unaryFn (op : UnaryOp) {sz : Size} {v : Word} (h : trunc sz v = v) :
    trunc sz (unaryFn op sz v) = unaryFn op sz v := by
  cases op with
  | abs =>
    show trunc sz (absValue sz v) = absValue sz v
    unfold absValue
    split
    · exact trunc_trunc sz _
    · exact h
  | ext =>
    cases sz with
    | b | w => exact trunc_trunc _ _
    | l => exact trunc_l _
  | dec | inc | neg | not => exact trunc_trunc sz _

/-- Settles O27: the register form writes the result, then N and Z. -/
theorem unaryOnRegister : Obligations.UnaryOnRegister := by
  intro op sz rd s hrd r
  have hv := trunc_readReg s rd sz
  have htrunc := trunc_unaryFn op hv
  have hr : (unaryFn op sz (s.readReg rd sz)).toNat = r := toNat_unaryFn op (lt_of_trunc_eq hv)
  have hexec := (exec_unary op sz (.reg rd) s).trans (unaryMeaning_reg (unaryFn op) sz rd s)
  have frame := exec_frame hexec
  rw [regsWritten_unary, flagsWritten_unary, storedBytes_unary] at frame
  rw [← hr]
  exact ⟨_, hexec, by rw [readReg_result s hrd htrunc], flagsNZ_setNZ _ htrunc _,
    regsExcept_mono frame.regs (by simp [unaryDest]), frame.bits (by simpa [unaryDest] using hrd.symm), frame.memSame,
    frame.launch, rfl⟩

theorem unaryMeaning_mem {fn : Size → Word → Word} {sz : Size} {m : MemOp} {s : State} {ea : Addr}
    (he : s.effAddr (s.nextPc (1 + m.words)) m = .ok ea) (hw : Writable s ea sz) :
    unaryMeaning fn sz (.mem m) s
      = .next (((s.poke ea sz (fn sz (s.peek ea sz))).setNZ (fn sz (s.peek ea sz)) sz).setPc
          (s.nextPc (1 + m.words))) := by
  show outcome (s.effAddr (s.nextPc (1 + m.words)) m >>= _) = _
  rw [he, ok_bind, State.load_of_readable hw.1, ok_bind]
  show outcome (s.store ea sz _ >>= _) = _
  rw [State.store_of_writable hw]
  rfl

/-- Settles O28: the memory form stores the result at the operand's address. -/
theorem unaryOnMemory : Obligations.UnaryOnMemory := by
  intro op sz m s ea hs he hw r
  have hv := State.trunc_peek s ea sz
  have htrunc := trunc_unaryFn op hv
  have hr : (unaryFn op sz (s.peek ea sz)).toNat = r := toNat_unaryFn op (lt_of_trunc_eq hv)
  have hexec := (exec_unary op sz (.mem m) s).trans (unaryMeaning_mem he hw)
  have frame := exec_frame hexec
  rw [regsWritten_unary, flagsWritten_unary, storedBytes_unary, unaryBytes, he] at frame
  rw [← hr]
  exact ⟨_, hexec, by rw [peek_result hs htrunc], flagsNZ_setNZ _ htrunc _, frame.regs, frame.bits (by simp [unaryDest]),
    frame.memExcept, frame.launch, rfl⟩

end Sys2Proof.UnaryFacts
end

section
/-! PROOFS. The two-operand instructions and BIT (41_alu): additions, subtractions and the bitwise ones as arithmetic,
and what the instruction leaves. -/

namespace Sys2Proof.AluFacts

open Sys2Proof.Machine Sys2Proof.FamilyFacts Sys2Proof.FrameFacts Sys2Proof.UnaryFacts

open Sys2Proof.ControlFacts (two_pow_bits signedOf_eq toNat_trunc_not signBit_trunc_not aluSource_lt)

/-! `AddFlags` on `s`-bit numbers (41_alu R132). -/

theorem toNat_addFlags_r (sz : Size) (a b : Word) (c : Bool) :
    (addFlags sz a b c).r.toNat = (a.toNat + b.toNat + c.toNat) % 2 ^ sz.bits := by
  have hlt := Nat.mod_lt (a.toNat + b.toNat + c.toNat) (Nat.two_pow_pos sz.bits)
  have hword := two_pow_bits_le sz
  rw [addFlags, BitVec.toNat_ofNat, Nat.mod_eq_of_lt (by omega)]

theorem addFlags_c (sz : Size) (a b : Word) (c : Bool) :
    (addFlags sz a b c).c = decide (2 ^ sz.bits ≤ a.toNat + b.toNat + c.toNat) := by
  have hpos := Nat.two_pow_pos sz.bits
  rw [addFlags, Bool.eq_iff_iff, bne_iff_ne, decide_eq_true_eq, Nat.div_ne_zero_iff]
  omega

theorem addFlags_r_lt (sz : Size) (a b : Word) (c : Bool) : (addFlags sz a b c).r.toNat < 2 ^ sz.bits := by
  rw [toNat_addFlags_r]
  exact Nat.mod_lt _ (Nat.two_pow_pos _)

theorem overflows_eq (sz : Size) (n : Int) :
    overflows sz n = decide (n < -((2 ^ (sz.bits - 1) : Nat) : Int) ∨ ((2 ^ (sz.bits - 1) : Nat) : Int) ≤ n) := by
  cases sz <;> rfl

/-- V is signed overflow: the signs of the operands agree and that of the sum differs where the sum does not fit. -/
theorem addFlags_v {sz : Size} {a b : Word} (ha : a.toNat < 2 ^ sz.bits) (hb : b.toNat < 2 ^ sz.bits) (c : Bool) :
    (addFlags sz a b c).v = overflows sz (signedOf sz a.toNat + signedOf sz b.toNat + c.toNat) := by
  have hv : (addFlags sz a b c).v
      = (signBit sz a == signBit sz b && signBit sz (addFlags sz a b c).r != signBit sz a) := rfl
  have hc := Bool.toNat_lt c
  rw [hv, overflows_eq, signBit_eq_decide sz _ (addFlags_r_lt sz a b c), toNat_addFlags_r, signedOf_eq, signedOf_eq,
    signBit_eq_decide sz a ha, signBit_eq_decide sz b hb]
  rw [two_pow_bits] at ha hb ⊢
  generalize 2 ^ (sz.bits - 1) = half at ha hb ⊢
  have hmod : (a.toNat + b.toNat + c.toNat) % (2 * half) = if a.toNat + b.toNat + c.toNat < 2 * half
      then a.toNat + b.toNat + c.toNat else a.toNat + b.toNat + c.toNat - 2 * half := by
    split
    next h => exact Nat.mod_eq_of_lt h
    next h => rw [Nat.mod_eq_sub_mod (by omega), Nat.mod_eq_of_lt (by omega)]
  rw [hmod, Bool.eq_iff_iff]
  simp only [Bool.and_eq_true, beq_iff_eq, bne_iff_ne, ne_eq, decide_eq_decide, decide_eq_true_eq]
  split_ifs <;> omega

/-! `SubFlags` (41_alu R133): the second operand is complemented. -/

section
variable {sz : Size} {b : Word} (hb : b.toNat < 2 ^ sz.bits)
include hb

theorem toNat_subFlags_r (a : Word) (c : Bool) :
    (subFlags sz a b c).r.toNat = (a.toNat + 2 ^ sz.bits - b.toNat - (1 - c.toNat)) % 2 ^ sz.bits := by
  have hc := Bool.toNat_lt c
  rw [subFlags, toNat_addFlags_r, toNat_trunc_not hb]
  congr 1
  omega

theorem subFlags_c (a : Word) (c : Bool) :
    (subFlags sz a b c).c = decide (b.toNat + (1 - c.toNat) ≤ a.toNat) := by
  have hc := Bool.toNat_lt c
  rw [subFlags, addFlags_c, toNat_trunc_not hb, decide_eq_decide]
  omega

/-- The complement of a number reads as minus it, less one. -/
theorem signedOf_trunc_not : signedOf sz (trunc sz (~~~ b)).toNat = -signedOf sz b.toNat - 1 := by
  rw [toNat_trunc_not hb, signedOf_eq, signedOf_eq]
  rw [two_pow_bits] at hb ⊢
  split_ifs <;> omega

theorem subFlags_v {a : Word} (ha : a.toNat < 2 ^ sz.bits) (c : Bool) :
    (subFlags sz a b c).v
      = overflows sz (signedOf sz a.toNat - signedOf sz b.toNat - (1 - (c.toNat : Int))) := by
  rw [subFlags, addFlags_v ha (toNat_trunc_lt sz _), signedOf_trunc_not hb]
  congr 1
  omega

end

/-! Each of the eight. -/

section
variable {sz : Size} {a b : Word} (hb : b.toNat < 2 ^ sz.bits) (c : Bool)

/-- BIC keeps the bits of `a` that the `s`-bit complement of `b` has. -/
theorem and_not_eq {sz : Size} {a : Word} (b : Word) (h : trunc sz a = a) : a &&& ~~~ b = a &&& trunc sz (~~~ b) := by
  apply BitVec.eq_of_getLsbD_eq
  intro i _
  have ha : a.getLsbD i = (decide (i < sz.bits) && a.getLsbD i) := by rw [← getLsbD_trunc, h]
  rw [BitVec.getLsbD_and, BitVec.getLsbD_and, getLsbD_trunc, ha]
  cases decide (i < sz.bits) <;> simp

include hb

theorem toNat_aluFn (ha : a.toNat < 2 ^ sz.bits) (op : AluOp) :
    (aluFn op sz a b c).value.toNat = aluResult op sz a.toNat b.toNat c.toNat := by
  cases op with
  | adc => exact toNat_addFlags_r sz a b c
  | add => exact toNat_addFlags_r sz a b false
  | and => exact BitVec.toNat_and a b
  | bic =>
    show (a &&& ~~~ b).toNat = a.toNat &&& (2 ^ sz.bits - 1 - b.toNat)
    rw [and_not_eq b (trunc_eq_of_lt ha), BitVec.toNat_and, toNat_trunc_not hb]
  | eor => exact BitVec.toNat_xor a b
  | ora => exact BitVec.toNat_or a b
  | sbc => exact toNat_subFlags_r hb a c
  | sub => exact toNat_subFlags_r hb a true

/-- Each result is an `s`-bit number. -/
theorem trunc_aluFn (ha : a.toNat < 2 ^ sz.bits) (op : AluOp) :
    trunc sz (aluFn op sz a b c).value = (aluFn op sz a b c).value := by
  apply trunc_eq_of_lt
  cases op with
  | adc => exact addFlags_r_lt sz a b c
  | add => exact addFlags_r_lt sz a b false
  | and => exact Nat.lt_of_le_of_lt Nat.and_le_left ha
  | bic => exact Nat.lt_of_le_of_lt Nat.and_le_left ha
  | eor => exact Nat.xor_lt_two_pow ha hb
  | ora => exact Nat.or_lt_two_pow ha hb
  | sbc => exact addFlags_r_lt sz a _ c
  | sub => exact addFlags_r_lt sz a _ true

/-- C and V of each. -/
theorem cv_aluFn (ha : a.toNat < 2 ^ sz.bits) (op : AluOp) :
    (aluFn op sz a b c).cv = aluCarryOverflow op sz a.toNat b.toNat c.toNat := by
  cases op with
  | adc => exact congrArg some (Prod.ext (addFlags_c sz a b c) (addFlags_v ha hb c))
  | add =>
    refine congrArg some (Prod.ext (addFlags_c sz a b false) ((addFlags_v ha hb false).trans ?_))
    rw [Bool.toNat_false, Nat.cast_zero, add_zero]
  | sbc => exact congrArg some (Prod.ext (subFlags_c hb a c) (subFlags_v hb ha c))
  | sub =>
    refine congrArg some (Prod.ext (subFlags_c hb a true) ((subFlags_v hb ha true).trans ?_))
    rw [Bool.toNat_true, Nat.cast_one, sub_self, sub_zero]
  | _ => rfl

end

/-- The state a two-operand instruction leaves. -/
def aluWritten (s : State) (rd : Reg) (sz : Size) (out : AluResult) (next : Addr) : State :=
  ((((s.writeReg rd sz out.value).putCV out.cv).setNZ out.value sz).setPc next)

theorem exec_alu_next {op : AluOp} {sz : Size} {f : AluForm} {s : State} {b : Word}
    (hb : s.aluSource (s.nextPc (f.words sz)) sz f = .ok b) :
    exec (.alu op sz f) s
      = .next (aluWritten s (aluDest f) sz (aluFn op sz (s.readReg (aluDest f) sz) b (s.flag Params.flagC))
          (s.nextPc (f.words sz))) := by
  rw [exec_alu]
  show outcome (s.aluSource (s.nextPc (f.words sz)) sz f >>= _) = _
  rw [hb]
  rfl

theorem reg_putCV_ne (s : State) (cv : Option (Bool × Bool)) {r : Reg} (h : r ≠ .p) : (s.putCV cv).reg r = s.reg r := by
  cases cv with
  | none => rfl
  | some x => exact State.reg_setCV_ne s x.1 x.2 h

theorem readReg_aluWritten (s : State) {rd : Reg} (sz : Size) (out : AluResult) (next : Addr) (h : rd ≠ .p) :
    (aluWritten s rd sz out next).readReg rd sz = trunc sz out.value := by
  rw [aluWritten, State.readReg_setPc, readReg_setNZ_ne _ _ _ _ h, State.readReg, reg_putCV_ne _ _ h]
  exact State.readReg_writeReg s rd sz out.value

/-- C and V are those of the result, where it has them. -/
theorem flags_aluWritten (s : State) (rd : Reg) (sz : Size) {out : AluResult} {cy ov : Bool} (h : out.cv = some (cy, ov))
    (next : Addr) : (aluWritten s rd sz out next).flag Params.flagC = cy ∧
      (aluWritten s rd sz out next).flag Params.flagV = ov := by
  rw [aluWritten, h]
  exact ⟨(State.flag_setNZ _ _ sz Params.flagC).trans (State.flag_setCV _ _ _ Params.flagC),
    (State.flag_setNZ _ _ sz Params.flagV).trans (State.flag_setCV _ _ _ Params.flagV)⟩

/-- Which flags an instruction writes goes with whether its result has C and V. -/
theorem aluFlags_eq (op : AluOp) (sz : Size) (a b c : Nat) : aluFlags op = match aluCarryOverflow op sz a b c with
    | some _ => [Params.flagN, Params.flagZ, Params.flagC, Params.flagV]
    | none => [Params.flagN, Params.flagZ] := by cases op <;> rfl

/-- Settles O31: the result in `rd`, C and V of it, then N and Z. -/
theorem aluOperations : Obligations.AluOperations := by
  intro op sz f s b hrd hb rd a c r
  have ha : (s.readReg rd sz).toNat < 2 ^ sz.bits := lt_of_trunc_eq (trunc_readReg s rd sz)
  have hlt := aluSource_lt hb
  have htrunc := trunc_aluFn hlt (s.flag Params.flagC) ha op
  have hr : (aluFn op sz (s.readReg rd sz) b (s.flag Params.flagC)).value.toNat = r := toNat_aluFn hlt _ ha op
  have hcv : (aluFn op sz (s.readReg rd sz) b (s.flag Params.flagC)).cv = aluCarryOverflow op sz a b.toNat c :=
    cv_aluFn hlt _ ha op
  have hexec := exec_alu_next (op := op) hb
  have frame := exec_frame hexec
  rw [regsWritten_alu, flagsWritten_alu, storedBytes_alu] at frame
  have hbits := frame.bits (by simpa using hrd.symm)
  rw [← hr]
  refine ⟨_, hexec, by rw [readReg_aluWritten s sz _ _ hrd, htrunc], flagsNZ_setNZ _ htrunc _, ?_,
    regsExcept_mono frame.regs (by simp [rd]), frame.memSame, frame.launch, rfl⟩
  rw [aluFlags_eq op sz a b.toNat c] at hbits
  cases h : aluCarryOverflow op sz a b.toNat c with
  | none =>
    rw [h] at hbits
    exact hbits
  | some x =>
    rw [h] at hbits
    obtain ⟨hcy, hov⟩ := flags_aluWritten s rd sz (hcv.trans h) (s.nextPc (f.words sz))
    exact ⟨hcy, hov, hbits⟩

/-! BIT (R138). -/

/-- The state BIT leaves. -/
def tested (s : State) (n v z : Bool) (next : Addr) : State :=
  (((s.setFlag Params.flagN n).setFlag Params.flagV v).setFlag Params.flagZ z).setPc next

theorem flags_tested (s : State) (n v z : Bool) (next : Addr) :
    (tested s n v z next).flag Params.flagN = n ∧ (tested s n v z next).flag Params.flagV = v ∧
      (tested s n v z next).flag Params.flagZ = z := by
  have h (j : Nat) : (tested s n v z next).flag j = if j = Params.flagZ then z else if j = Params.flagV then v
      else if j = Params.flagN then n else s.flag j := by
    rw [← State.flag_setFlag s _ j n (by decide), ← State.flag_setFlag _ _ j v (by decide),
      ← State.flag_setFlag _ _ j z (by decide)]
    rfl
  exact ⟨h _, h _, h _⟩

/-- Settles O32: three flags of P are written, and pc. -/
theorem bitTest : Obligations.BitTest := by
  intro sz f s b hb
  have hexec : exec (.bit sz f) s = .next (tested s (signBit sz b) (b.getLsbD (sz.bits - 2))
      (b &&& s.readReg (testDest f) sz == 0) (s.nextPc f.words)) := by
    show outcome (s.testSource (s.nextPc f.words) sz f >>= _) = _
    rw [hb]
    rfl
  have frame := exec_frame hexec
  obtain ⟨hn, hv, hz⟩ := flags_tested s (signBit sz b) (b.getLsbD (sz.bits - 2))
    (b &&& s.readReg (testDest f) sz == 0) (s.nextPc f.words)
  have hbits : PBitsExcept [Params.flagN, Params.flagZ, Params.flagV] s _ := frame.bits (by simp [regsWritten])
  exact ⟨_, hexec, hn, hv, hz.trans (Bool.beq_eq_decide_eq _ _), frame.regs,
    fun i hi hF => hbits i hi (by simpa [or_comm, or_left_comm] using hF), frame.memSame, frame.launch, rfl⟩

end Sys2Proof.AluFacts
end

section
/-! PROOFS. LDR, STR, MOV, PSH and PUL (45_move). -/

namespace Sys2Proof.MoveFacts

open Sys2Proof.Machine Sys2Proof.FamilyFacts Sys2Proof.FrameFacts Sys2Proof.MemoryFacts Sys2Proof.UnaryFacts

/-- The value LDR loads is an `s`-bit number. -/
theorem trunc_loadSource {s : State} {next : Addr} {sz : Size} {f : LoadForm} {v : Word}
    (h : s.loadSource next sz f = .ok v) : trunc sz v = v := by
  cases f with
  | imm rd w =>
    cases h
    exact trunc_trunc sz w
  | mem rd m =>
    obtain ⟨ea, -, hl⟩ := bind_eq_ok.mp h
    obtain ⟨-, rfl⟩ := State.load_ok hl
    exact State.trunc_peek s ea sz

/-- Settles O53: the operand in `rd`, N and Z from it. -/
theorem loads : Obligations.Loads := by
  intro sz f s v hrd hv
  have htrunc := trunc_loadSource hv
  have hexec : exec (.ldr sz f) s
      = .next (((s.writeReg (loadDest f) sz v).setNZ v sz).setPc (s.nextPc (f.words sz))) := by
    show outcome (s.loadSource (s.nextPc (f.words sz)) sz f >>= _) = _
    rw [hv]
    rfl
  have frame := exec_frame hexec
  exact ⟨_, hexec, readReg_result s hrd htrunc _, flagsNZ_setNZ _ htrunc _,
    regsExcept_mono frame.regs (by simp [regsWritten]), frame.bits (by simpa [regsWritten] using hrd.symm),
    frame.memSame, frame.launch, rfl⟩

/-- Settles O54: the register's value at the operand's address, N and Z from it. -/
theorem stores : Obligations.Stores := by
  intro sz rd m s ea hs he hw
  have htrunc := trunc_readReg s rd sz
  have hexec : exec (.str sz rd m) s
      = .next (((s.poke ea sz (s.readReg rd sz)).setNZ (s.readReg rd sz) sz).setPc (s.nextPc (1 + m.words))) := by
    show outcome (s.effAddr (s.nextPc (1 + m.words)) m >>= _) = _
    rw [he, ok_bind, State.store_of_writable hw]
    rfl
  have frame := exec_frame hexec
  rw [show storedBytes s (.str sz rd m) = bytesAt (s.effAddr (s.nextPc (1 + m.words)) m) sz from rfl, he] at frame
  exact ⟨_, hexec, peek_result hs htrunc _, flagsNZ_setNZ _ htrunc _, frame.regs, frame.bits (by simp [regsWritten]),
    frame.memExcept, frame.launch, rfl⟩

/-! MOV (R243). -/

/-- N and Z after the flags of MOV are those of the value moved. -/
theorem flagsNZ_movFlags (s : State) {sz : Size} {v : Word} (h : trunc sz v = v) (next : Addr) :
    FlagsNZ ((s.movFlags v sz).setPc next) sz v.toNat :=
  flagsNZ_of_flag (lt_of_trunc_eq h) (State.getLsbD_p_movFlags s v sz 7) (State.getLsbD_p_movFlags s v sz 1)

/-- Settles O55: to P the value alone is written; to any other register its flags too. -/
theorem moves : Obligations.Moves := by
  intro sz row rd rs s
  have htrunc := trunc_readReg s rs sz
  by_cases hrd : rd = .p
  · have hexec : exec (.mov sz row rd rs) s = .next ((s.writeReg rd sz (s.readReg rs sz)).setPc (s.nextPc 1)) := by
      show Host.Outcome.next ((if rd = .p then _ else _ : State).setPc _) = _
      rw [if_pos hrd]
    have frame := exec_frame hexec
    exact ⟨_, hexec, by rw [State.readReg_setPc, State.readReg_writeReg, htrunc],
      regsExcept_mono frame.regs (by simp [regsWritten]), fun h => absurd hrd h, frame.memSame, frame.launch, rfl⟩
  · have hexec : exec (.mov sz row rd rs) s
        = .next (((s.writeReg rd sz (s.readReg rs sz)).movFlags (s.readReg rs sz) sz).setPc (s.nextPc 1)) := by
      show Host.Outcome.next ((if rd = .p then _ else _ : State).setPc _) = _
      rw [if_neg hrd]
    have frame := exec_frame hexec
    have hvalue : (((s.writeReg rd sz (s.readReg rs sz)).movFlags (s.readReg rs sz) sz).setPc (s.nextPc 1)).readReg rd sz
        = s.readReg rs sz := by
      rw [State.readReg_setPc, State.readReg, State.reg_movFlags_ne _ _ _ hrd]
      exact (State.readReg_writeReg s rd sz _).trans htrunc
    exact ⟨_, hexec, hvalue, regsExcept_mono frame.regs (by simp [regsWritten]), fun _ => ⟨flagsNZ_movFlags _ htrunc _,
      frame.bits (by simpa [regsWritten] using Ne.symm hrd)⟩, frame.memSame, frame.launch, rfl⟩

/-! PSH and PUL (R245, R246). -/

theorem trunc_slotValue (s : State) (next : Addr) (sz : Size) (rd : Slot) :
    trunc sz (s.slotValue next sz rd) = s.slotValue next sz rd := by
  cases rd with
  | pc | reg => exact trunc_trunc sz _

/-- PSH where the bytes that end at the pointer are writable. -/
theorem exec_psh {s : State} {r : Reg} {sz : Size} (rd : Slot)
    (h : Writable s (s.reg r - BitVec.ofNat 32 sz.bytes + 1) sz) :
    exec (.psh sz rd (.reg r)) s
      = .next (((pushed s r sz (s.slotValue (s.nextPc 1) sz rd)).setNZ (s.slotValue (s.nextPc 1) sz rd) sz).setPc
          (s.nextPc 1)) := by
  show outcome (s.push r sz (s.slotValue (s.nextPc 1) sz rd) >>= _) = _
  rw [push_eq_pushed (by rwa [pushAddr_eq])]
  rfl

/-- Settles O56: the value pushed, N and Z from it. -/
theorem pushes : Obligations.Pushes := by
  intro sz rd r s _ hs hr n v hw
  have hv : s.slotValue (s.nextPc 1) sz rd = v := by cases rd <;> rfl
  have htrunc : trunc sz v = v := hv ▸ trunc_slotValue s (s.nextPc 1) sz rd
  have hexec := exec_psh rd hw
  rw [hv] at hexec
  have frame := exec_frame hexec
  have hpeek : (pushed s r sz v).peek (s.reg r - n + 1) sz = v := by
    rw [← pushAddr_eq, peek_pushed hs, htrunc]
  have hpointer : ((pushed s r sz v).setNZ v sz).reg r = s.reg r - n := by
    rw [State.reg_setNZ_ne _ _ _ hr, reg_pushed_self]
  exact ⟨_, hexec, hpeek, hpointer, flagsNZ_setNZ _ htrunc _, regsExcept_mono frame.regs (by simp [regsWritten, stackRegs]),
    frame.bits (by simpa [regsWritten, stackRegs] using hr.symm), frame.memExcept, frame.launch, rfl⟩

/-- PUL to a register other than P. -/
theorem exec_pul_reg {s u : State} {r q : Reg} {sz : Size} {v : Word} (hq : q ≠ .p) (h : s.pull r sz = .ok (v, u)) :
    exec (.pul sz (.reg q) (.reg r)) s = .next (((u.writeReg q sz v).setNZ v sz).setPc (s.nextPc 1)) := by
  show outcome (s.pull r sz >>= _) = _
  rw [h]
  cases q with
  | p => exact absurd rfl hq
  | _ => rfl

theorem exec_pul_p {s u : State} {r : Reg} {sz : Size} {v : Word} (h : s.pull r sz = .ok (v, u)) :
    exec (.pul sz (.reg .p) (.reg r)) s = .next ((u.writeReg .p sz v).setPc (s.nextPc 1)) := by
  show outcome (s.pull r sz >>= _) = _
  rw [h]
  rfl

theorem exec_pul_pc {s u : State} {r : Reg} {sz : Size} {v : Word} (h : s.pull r sz = .ok (v, u)) :
    exec (.pul sz .pc (.reg r)) s = .next ((u.setNZ v sz).setPc v) := by
  show outcome (s.pull r sz >>= _) = _
  rw [h]
  rfl

/-- Settles O57: the pointer is raised, then the destination is written. -/
theorem pulls : Obligations.Pulls := by
  intro sz r s hr hread n v
  have htrunc : trunc sz v = v := State.trunc_peek s _ sz
  have hpull : s.pull r sz = .ok (v, s.setReg r (s.reg r + n)) := State.pull_of_readable hread
  have hraised : (s.setReg r (s.reg r + n)).reg r = s.reg r + n := by rw [State.reg_setReg, if_pos rfl]
  refine ⟨fun q hq => ?_, ?_, fun hsz => ?_⟩
  · have hexec := exec_pul_reg hq hpull
    have frame := exec_frame hexec
    refine ⟨_, hexec, readReg_result _ hq htrunc _, fun hqr => ?_, flagsNZ_setNZ _ htrunc _,
      regsExcept_mono frame.regs (by simp [regsWritten, stackRegs]),
      frame.bits (by simp [regsWritten, stackRegs, hq.symm, hr.symm]), frame.memSame, frame.launch, rfl⟩
    rw [State.reg_setPc, State.reg_setNZ_ne _ _ _ hr, State.reg_writeReg_ne _ _ _ (Ne.symm hqr), hraised]
  · have hexec := exec_pul_p hpull
    have frame := exec_frame hexec
    refine ⟨_, hexec, by rw [State.readReg_setPc, State.readReg_writeReg, htrunc], ?_,
      regsExcept_mono frame.regs (by simp [regsWritten, stackRegs]), frame.memSame, frame.launch, rfl⟩
    rw [State.reg_setPc, State.reg_writeReg_ne _ _ _ hr, hraised]
  · have hexec := exec_pul_pc hpull
    have frame := exec_frame hexec
    refine ⟨_, hexec, rfl, ?_, flagsNZ_setNZ _ htrunc _, regsExcept_mono frame.regs (by simp [regsWritten, stackRegs]),
      frame.bits (by simpa [regsWritten, stackRegs] using hr.symm), frame.memSame, frame.launch⟩
    rw [State.reg_setPc, State.reg_setNZ_ne _ _ _ hr, hraised]

/-- Settles O58: the pull finds what the push stored, and raises the pointer by as much. -/
theorem pulUndoesPsh : Obligations.PulUndoesPsh := by
  intro sz q r s hs hr hw
  obtain ⟨t, hpsh, hpeek, hpointer, -, htregs, -, -, ⟨hm, ht, hh, hsup⟩, -⟩ := pushes sz (.reg q) r s rfl hs hr hw
  have haddr : t.reg r + 1 = s.reg r - BitVec.ofNat 32 sz.bytes + 1 := by rw [hpointer]
  have hread : Readable t (t.reg r + 1) sz := by
    rw [haddr, Readable, hm]
    exact hw.1
  have hvalue : t.peek (t.reg r + 1) sz = s.readReg q sz := by rw [haddr, hpeek]
  have hraised : t.reg r + BitVec.ofNat 32 sz.bytes = s.reg r := by rw [hpointer, BitVec.sub_add_cancel]
  obtain ⟨toReg, ⟨u, hpulP, hvalueP, hpointerP, huregsP, humemP, hlaunchP, -⟩, -⟩ := pulls sz r t hr hread
  -- PUL answers, whether its destination is P or another register
  obtain ⟨u, hpul, hu, hur, huregs, humem, ⟨hum, hut, huh, husup⟩⟩ : ∃ u, exec (.pul sz (.reg q) (.reg r)) t = .next u ∧
      u.readReg q sz = t.peek (t.reg r + 1) sz ∧ (q ≠ r → u.reg r = t.reg r + BitVec.ofNat 32 sz.bytes) ∧
      RegsExcept [q, r, .p] t u ∧ MemSame t u ∧ SameLaunch t u := by
    by_cases hq : q = .p
    · subst hq
      exact ⟨u, hpulP, hvalueP, fun _ => hpointerP, regsExcept_mono huregsP (by simp), humemP, hlaunchP⟩
    · obtain ⟨u, hpul, hu, hur, -, huregs, -, humem, hlaunch, -⟩ := toReg q hq
      exact ⟨u, hpul, hu, hur, huregs, humem, hlaunch⟩
  have hrestored : q ≠ r → u.reg r = s.reg r := fun hqr => (hur hqr).trans hraised
  refine ⟨t, u, hpsh, hpul, hu.trans hvalue, hrestored, fun x hx => ?_, humem, hum.trans hm, hut.trans ht, huh.trans hh,
    husup.trans hsup⟩
  obtain ⟨hxq, hxp⟩ : x ≠ q ∧ x ≠ .p := by simpa using hx
  by_cases hxr : x = r
  · subst hxr
    exact hrestored (Ne.symm hxq)
  · rw [huregs x (by simp [hxq, hxr, hxp]), htregs x (by simp [hxr, hxp])]

end Sys2Proof.MoveFacts
end

section
/-! PROOFS. CBT, SBT, TBT, XBT (44_bitops): one bit of a register or of a word of memory. -/

namespace Sys2Proof.BitFacts

open Sys2Proof.Machine Sys2Proof.FamilyFacts Sys2Proof.FrameFacts Sys2Proof.TransferFacts

/-- What each of the three makes of the bit it names. -/
def newBit : BitOp → Bool → Bool
  | .cbt, _ => false
  | .sbt, _ => true
  | .tbt, x => x
  | .xbt, x => !x

/-- The bit named is replaced and every other bit is kept. -/
theorem getLsbD_bitFn (op : BitOp) (v : Word) (b : BitVec 5) {k : Nat} (hk : k < 32) :
    (bitFn op v (bitMask b.toNat)).getLsbD k = if k = b.toNat then newBit op (v.getLsbD k) else v.getLsbD k := by
  have hmask : (bitMask b.toNat).getLsbD k = decide (k = b.toNat) := by
    rw [getLsbD_bitMask, decide_eq_true hk, Bool.true_and]
  cases op with
  | cbt =>
    rw [bitFn, BitVec.getLsbD_and, BitVec.getLsbD_not, hmask, decide_eq_true hk]
    split <;> simp [*, newBit]
  | sbt =>
    rw [bitFn, BitVec.getLsbD_or, hmask]
    split <;> simp [*, newBit]
  | tbt => exact (ite_self _).symm
  | xbt =>
    rw [bitFn, BitVec.getLsbD_xor, hmask]
    split <;> simp [*, newBit]

/-- CBT, SBT or XBT of a register. -/
theorem bit_on_register {op : BitOp} (hop : op ≠ .tbt) (rd : Reg) (b : BitVec 5) (s : State) :
    ∃ t, exec (.bitop op (.reg rd) b) s = .next t ∧
      (∀ k < 32, (t.reg rd).getLsbD k
        = if k = b.toNat then newBit op ((s.reg rd).getLsbD k) else (s.reg rd).getLsbD k) ∧
      RegsExcept [rd] s t ∧ MemSame s t ∧ SameLaunch s t ∧ t.pc = s.pc + 2 := by
  have hexec := (exec_bitop hop (.reg rd) b s).trans (bitMeaning_reg (bitFn op) rd b s)
  have frame := exec_frame hexec
  rw [regsWritten_bitop hop, flagsWritten_bitop hop, storedBytes_bitop hop] at frame
  refine ⟨_, hexec, fun k hk => ?_, frame.regsExcept_of_no_flags, frame.memSame, frame.launch, rfl⟩
  rw [State.reg_setPc, State.reg_setReg, if_pos rfl, getLsbD_bitFn op _ b hk]

/-- Settles O50: each of the three, on a register. -/
theorem bitOnRegister : Obligations.BitOnRegister := fun rd b s =>
  ⟨bit_on_register (op := .cbt) (by decide) rd b s, bit_on_register (op := .sbt) (by decide) rd b s,
    bit_on_register (op := .xbt) (by decide) rd b s⟩

theorem bitMeaning_mem {fn : Word → Word → Word} {a ea : Word} {ri : Index} {b : BitVec 5} {s : State}
    (he : s.bitAddr (s.nextPc 3) a ri = ea) (hw : Writable s ea .l) :
    bitMeaning fn (.mem a ri) b s
      = .next ((s.poke ea .l (fn (s.peek ea .l) (bitMask b.toNat))).setPc (s.nextPc 3)) := by
  show outcome (s.load (s.bitAddr (s.nextPc 3) a ri) .l >>= fun v =>
    s.store (s.bitAddr (s.nextPc 3) a ri) .l (fn v (bitMask b.toNat)) >>= fun u =>
      Except.ok (u.setPc (s.nextPc 3))) = _
  rw [he, State.load_of_readable hw.1, ok_bind, State.store_of_writable hw]
  rfl

/-- CBT, SBT or XBT of a word of memory. -/
theorem bit_on_memory {op : BitOp} (hop : op ≠ .tbt) {a ea : Word} {ri : Index} (b : BitVec 5) {s : State} (hs : s.Inv)
    (he : s.bitAddr (s.nextPc 3) a ri = ea) (hw : Writable s ea .l) :
    ∃ t, exec (.bitop op (.mem a ri) b) s = .next t ∧
      (∀ k < 32, (t.peek ea .l).getLsbD k
        = if k = b.toNat then newBit op ((s.peek ea .l).getLsbD k) else (s.peek ea .l).getLsbD k) ∧
      RegsExcept [] s t ∧ MemExcept ea 4 s t ∧ SameLaunch s t ∧ t.pc = s.pc + 6 := by
  have hexec := (exec_bitop hop (.mem a ri) b s).trans (bitMeaning_mem he hw)
  have frame := exec_frame hexec
  rw [regsWritten_bitop hop, flagsWritten_bitop hop, storedBytes_bitop hop, bitBytes, he] at frame
  refine ⟨_, hexec, fun k hk => ?_, frame.regsExcept_of_no_flags, frame.memExcept, frame.launch, rfl⟩
  rw [State.peek_setPc, State.peek_poke hs, trunc_l, getLsbD_bitFn op _ b hk]

/-- The address of a bit instruction's operand. -/
theorem bitAddr_eq (s : State) (a : Word) (ri : Index) : s.bitAddr (s.nextPc 3) a ri = a + (match ri with
    | .zero => 0
    | .pc => s.pc + 6
    | .reg r => s.reg r) := congrArg (a + ·) (indexValue_eq s (s.nextPc 3) ri)

/-- Settles O51: each of the three, on a word of memory. -/
theorem bitOnMemory : Obligations.BitOnMemory := by
  intro a ri b s hs ea hw
  have he : s.bitAddr (s.nextPc 3) a ri = ea := bitAddr_eq s a ri
  exact ⟨bit_on_memory (op := .cbt) (by decide) b hs he hw, bit_on_memory (op := .sbt) (by decide) b hs he hw,
    bit_on_memory (op := .xbt) (by decide) b hs he hw⟩

/-! TBT (R224). -/

/-- The and with the mask is 0 where the bit is. -/
theorem and_bitMask_eq_zero (v : Word) (b : BitVec 5) : (v &&& bitMask b.toNat == 0) = !v.getLsbD b.toNat := by
  have hb : b.toNat < 32 := b.isLt
  have hbit (k : Nat) (hk : k < 32) :
      (v &&& bitMask b.toNat).getLsbD k = (v.getLsbD k && decide (k = b.toNat)) := by
    rw [BitVec.getLsbD_and, getLsbD_bitMask, decide_eq_true hk, Bool.true_and]
  cases hv : v.getLsbD b.toNat with
  | false =>
    rw [Bool.not_false, beq_iff_eq]
    refine BitVec.eq_of_getLsbD_eq fun k hk => ?_
    rw [hbit k hk]
    by_cases h : k = b.toNat
    · subst h
      simp [hv]
    · simp [h]
  | true =>
    rw [Bool.not_true, beq_eq_false_iff_ne]
    intro h0
    have hset := hbit _ hb
    rw [h0, hv] at hset
    simp at hset

/-- TBT of an operand that is read writes Z and pc. -/
theorem bit_is_tested {f : BitForm} (b : BitVec 5) {s : State} {v : Word} (h : s.bitOperand (s.nextPc f.words) f = .ok v) :
    ∃ t, exec (.tbt f b) s = .next t ∧ t.flag Params.flagZ = !v.getLsbD b.toNat ∧
      RegsExcept [.p] s t ∧ PBitsExcept [Params.flagZ] s t ∧ MemSame s t ∧ SameLaunch s t ∧ t.pc = s.nextPc f.words := by
  have hexec : exec (.tbt f b) s
      = .next ((s.setFlag Params.flagZ (v &&& bitMask b.toNat == 0)).setPc (s.nextPc f.words)) := by
    show outcome (s.bitOperand (s.nextPc f.words) f >>= _) = _
    rw [h]
    rfl
  have frame := exec_frame hexec
  have hz : (s.setFlag Params.flagZ (v &&& bitMask b.toNat == 0)).flag Params.flagZ = !v.getLsbD b.toNat := by
    rw [State.flag_setFlag _ _ _ _ (by decide), if_pos rfl, and_bitMask_eq_zero]
  exact ⟨_, hexec, hz, frame.regs, frame.bits (by simp [regsWritten]), frame.memSame, frame.launch, rfl⟩

/-- Settles O52: a register, or a readable word of memory. -/
theorem bitIsTested : Obligations.BitIsTested := by
  intro b s
  refine ⟨fun rd => bit_is_tested (f := .reg rd) b rfl, ?_⟩
  intro a ri ea hread
  refine bit_is_tested (f := .mem a ri) b (v := s.peek ea .l) ?_
  have he : s.bitAddr (s.nextPc 3) a ri = ea := bitAddr_eq s a ri
  show s.load (s.bitAddr (s.nextPc 3) a ri) .l = _
  rw [he, State.load_of_readable hread]

end Sys2Proof.BitFacts
end

section
/-! PROOFS. The shifts and rotates (42_shift): which counts answer, and what is left on a register and in memory, for
any one-bit step. -/

namespace Sys2Proof.ShiftFacts

open Sys2Proof.Machine Sys2Proof.FamilyFacts Sys2Proof.FrameFacts Sys2Proof.UnaryFacts

/-! A step repeated. -/

/-- One step of a shift on value and carry, the value kept to `s` bits. -/
def stepped (step : OpenStep) (sz : Size) (x : Word × Bool) : Word × Bool :=
  (trunc sz (step sz x.1 x.2).1, (step sz x.1 x.2).2)

theorem repeatStep_succ (step : OpenStep) (sz : Size) (k : Nat) (x : Word × Bool) :
    repeatStep step sz (k + 1) x = repeatStep step sz k (stepped step sz x) := rfl

/-- The value stays an `s`-bit number. -/
theorem trunc_repeatStep (step : OpenStep) (sz : Size) (k : Nat) {x : Word × Bool} (h : trunc sz x.1 = x.1) :
    trunc sz (repeatStep step sz k x).1 = (repeatStep step sz k x).1 := by
  induction k generalizing x with
  | zero => exact h
  | succ k ih => exact ih (trunc_trunc sz _)

theorem repeatStep_eq_iterateStep (step : OpenStep) (sz : Size) (k : Nat) (v : Word) (c : Bool) :
    repeatStep step sz k (v, c) = iterateStep step sz k v c := by
  have h (x : Word × Bool) : repeatStep step sz k x = (stepped step sz)^[k] x := by
    induction k generalizing x with
    | zero => rfl
    | succ k ih => rw [repeatStep_succ, ih, Function.iterate_succ_apply]
  exact h (v, c)

theorem shiftValue_of_count {s : State} {step : OpenStep} {sz : Size} {k : Nat} (h1 : 1 ≤ k) (h2 : k < sz.bits)
    (v : Word) : s.shiftValue step sz k v = .ok (repeatStep step sz k (v, s.flag Params.flagC)) :=
  if_pos ⟨h1, by omega⟩

/-! What a shift leaves. -/

theorem flags_shiftFlags (s : State) {sz : Size} {v : Word} (h : trunc sz v = v) (c : Bool) (next : Addr) :
    FlagsNZ ((s.shiftFlags v c sz).setPc next) sz v.toNat ∧ ((s.shiftFlags v c sz).setPc next).flag Params.flagC = c :=
  ⟨flagsNZ_of_flag (lt_of_trunc_eq h) (State.getLsbD_p_shiftFlags s v c sz 7) (State.getLsbD_p_shiftFlags s v c sz 1),
    State.getLsbD_p_shiftFlags s v c sz 0⟩

/-- The register forms differ in where the count comes from. -/
theorem shiftMeaning_reg (step : OpenStep) (sz : Size) {f : ShiftForm} {rd : Reg} (h : shiftDest f = some rd)
    (s : State) : shiftMeaning step sz f s = outcome (s.shiftReg step sz rd (shiftCount s f) (s.nextPc f.words)) := by
  cases f with
  | one | imm | reg =>
    cases h
    rfl
  | mem => cases h

/-- A register form stores nothing. -/
theorem shiftBytes_of_dest {f : ShiftForm} {rd : Reg} (h : shiftDest f = some rd) (s : State) (sz : Size) :
    shiftBytes s sz f = [] := by
  cases f with
  | one | imm | reg => rfl
  | mem => cases h

section
variable {op : ShiftOp} {sz : Size} {s : State} (hsup : stepMissing s op = none)
include hsup

/-- A shift of a register by 1 to `s`-1. -/
theorem shift_on_register {f : ShiftForm} {rd : Reg} (hf : shiftDest f = some rd) (hrd : rd ≠ .p)
    (h1 : 1 ≤ shiftCount s f) (h2 : shiftCount s f < sz.bits) {x : Word × Bool}
    (hx : repeatStep (shiftStep op) sz (shiftCount s f) (s.readReg rd sz, s.flag Params.flagC) = x) :
    ∃ t, exec (.shift op sz f) s = .next t ∧
      t.readReg rd sz = x.1 ∧ FlagsNZ t sz x.1.toNat ∧ t.flag Params.flagC = x.2 ∧
      RegsExcept [rd, .p] s t ∧ PBitsExcept [Params.flagN, Params.flagZ, Params.flagC] s t ∧
      MemSame s t ∧ SameLaunch s t ∧ t.pc = s.nextPc f.words := by
  have htrunc : trunc sz x.1 = x.1 := hx ▸ trunc_repeatStep _ sz _ (trunc_readReg s rd sz)
  have hexec : exec (.shift op sz f) s
      = .next (((s.writeReg rd sz x.1).shiftFlags x.1 x.2 sz).setPc (s.nextPc f.words)) := by
    rw [exec_shift_of_supplied hsup, shiftMeaning_reg _ sz hf, State.shiftReg, shiftValue_of_count h1 h2, hx]
    rfl
  have frame := exec_frame hexec
  rw [regsWritten_shift, flagsWritten_shift, storedBytes_shift, shiftBytes_of_dest hf s sz, hf] at frame
  obtain ⟨hnz, hc⟩ := flags_shiftFlags (s.writeReg rd sz x.1) htrunc x.2 (s.nextPc f.words)
  refine ⟨_, hexec, ?_, hnz, hc, regsExcept_mono frame.regs (by simp), frame.bits (by simpa using hrd.symm),
    frame.memSame, frame.launch, rfl⟩
  rw [State.readReg_setPc, State.readReg, State.reg_shiftFlags_ne _ _ _ _ hrd]
  exact (State.readReg_writeReg s rd sz x.1).trans htrunc

/-- A shift of memory by 1 to 4. -/
theorem shift_on_memory {m : MemOp} {nn : BitVec 2} {ea : Addr} (hs : s.Inv)
    (he : s.effAddr (s.nextPc (1 + m.words)) m = .ok ea) (hw : Writable s ea sz) {x : Word × Bool}
    (hx : repeatStep (shiftStep op) sz (nn.toNat + 1) (s.peek ea sz, s.flag Params.flagC) = x) :
    ∃ t, exec (.shift op sz (.mem m nn)) s = .next t ∧
      t.peek ea sz = x.1 ∧ FlagsNZ t sz x.1.toNat ∧ t.flag Params.flagC = x.2 ∧
      RegsExcept [.p] s t ∧ PBitsExcept [Params.flagN, Params.flagZ, Params.flagC] s t ∧
      MemExcept ea sz.bytes s t ∧ SameLaunch s t ∧ t.pc = s.nextPc (1 + m.words) := by
  have htrunc : trunc sz x.1 = x.1 := hx ▸ trunc_repeatStep _ sz _ (State.trunc_peek s ea sz)
  have hcount : amount nn < sz.bits := by
    have := amount_le nn
    cases sz <;> simp only [Size.bits] <;> omega
  have hvalue : s.shiftValue (shiftStep op) sz (amount nn) (s.peek ea sz) = .ok x :=
    (shiftValue_of_count (Nat.succ_le_succ (Nat.zero_le _)) hcount _).trans (congrArg Except.ok hx)
  have hexec : exec (.shift op sz (.mem m nn)) s
      = .next (((s.poke ea sz x.1).shiftFlags x.1 x.2 sz).setPc (s.nextPc (1 + m.words))) := by
    rw [exec_shift_of_supplied hsup]
    show outcome (s.effAddr (s.nextPc (1 + m.words)) m >>= _) = _
    rw [he, ok_bind, State.load_of_readable hw.1, ok_bind, hvalue, ok_bind]
    show outcome (s.store ea sz x.1 >>= _) = _
    rw [State.store_of_writable hw]
    rfl
  have frame := exec_frame hexec
  rw [regsWritten_shift, flagsWritten_shift, storedBytes_shift, shiftBytes, he] at frame
  obtain ⟨hnz, hc⟩ := flags_shiftFlags (s.poke ea sz x.1) htrunc x.2 (s.nextPc (1 + m.words))
  have hpeek : (((s.poke ea sz x.1).shiftFlags x.1 x.2 sz).setPc (s.nextPc (1 + m.words))).peek ea sz = x.1 :=
    (State.peek_poke hs ea sz x.1).trans htrunc
  exact ⟨_, hexec, hpeek, hnz, hc, frame.regs, frame.bits (by simp [shiftDest]), frame.memExcept, frame.launch, rfl⟩

end

/-! ESL, RLB, RRB (R166, R168, R171). -/

theorem shiftStep_of_open {op : ShiftOp} {g : OpenStep} (h : openStepOf op = some g) : shiftStep op = g := by
  cases op <;> cases h <;> rfl

/-- Settles O35: refused where the step is missing, and otherwise that step repeated. -/
theorem openShifts : Obligations.OpenShifts := by
  intro op g sz s hg
  have hstep := shiftStep_of_open hg
  refine ⟨fun f r hr => by rw [exec_shift, hr]; rfl, fun f rd hsup hf hrd h1 h2 => ?_, fun m nn ea hsup hs he hw => ?_⟩
  · exact shift_on_register hsup hf hrd h1 h2 (by rw [hstep, repeatStep_eq_iterateStep])
  · exact shift_on_memory hsup hs he hw (by rw [hstep, repeatStep_eq_iterateStep])

/-- Settles O36: a register form is refused for a count out of range, and no other refusal names the count. -/
theorem shiftByOtherCounts : Obligations.ShiftByOtherCounts := by
  intro op sz f s hsup
  rw [exec_shift_of_supplied hsup]
  constructor
  · intro h
    rcases RefusalFacts.shift_refused h with ⟨-, hdest, hcount⟩ | hr
    · exact ⟨hdest, hcount⟩
    · simp [RefusalFacts.AccessReason] at hr
  · rintro ⟨hdest, hcount⟩
    obtain ⟨rd, hf⟩ := Option.ne_none_iff_exists'.mp hdest
    rw [shiftMeaning_reg _ sz hf, State.shiftReg, State.shiftValue, if_neg (by omega)]
    rfl

end Sys2Proof.ShiftFacts
end

section
/-! PROOFS. The five shifts whose step is given (42_shift R163 to R170), in closed form: the shifts as multiplication
and division by a power of two, the rotates by the bits of carry and operand. -/

namespace Sys2Proof.ClosedFormFacts

open Sys2Proof.Machine Sys2Proof.FamilyFacts Sys2Proof.UnaryFacts Sys2Proof.ShiftFacts

open Sys2Proof.ControlFacts (two_pow_bits signedOf_eq)

theorem testBit_toNat (v : Word) (i : Nat) : v.toNat.testBit i = v.getLsbD i := rfl

/-- An `s`-bit number has no higher bit. -/
theorem getLsbD_of_bits_le {sz : Size} {v : Word} (h : trunc sz v = v) {i : Nat} (hi : sz.bits ≤ i) :
    v.getLsbD i = false := by
  rw [← h, getLsbD_trunc, decide_eq_false (by omega), Bool.false_and]

/-- Setting a bit above all the others adds its weight. -/
theorem toNat_setBit_of_lt {w : Word} {i : Nat} (hi : i < 32) (h : w.toNat < 2 ^ i) (b : Bool) :
    (setBit w i b).toNat = 2 ^ i * b.toNat + w.toNat := by
  apply Nat.eq_of_testBit_eq
  intro j
  rw [testBit_toNat, getLsbD_setBit _ _ _ _ hi, Nat.testBit_two_pow_mul_add _ h, ← testBit_toNat]
  rcases Nat.lt_trichotomy j i with hj | rfl | hj
  · rw [if_neg (by omega), if_pos hj]
  · rw [if_pos rfl, if_neg (by omega), Nat.sub_self]
    cases b <;> rfl
  · rw [if_neg (by omega), if_neg (by omega),
      Nat.testBit_lt_two_pow (Nat.lt_of_lt_of_le h (Nat.pow_le_pow_right (by decide) hj.le))]
    have hbit : b.toNat < 2 ^ (j - i) :=
      Nat.lt_of_lt_of_le (Bool.toNat_lt b) (Nat.pow_le_pow_right (n := 2) (i := 1) (by decide) (by omega))
    exact (Nat.testBit_lt_two_pow hbit).symm

/-! ASL. -/

theorem repeat_asl_value {sz : Size} (k : Nat) {x : Word × Bool} (h : trunc sz x.1 = x.1) :
    (repeatStep aslStep sz k x).1.toNat = x.1.toNat * 2 ^ k % 2 ^ sz.bits := by
  induction k generalizing x with
  | zero => rw [pow_zero, Nat.mul_one, Nat.mod_eq_of_lt (lt_of_trunc_eq h)]; rfl
  | succ k ih =>
    have hstep : (stepped aslStep sz x).1.toNat = x.1.toNat * 2 % 2 ^ sz.bits := by
      show (trunc sz (trunc sz (x.1 <<< 1))).toNat = _
      rw [trunc_trunc, toNat_trunc, BitVec.toNat_shiftLeft, Nat.shiftLeft_eq, pow_one,
        Nat.mod_mod_of_dvd _ (Nat.pow_dvd_pow 2 sz.bits_le)]
    rw [repeatStep_succ, ih (trunc_trunc sz _), hstep, Nat.mod_mul_mod, Nat.mul_assoc, ← Nat.pow_succ']

theorem repeat_asl_carry {sz : Size} (k : Nat) (hk : k + 1 ≤ sz.bits) (x : Word × Bool) :
    (repeatStep aslStep sz (k + 1) x).2 = x.1.getLsbD (sz.bits - (k + 1)) := by
  have hbits := sz.bits_le
  induction k generalizing x with
  | zero => rfl
  | succ k ih =>
    rw [repeatStep_succ, ih (by omega)]
    show (trunc sz (trunc sz (x.1 <<< 1))).getLsbD _ = _
    rw [trunc_trunc, getLsbD_trunc, BitVec.getLsbD_shiftLeft, decide_eq_true (by omega), decide_eq_true (by omega),
      decide_eq_false (by omega)]
    rfl

/-! LSR and ASR. -/

theorem repeat_lsr_value {sz : Size} (k : Nat) {x : Word × Bool} (h : trunc sz x.1 = x.1) :
    (repeatStep lsrStep sz k x).1.toNat = x.1.toNat / 2 ^ k := by
  induction k generalizing x with
  | zero => rw [pow_zero, Nat.div_one]; rfl
  | succ k ih =>
    have hhalf : (x.1 >>> 1).toNat = x.1.toNat / 2 := BitVec.toNat_ushiftRight x.1 1
    have hstep : (stepped lsrStep sz x).1.toNat = x.1.toNat / 2 := by
      have := lt_of_trunc_eq h
      show (trunc sz (x.1 >>> 1)).toNat = _
      rw [trunc_eq_of_lt (by omega), hhalf]
    rw [repeatStep_succ, ih (trunc_trunc sz _), hstep, Nat.div_div_eq_div_mul, ← Nat.pow_succ']

/-- Where a step moves every bit but the top one down by one, its carry is the last bit moved out. -/
theorem repeat_right_carry {step : OpenStep} {sz : Size} (hcarry : ∀ v c, (step sz v c).2 = v.getLsbD 0)
    (hvalue : ∀ v c i, i + 1 < sz.bits → (step sz v c).1.getLsbD i = v.getLsbD (i + 1)) (k : Nat) (hk : k < sz.bits)
    (x : Word × Bool) : (repeatStep step sz (k + 1) x).2 = x.1.getLsbD k := by
  induction k generalizing x with
  | zero => exact hcarry x.1 x.2
  | succ k ih =>
    rw [repeatStep_succ, ih (by omega)]
    show (trunc sz (step sz x.1 x.2).1).getLsbD k = _
    rw [getLsbD_trunc, decide_eq_true (by omega), Bool.true_and, hvalue _ _ k hk]

theorem repeat_lsr_carry {sz : Size} (k : Nat) (hk : k < sz.bits) (x : Word × Bool) :
    (repeatStep lsrStep sz (k + 1) x).2 = x.1.getLsbD k :=
  repeat_right_carry (fun _ _ => rfl)
    (fun v _ i _ => (BitVec.getLsbD_ushiftRight v 1 i).trans (by rw [Nat.add_comm])) k hk x

theorem repeat_asr_carry {sz : Size} (k : Nat) (hk : k < sz.bits) (x : Word × Bool) :
    (repeatStep asrStep sz (k + 1) x).2 = x.1.getLsbD k := by
  have hbits := sz.bits_le
  refine repeat_right_carry (fun _ _ => rfl) (fun v _ i hi => ?_) k hk x
  show (setBit (v >>> 1) (sz.bits - 1) _).getLsbD i = _
  rw [getLsbD_setBit _ _ _ _ (by omega), if_neg (by omega), BitVec.getLsbD_ushiftRight, Nat.add_comm]

/-- A step of ASR halves the signed number, rounding down. -/
theorem signedOf_stepped_asr {sz : Size} {x : Word × Bool} (h : trunc sz x.1 = x.1) :
    signedOf sz (stepped asrStep sz x).1.toNat = signedOf sz x.1.toNat / 2 := by
  have hlt := lt_of_trunc_eq h
  have hbits := sz.bits_le
  have hpos := sz.bits_pos
  have htwo := two_pow_bits sz
  have hhalf : (x.1 >>> 1).toNat = x.1.toNat / 2 := BitVec.toNat_ushiftRight x.1 1
  have hset : (asrStep sz x.1 x.2).1.toNat = 2 ^ (sz.bits - 1) * (signBit sz x.1).toNat + x.1.toNat / 2 := by
    show (setBit (x.1 >>> 1) (sz.bits - 1) (signBit sz x.1)).toNat = _
    rw [toNat_setBit_of_lt (by omega) (by omega), hhalf]
  show signedOf sz (trunc sz (asrStep sz x.1 x.2).1).toNat = _
  rw [signBit_eq_decide sz _ hlt] at hset
  by_cases hneg : 2 ^ (sz.bits - 1) ≤ x.1.toNat
  · rw [decide_eq_true hneg, Bool.toNat_true, Nat.mul_one] at hset
    rw [trunc_eq_of_lt (by omega), hset, signedOf_eq, signedOf_eq, if_neg (by omega), if_neg (by omega)]
    omega
  · rw [decide_eq_false hneg, Bool.toNat_false, Nat.mul_zero, Nat.zero_add] at hset
    rw [trunc_eq_of_lt (by omega), hset, signedOf_eq, signedOf_eq, if_pos (by omega), if_pos (by omega)]
    omega

/-- A number is read back from its signed value. -/
theorem toNat_signedOf_emod {sz : Size} {a : Nat} (h : a < 2 ^ sz.bits) :
    (signedOf sz a % 2 ^ sz.bits).toNat = a := by
  have hcast : ((2 : Int) ^ sz.bits) = ((2 ^ sz.bits : Nat) : Int) := by push_cast; rfl
  rw [signedOf, hcast]
  split
  · rw [Int.emod_eq_of_lt (by omega) (by omega), Int.toNat_natCast]
  · rw [Int.sub_emod_right, Int.emod_eq_of_lt (by omega) (by omega), Int.toNat_natCast]

theorem repeat_asr_value {sz : Size} (k : Nat) {x : Word × Bool} (h : trunc sz x.1 = x.1) :
    (repeatStep asrStep sz k x).1.toNat = (signedOf sz x.1.toNat / 2 ^ k % 2 ^ sz.bits).toNat := by
  induction k generalizing x with
  | zero => rw [pow_zero, Int.ediv_one, toNat_signedOf_emod (lt_of_trunc_eq h)]; rfl
  | succ k ih =>
    rw [repeatStep_succ, ih (trunc_trunc sz _), signedOf_stepped_asr h, Int.ediv_ediv_of_nonneg (by decide), pow_succ']

/-! ROL and ROR: the `s+1` bits of carry and operand turn. -/

/-- The bits of operand and carry together, the carry on top. -/
def pairBit (sz : Size) (x : Word × Bool) (i : Nat) : Bool := if i < sz.bits then x.1.getLsbD i else x.2

/-- The same as a number. -/
def pairNat (sz : Size) (x : Word × Bool) : Nat := x.2.toNat * 2 ^ sz.bits + x.1.toNat

theorem testBit_pairNat {sz : Size} {x : Word × Bool} (h : trunc sz x.1 = x.1) {i : Nat} (hi : i ≤ sz.bits) :
    (pairNat sz x).testBit i = pairBit sz x i := by
  rw [pairNat, Nat.mul_comm, Nat.testBit_two_pow_mul_add _ (lt_of_trunc_eq h), pairBit]
  by_cases hlt : i < sz.bits
  · rw [if_pos hlt, if_pos hlt, testBit_toNat]
  · rw [if_neg hlt, if_neg hlt, show i - sz.bits = 0 by omega]
    cases x.2 <;> rfl

/-- A pair is known from its bits: the value and carry that a number of `s+1` bits holds. -/
theorem pair_of_bits {sz : Size} {x : Word × Bool} {y : Nat} (h : trunc sz x.1 = x.1)
    (hy : ∀ i ≤ sz.bits, pairBit sz x i = y.testBit i) : x.1.toNat = y % 2 ^ sz.bits ∧ x.2 = y.testBit sz.bits := by
  refine ⟨Nat.eq_of_testBit_eq fun i => ?_, by rw [← hy _ le_rfl, pairBit, if_neg (Nat.lt_irrefl _)]⟩
  rw [Nat.testBit_mod_two_pow]
  by_cases hi : i < sz.bits
  · rw [decide_eq_true hi, Bool.true_and, ← hy i hi.le, pairBit, if_pos hi, testBit_toNat]
  · rw [decide_eq_false hi, Bool.false_and, testBit_toNat, getLsbD_of_bits_le h (by omega)]

theorem pairBit_stepped_rol (sz : Size) (x : Word × Bool) {i : Nat} (hi : i ≤ sz.bits) :
    pairBit sz (stepped rolStep sz x) i = if i = 0 then pairBit sz x sz.bits else pairBit sz x (i - 1) := by
  have hbits := sz.bits_le
  have hpos := sz.bits_pos
  have hcarry : pairBit sz x sz.bits = x.2 := if_neg (Nat.lt_irrefl _)
  have hvalue : (stepped rolStep sz x).1 = trunc sz (setBit (trunc sz (x.1 <<< 1)) 0 x.2) := rfl
  by_cases h0 : i = 0
  · rw [if_pos h0, hcarry, pairBit, if_pos (by omega), hvalue, getLsbD_trunc, getLsbD_setBit _ _ _ _ (by decide),
      if_pos h0, decide_eq_true (by omega), Bool.true_and]
  · rw [if_neg h0, pairBit, pairBit, if_pos (show i - 1 < sz.bits by omega)]
    by_cases hlt : i < sz.bits
    · rw [if_pos hlt, hvalue, getLsbD_trunc, getLsbD_setBit _ _ _ _ (by decide), if_neg h0, getLsbD_trunc,
        BitVec.getLsbD_shiftLeft, decide_eq_true hlt, decide_eq_true (show i < 32 by omega),
        decide_eq_false (show ¬ i < 1 by omega)]
      rfl
    · rw [if_neg hlt, show i = sz.bits by omega]
      rfl

theorem pairBit_repeat_rol (sz : Size) {k : Nat} (hk : k ≤ sz.bits) (x : Word × Bool) {i : Nat} (hi : i ≤ sz.bits) :
    pairBit sz (repeatStep rolStep sz k x) i
      = if i < k then pairBit sz x (i + (sz.bits + 1 - k)) else pairBit sz x (i - k) := by
  induction k generalizing x with
  | zero => rfl
  | succ k ih =>
    rw [repeatStep_succ, ih (by omega)]
    rcases Nat.lt_trichotomy i k with h | rfl | h
    · rw [if_pos h, if_pos (by omega), pairBit_stepped_rol sz x (by omega), if_neg (by omega)]
      congr 1
      omega
    · rw [if_neg (by omega), if_pos (by omega), pairBit_stepped_rol sz x (by omega), if_pos (by omega)]
      congr 1
      omega
    · rw [if_neg (by omega), if_neg (by omega), pairBit_stepped_rol sz x (by omega), if_neg (by omega)]
      congr 1

theorem pairBit_stepped_ror (sz : Size) (x : Word × Bool) (i : Nat) :
    pairBit sz (stepped rorStep sz x) i = if i < sz.bits then pairBit sz x (i + 1) else pairBit sz x 0 := by
  have hbits := sz.bits_le
  have hpos := sz.bits_pos
  have hvalue : (stepped rorStep sz x).1 = trunc sz (setBit (x.1 >>> 1) (sz.bits - 1) x.2) := rfl
  rw [pairBit, hvalue]
  by_cases hlt : i < sz.bits
  · rw [if_pos hlt, if_pos hlt, getLsbD_trunc, decide_eq_true hlt, Bool.true_and, getLsbD_setBit _ _ _ _ (by omega),
      BitVec.getLsbD_ushiftRight, pairBit]
    by_cases htop : i = sz.bits - 1
    · rw [if_pos htop, if_neg (by omega)]
    · rw [if_neg htop, if_pos (by omega), Nat.add_comm]
  · rw [if_neg hlt, if_neg hlt, pairBit, if_pos hpos]
    rfl

theorem pairBit_repeat_ror (sz : Size) {k : Nat} (hk : k ≤ sz.bits) (x : Word × Bool) {i : Nat} (hi : i ≤ sz.bits) :
    pairBit sz (repeatStep rorStep sz k x) i
      = if i < sz.bits + 1 - k then pairBit sz x (i + k) else pairBit sz x (i - (sz.bits + 1 - k)) := by
  induction k generalizing x with
  | zero => rw [if_pos (by omega)]; rfl
  | succ k ih =>
    rw [repeatStep_succ, ih (by omega)]
    rcases Nat.lt_trichotomy i (sz.bits - k) with h | h | h
    · rw [if_pos (by omega), if_pos (by omega), pairBit_stepped_ror, if_pos (by omega), Nat.add_assoc]
    · rw [if_pos (by omega), if_neg (by omega), pairBit_stepped_ror, if_neg (by omega)]
      congr 1
      omega
    · rw [if_neg (by omega), if_neg (by omega), pairBit_stepped_ror, if_pos (by omega)]
      congr 1
      omega

/-- The closed form of a left rotation of the low `m` bits, by its bits. -/
theorem testBit_rotateLeft {m k n : Nat} (hk : k ≤ m) (hn : n < 2 ^ m) {i : Nat} (hi : i < m) :
    (n * 2 ^ k % 2 ^ m + n / 2 ^ (m - k)).testBit i = if i < k then n.testBit (i + (m - k)) else n.testBit (i - k) := by
  have hm : 2 ^ m = 2 ^ (m - k) * 2 ^ k := by rw [← Nat.pow_add, Nat.sub_add_cancel hk]
  have hlow : n / 2 ^ (m - k) < 2 ^ k := Nat.div_lt_of_lt_mul (by rwa [← hm])
  rw [hm, Nat.mul_mod_mul_right, Nat.mul_comm _ (2 ^ k), Nat.testBit_two_pow_mul_add _ hlow]
  split
  · rw [Nat.testBit_div_two_pow]
  · rw [Nat.testBit_mod_two_pow, decide_eq_true (by omega), Bool.true_and]

/-- The closed form of a right rotation of the low `m` bits, by its bits. -/
theorem testBit_rotateRight {m k n : Nat} (hk : k ≤ m) (hn : n < 2 ^ m) {i : Nat} (hi : i < m) :
    (n / 2 ^ k + n % 2 ^ k * 2 ^ (m - k)).testBit i
      = if i < m - k then n.testBit (i + k) else n.testBit (i - (m - k)) := by
  have hm : 2 ^ m = 2 ^ k * 2 ^ (m - k) := by rw [← Nat.pow_add, Nat.add_sub_cancel' hk]
  have hlow : n / 2 ^ k < 2 ^ (m - k) := Nat.div_lt_of_lt_mul (by rwa [← hm])
  rw [Nat.add_comm, Nat.mul_comm, Nat.testBit_two_pow_mul_add _ hlow]
  split
  · rw [Nat.testBit_div_two_pow]
  · rw [Nat.testBit_mod_two_pow, decide_eq_true (by omega), Bool.true_and]

theorem pairNat_lt {sz : Size} {x : Word × Bool} (h : trunc sz x.1 = x.1) : pairNat sz x < 2 ^ (sz.bits + 1) := by
  have hlt := lt_of_trunc_eq h
  have hc := Bool.toNat_lt x.2
  have hle : x.2.toNat * 2 ^ sz.bits ≤ 1 * 2 ^ sz.bits := Nat.mul_le_mul_right _ (by omega)
  rw [pairNat, Nat.pow_succ]
  omega

theorem repeat_rol {sz : Size} {k : Nat} (hk : k ≤ sz.bits) {x : Word × Bool} (h : trunc sz x.1 = x.1) {y : Nat}
    (hy : pairNat sz x * 2 ^ k % 2 ^ (sz.bits + 1) + pairNat sz x / 2 ^ (sz.bits + 1 - k) = y) :
    (repeatStep rolStep sz k x).1.toNat = y % 2 ^ sz.bits ∧ (repeatStep rolStep sz k x).2 = y.testBit sz.bits := by
  refine pair_of_bits (trunc_repeatStep _ sz k h) fun i hi => ?_
  rw [pairBit_repeat_rol sz hk x hi, ← hy, testBit_rotateLeft (by omega) (pairNat_lt h) (by omega)]
  split
  · rw [testBit_pairNat h (by omega)]
  · rw [testBit_pairNat h (by omega)]

theorem repeat_ror {sz : Size} {k : Nat} (hk : k ≤ sz.bits) {x : Word × Bool} (h : trunc sz x.1 = x.1) {y : Nat}
    (hy : pairNat sz x / 2 ^ k + pairNat sz x % 2 ^ k * 2 ^ (sz.bits + 1 - k) = y) :
    (repeatStep rorStep sz k x).1.toNat = y % 2 ^ sz.bits ∧ (repeatStep rorStep sz k x).2 = y.testBit sz.bits := by
  refine pair_of_bits (trunc_repeatStep _ sz k h) fun i hi => ?_
  rw [pairBit_repeat_ror sz hk x hi, ← hy, testBit_rotateRight (by omega) (pairNat_lt h) (by omega)]
  split
  · rw [testBit_pairNat h (by omega)]
  · rw [testBit_pairNat h (by omega)]

/-! The five together. -/

/-- A step given by the spec, repeated 1 to `s`-1 times, is its closed form. -/
theorem repeatStep_of_shiftResult {op : ShiftOp} {sz : Size} {k : Nat} (h1 : 1 ≤ k) (h2 : k < sz.bits) {v : Word}
    (hv : trunc sz v = v) {c : Bool} {r : Nat} {cy : Bool} (h : shiftResult op sz k v.toNat c.toNat = some (r, cy)) :
    (repeatStep (shiftStep op) sz k (v, c)).1.toNat = r ∧ (repeatStep (shiftStep op) sz k (v, c)).2 = cy := by
  obtain ⟨k, rfl⟩ := Nat.exists_eq_add_of_le' h1
  cases op with
  | asl =>
    cases h
    exact ⟨repeat_asl_value _ hv, repeat_asl_carry k (by omega) _⟩
  | lsr =>
    cases h
    exact ⟨repeat_lsr_value _ hv, repeat_lsr_carry k (by omega) _⟩
  | asr =>
    cases h
    exact ⟨repeat_asr_value _ hv, repeat_asr_carry k (by omega) _⟩
  | rol =>
    cases h
    exact repeat_rol h2.le hv rfl
  | ror =>
    cases h
    exact repeat_ror h2.le hv rfl
  | esl | rlb | rrb => cases h

/-- The five need no step supplied. -/
theorem supplied_of_shiftResult {op : ShiftOp} {sz : Size} {k v c : Nat} {x : Nat × Bool}
    (h : shiftResult op sz k v c = some x) (s : State) : stepMissing s op = none := by
  cases op with
  | esl | rlb | rrb => cases h
  | _ => rfl

/-- Settles O33: the step repeated on a register is the closed form. -/
theorem shiftOnRegister : Obligations.ShiftOnRegister := by
  intro op sz f rd s r cy hf hrd h1 h2 h
  obtain ⟨hr, hcy⟩ := repeatStep_of_shiftResult h1 h2 (trunc_readReg s rd sz) h
  obtain ⟨t, hexec, hvalue, hnz, hc, hframe⟩ := shift_on_register (supplied_of_shiftResult h s) hf hrd h1 h2 rfl
  rw [hr] at hnz
  exact ⟨t, hexec, by rw [hvalue, hr], hnz, hc.trans hcy, hframe⟩

/-- Settles O34: the same of a memory operand, by 1 to 4. -/
theorem shiftOnMemory : Obligations.ShiftOnMemory := by
  intro op sz m nn s ea r cy hs he hw h
  have hcount : nn.toNat + 1 < sz.bits := by
    have := nn.isLt
    cases sz <;> simp only [Size.bits] <;> omega
  obtain ⟨hr, hcy⟩ := repeatStep_of_shiftResult (by omega) hcount (State.trunc_peek s ea sz) h
  obtain ⟨t, hexec, hvalue, hnz, hc, hframe⟩ := shift_on_memory (supplied_of_shiftResult h s) hs he hw rfl
  rw [hr] at hnz
  exact ⟨t, hexec, by rw [hvalue, hr], hnz, hc.trans hcy, hframe⟩

end Sys2Proof.ClosedFormFacts
end
